-- ==== Sys2Proof/Word.lean ====
section
/-! DEFINITION. The word types of the SBRQ: bytes, 32-bit words, and the channel slot. -/

namespace Sys2Proof

/-- One byte of a bus word (20_memory.md R66). -/
abbrev Byte := BitVec 8

/-- A register, a RAM word or a command word: every bus access moves one of these (20_memory.md R62). -/
abbrev Word := BitVec 32

/-- A channel slot `c`, 0 or 1 (00_scope.md R4). -/
abbrev Ch := Fin 2

end Sys2Proof
end

