-- ==== Sys2Proof/Syntax.lean ====
section
/-! DEFINITION. The commands of the SBRQ as syntax, one constructor per row of spec/opcode_table.json, and the names
of the command errors. Operand fields are unsigned integers (30_encoding.md R84), so they are `Nat`; which values an
encoding can hold is WellFormed.lean's. -/

namespace Sys2Proof

/-- The opcodes of 30_encoding.md R85. -/
inductive Opcode where
  | nop | resetCh | shiftLow | qmfAna | spliceX | envMul | envMac | qmfSyn | savePrev
  | deqEnv | deqNoise | deqEnvCpl | deqNoiseCpl
  deriving DecidableEq, Repr

/-- The command errors of 60_exceptions.md R180. A command that ends with one is a next state, not a stop. -/
inductive CmdError where
  /-- `OP` is no opcode (60_exceptions.md R181). -/
  | illegalOp
  /-- A reserved bit of the command word is 1 (60_exceptions.md R182). -/
  | reserved
  /-- A coupled command while `CFG.CPL = 0` (60_exceptions.md R183). -/
  | config
  /-- An operand field out of range (60_exceptions.md R183). -/
  | range
  /-- A grid count outside its legal values (60_exceptions.md R183). -/
  | grid
  deriving DecidableEq, Repr

/-- A command with its operands (30_encoding.md R87). -/
inductive Instr where
  /-- `NOP`, 42_pipeline.md R130. -/
  | nop
  /-- `RESET_CH`, 42_pipeline.md R132. -/
  | resetCh (c : Ch) (mask : Nat)
  /-- `SHIFT_LOW`, 42_pipeline.md R134. -/
  | shiftLow (c : Ch)
  /-- `QMF_ANA`, 43_qmf.md R158. -/
  | qmfAna (c : Ch) (klim l0 nl : Nat)
  /-- `SPLICE_X`, 42_pipeline.md R136. -/
  | spliceX (c : Ch) (kx mb : Nat) (r : Bool)
  /-- `ENV_MUL`, 41_env_adjust.md R120. -/
  | envMul (c : Ch) (j0 nj m0 nm : Nat)
  /-- `ENV_MAC`, 41_env_adjust.md R122. -/
  | envMac (c : Ch) (j0 nj m0 nm : Nat)
  /-- `QMF_SYN`, 43_qmf.md R161. -/
  | qmfSyn (c : Ch) (l0 nl : Nat)
  /-- `SAVE_PREV`, 42_pipeline.md R138. -/
  | savePrev (c : Ch)
  /-- `DEQ_ENV`, 40_dequant.md R102. -/
  | deqEnv (c : Ch)
  /-- `DEQ_NOISE`, 40_dequant.md R105. -/
  | deqNoise (c : Ch)
  /-- `DEQ_ENV_CPL`, 40_dequant.md R108. -/
  | deqEnvCpl
  /-- `DEQ_NOISE_CPL`, 40_dequant.md R111. -/
  | deqNoiseCpl
  deriving DecidableEq, Repr

/-- The opcode of a command (30_encoding.md R85). -/
def Instr.opcode : Instr → Opcode
  | .nop => .nop
  | .resetCh _ _ => .resetCh
  | .shiftLow _ => .shiftLow
  | .qmfAna _ _ _ _ => .qmfAna
  | .spliceX _ _ _ _ => .spliceX
  | .envMul _ _ _ _ _ => .envMul
  | .envMac _ _ _ _ _ => .envMac
  | .qmfSyn _ _ _ => .qmfSyn
  | .savePrev _ => .savePrev
  | .deqEnv _ => .deqEnv
  | .deqNoise _ => .deqNoise
  | .deqEnvCpl => .deqEnvCpl
  | .deqNoiseCpl => .deqNoiseCpl

end Sys2Proof
end

