-- ==== Sys2Proof/WellFormed.lean ====
section
/-! DEFINITION. Which commands an encoding can hold: every operand fits its field (30_encoding.md R82, R83, R87).
A value that fits its field but is out of range is well-formed: the SBRQ reports it when it runs (30_encoding.md
R89, 60_exceptions.md R183). -/

namespace Sys2Proof

/-- Every operand fits its field. -/
def Instr.wf : Instr → Bool
  | .nop => true
  | .resetCh _ mask => decide (mask < 256)
  | .shiftLow _ => true
  | .qmfAna _ klim l0 nl => decide (klim < 256) && decide (l0 < 256) && decide (nl < 256)
  | .spliceX _ kx mb _ => decide (kx < 256) && decide (mb < 256)
  | .envMul _ j0 nj m0 nm => decide (j0 < 64) && decide (nj < 64) && decide (m0 < 64) && decide (nm < 128)
  | .envMac _ j0 nj m0 nm => decide (j0 < 64) && decide (nj < 64) && decide (m0 < 64) && decide (nm < 128)
  | .qmfSyn _ l0 nl => decide (l0 < 256) && decide (nl < 256)
  | .savePrev _ => true
  | .deqEnv _ => true
  | .deqNoise _ => true
  | .deqEnvCpl => true
  | .deqNoiseCpl => true

end Sys2Proof
end

