-- ==== Sys2Proof/Decode.lean ====
section
/-! DEFINITION. Decoding a command word (30_encoding.md R80 to R88), total, rejecting by the name of the command
error; and the encoder, written from the same tables. The checks come in the order of 60_exceptions.md R185: first
the opcode, then the reserved bits. -/

namespace Sys2Proof

/-- `v[hi:lo]` as an unsigned integer (00_scope.md R7). -/
def field (hi lo : Nat) (v : Word) : Nat := v.toNat / 2 ^ lo % 2 ^ (hi + 1 - lo)

/-- `v[i]` (00_scope.md R7). -/
def bit (i : Nat) (v : Word) : Bool := decide (field i i v = 1)

/-- The opcode map (30_encoding.md R85). -/
def Opcode.code : Opcode → Nat
  | .nop => 0x00
  | .resetCh => 0x01
  | .shiftLow => 0x02
  | .qmfAna => 0x03
  | .spliceX => 0x04
  | .envMul => 0x05
  | .envMac => 0x06
  | .qmfSyn => 0x07
  | .savePrev => 0x08
  | .deqEnv => 0x10
  | .deqNoise => 0x11
  | .deqEnvCpl => 0x12
  | .deqNoiseCpl => 0x13

/-- Every opcode of 30_encoding.md R85. -/
def allOpcodes : List Opcode :=
  [.nop, .resetCh, .shiftLow, .qmfAna, .spliceX, .envMul, .envMac, .qmfSyn, .savePrev,
    .deqEnv, .deqNoise, .deqEnvCpl, .deqNoiseCpl]

/-- The opcode of an `OP` field; every value that is no opcode's code is illegal (30_encoding.md R86). -/
def opcodeOf (op : Nat) : Option Opcode := allOpcodes.find? fun o => o.code == op

/-- The reserved bits of each command, as fields `(hi, lo)` (30_encoding.md R87, 60_exceptions.md R182). -/
def reservedFields : Opcode → List (Nat × Nat)
  | .nop => [(25, 0)]
  | .resetCh => [(24, 24), (23, 16), (15, 8)]
  | .shiftLow => [(24, 0)]
  | .qmfAna => [(24, 24)]
  | .spliceX => [(24, 24), (7, 1)]
  | .envMul => []
  | .envMac => []
  | .qmfSyn => [(24, 24), (23, 16)]
  | .savePrev => [(24, 0)]
  | .deqEnv => [(24, 0)]
  | .deqNoise => [(24, 0)]
  | .deqEnvCpl => [(25, 0)]
  | .deqNoiseCpl => [(25, 0)]

/-- Every reserved bit of the word is 0. -/
def reservedClear (op : Opcode) (w : Word) : Bool :=
  (reservedFields op).all fun f => decide (field f.1 f.2 w = 0)

/-- The channel slot of bit 25 (30_encoding.md R80). -/
def chOf (w : Word) : Ch := if field 25 25 w = 0 then 0 else 1

/-- The operands of a word whose opcode is known (30_encoding.md R81 to R83, R87). -/
def operands (op : Opcode) (w : Word) : Instr :=
  match op with
  | .nop => .nop
  | .resetCh => .resetCh (chOf w) (field 7 0 w)
  | .shiftLow => .shiftLow (chOf w)
  | .qmfAna => .qmfAna (chOf w) (field 23 16 w) (field 15 8 w) (field 7 0 w)
  | .spliceX => .spliceX (chOf w) (field 23 16 w) (field 15 8 w) (bit 0 w)
  | .envMul => .envMul (chOf w) (field 24 19 w) (field 18 13 w) (field 12 7 w) (field 6 0 w)
  | .envMac => .envMac (chOf w) (field 24 19 w) (field 18 13 w) (field 12 7 w) (field 6 0 w)
  | .qmfSyn => .qmfSyn (chOf w) (field 15 8 w) (field 7 0 w)
  | .savePrev => .savePrev (chOf w)
  | .deqEnv => .deqEnv (chOf w)
  | .deqNoise => .deqNoise (chOf w)
  | .deqEnvCpl => .deqEnvCpl
  | .deqNoiseCpl => .deqNoiseCpl

/-- Decode a command word: the command, or the error it ends with (60_exceptions.md R181, R182, R185). -/
def decode (w : Word) : Except CmdError Instr :=
  match opcodeOf (field 31 26 w) with
  | none => .error .illegalOp
  | some op => if reservedClear op w then .ok (operands op w) else .error .reserved

/-- Format N and the common fields: `OP` and `CH` (30_encoding.md R80, R81). -/
def packN (op : Opcode) (c : Nat) : Nat := op.code * 2 ^ 26 + c * 2 ^ 25

/-- Format B: three byte fields (30_encoding.md R82). -/
def packB (op : Opcode) (c : Nat) (fa fb fc : Nat) : Nat := packN op c + fa * 2 ^ 16 + fb * 2 ^ 8 + fc

/-- Format E: the envelope block (30_encoding.md R83). -/
def packE (op : Opcode) (c : Nat) (j0 nj m0 nm : Nat) : Nat :=
  packN op c + j0 * 2 ^ 19 + nj * 2 ^ 13 + m0 * 2 ^ 7 + nm

/-- The word of a command (30_encoding.md R80 to R87). -/
def encode : Instr → Word
  | .nop => BitVec.ofNat 32 (packN .nop 0)
  | .resetCh c mask => BitVec.ofNat 32 (packB .resetCh c.val 0 0 mask)
  | .shiftLow c => BitVec.ofNat 32 (packN .shiftLow c.val)
  | .qmfAna c klim l0 nl => BitVec.ofNat 32 (packB .qmfAna c.val klim l0 nl)
  | .spliceX c kx mb r => BitVec.ofNat 32 (packB .spliceX c.val kx mb r.toNat)
  | .envMul c j0 nj m0 nm => BitVec.ofNat 32 (packE .envMul c.val j0 nj m0 nm)
  | .envMac c j0 nj m0 nm => BitVec.ofNat 32 (packE .envMac c.val j0 nj m0 nm)
  | .qmfSyn c l0 nl => BitVec.ofNat 32 (packB .qmfSyn c.val 0 l0 nl)
  | .savePrev c => BitVec.ofNat 32 (packN .savePrev c.val)
  | .deqEnv c => BitVec.ofNat 32 (packN .deqEnv c.val)
  | .deqNoise c => BitVec.ofNat 32 (packN .deqNoise c.val)
  | .deqEnvCpl => BitVec.ofNat 32 (packN .deqEnvCpl 0)
  | .deqNoiseCpl => BitVec.ofNat 32 (packN .deqNoiseCpl 0)

/-- The command the decoder reads from a table word of `nbits` bits (every command is one 32-bit word, R80). -/
def decodeTableWord (nbits w : Nat) : Option Instr := (decode (BitVec.ofNat 32 (w % 2 ^ nbits))).toOption

end Sys2Proof
end

