-- ==== Sys2Proof/Machine/Float.lean ====
section
/-! DEFINITION. The binary32 primitives of the SBRQ (00_scope.md R10 to R15): every operation is the exact result,
rounded once by `RNE32`. No flush to zero, no exception flags (R10, R13), one canonical NaN (R12). -/

namespace Sys2Proof.Machine

/-- A binary32 word taken apart: `fin neg m e` stands for `±m · 2^e`, exactly. -/
inductive FloatVal where
  | nan
  | inf (neg : Bool)
  | fin (neg : Bool) (m : Nat) (e : Int)
  deriving DecidableEq, Repr

/-- The canonical quiet NaN (00_scope.md R12). -/
def qnan : Word := 0x7FC00000

/-- `+1.0`. -/
def oneF : Word := 0x3F800000

/-- `+2.0`. -/
def twoF : Word := 0x40000000

/-- The sign bit as a number. -/
def signBit (neg : Bool) : Nat := if neg then 2 ^ 31 else 0

/-- `±0`. -/
def zeroF (neg : Bool) : Word := BitVec.ofNat 32 (signBit neg)

/-- `±infinity`. -/
def infF (neg : Bool) : Word := BitVec.ofNat 32 (signBit neg + 255 * 2 ^ 23)

/-- The value of a binary32 word: sign in bit 31, exponent in [30:23], fraction in [22:0] (20_memory.md R66). -/
def unpack (w : Word) : FloatVal :=
  let neg := bit 31 w
  let ex := field 30 23 w
  let fr := field 22 0 w
  if ex = 255 then (if fr = 0 then .inf neg else .nan)
  else if ex = 0 then .fin neg fr (-149)
  else .fin neg (2 ^ 23 + fr) ((ex : Int) - 150)

/-- Round the quotient `m / 2^sh` to an integer, ties to even; `sticky` says that the true numerator lies strictly
between `m` and `m + 1`. -/
def roundShift (m sh : Nat) (sticky : Bool) : Nat :=
  let hi := m / 2 ^ sh
  let rem := 2 * (m % 2 ^ sh)
  if 2 ^ sh < rem ∨ (rem = 2 ^ sh ∧ (sticky = true ∨ hi % 2 = 1)) then hi + 1 else hi

/-- Assemble a rounded magnitude `sig · 2^q`, where `q` is `-149` or `sig` has at least 24 bits: a carry out of the
fraction moves into the exponent by itself, and a magnitude past the largest finite one is infinity (00_scope.md R10). -/
def packMagnitude (neg : Bool) (sig : Nat) (q : Int) : Word :=
  let bits := (q + 149).toNat * 2 ^ 23 + sig
  if 255 * 2 ^ 23 ≤ bits then infF neg else BitVec.ofNat 32 (signBit neg + bits)

/-- `RNE32` (00_scope.md R10) of the exact value `±m · 2^e`, or, with `sticky`, of a value strictly between `±m · 2^e`
and `±(m+1) · 2^e` (then `m` must have more than 24 bits). The quantum of the result is `2^q`: 24 significant bits, but
never below `2^-149`. A magnitude below `2^-150` becomes zero. -/
def rne32 (neg : Bool) (m : Nat) (e : Int) (sticky : Bool) : Word :=
  if m = 0 then zeroF neg
  else
    let top : Int := (m.log2 : Int) + e
    if top < -150 then zeroF neg
    else
      let q : Int := max (top - 23) (-149)
      if q ≤ e then packMagnitude neg (m * 2 ^ (e - q).toNat) q
      else packMagnitude neg (roundShift m (q - e).toNat sticky) q

/-- `neg(a)` (00_scope.md R11): the sign bit flipped, or the canonical NaN. -/
def neg32 (a : Word) : Word :=
  match unpack a with
  | .nan => qnan
  | _ => a ^^^ 0x80000000

/-- A signed integer for `±m`. -/
def signed (neg : Bool) (m : Nat) : Int := if neg then -(m : Int) else m

/-- The exact sum of two finite values, rounded once; an exact zero is `+0` unless both terms are negative zeros
(00_scope.md R10, R11). -/
def addFin (s : Bool) (m : Nat) (e : Int) (t : Bool) (n : Nat) (f : Int) : Word :=
  let g := min e f
  let sum := signed s (m * 2 ^ (e - g).toNat) + signed t (n * 2 ^ (f - g).toNat)
  if sum = 0 then zeroF (s && t) else rne32 (decide (sum < 0)) sum.natAbs g false

/-- `add32(a, b)` (00_scope.md R11). -/
def add32 (a b : Word) : Word :=
  match unpack a, unpack b with
  | .nan, _ => qnan
  | _, .nan => qnan
  | .inf s, .inf t => if s = t then infF s else qnan
  | .inf s, .fin _ _ _ => infF s
  | .fin _ _ _, .inf t => infF t
  | .fin s m e, .fin t n f => addFin s m e t n f

/-- `sub32(a, b)` (00_scope.md R11): the sum with the second operand's sign flipped. No command uses it. -/
def sub32 (a b : Word) : Word := add32 a (neg32 b)

/-- `mul32(a, b)` (00_scope.md R11): the sign of a product is the XOR of the signs, `0 × inf` is NaN. -/
def mul32 (a b : Word) : Word :=
  match unpack a, unpack b with
  | .nan, _ => qnan
  | _, .nan => qnan
  | .inf s, .inf t => infF (s ^^ t)
  | .inf s, .fin t n _ => if n = 0 then qnan else infF (s ^^ t)
  | .fin s m _, .inf t => if m = 0 then qnan else infF (s ^^ t)
  | .fin s m e, .fin t n f => rne32 (s ^^ t) (m * n) (e + f) false

/-- The exact quotient of two nonzero finite values, rounded once: 50 extra bits of quotient and a sticky remainder
decide the rounding. -/
def divFin (s : Bool) (m : Nat) (e : Int) (n : Nat) (f : Int) : Word :=
  rne32 s (m * 2 ^ 50 / n) (e - f - 50) (decide (m * 2 ^ 50 % n ≠ 0))

/-- `div32(a, b)` (00_scope.md R11): `0/0` and `inf/inf` are NaN, `x/0` is a signed infinity. -/
def div32 (a b : Word) : Word :=
  match unpack a, unpack b with
  | .nan, _ => qnan
  | _, .nan => qnan
  | .inf _, .inf _ => qnan
  | .inf s, .fin t _ _ => infF (s ^^ t)
  | .fin s _ _, .inf t => zeroF (s ^^ t)
  | .fin s m e, .fin t n f =>
    if n = 0 then (if m = 0 then qnan else infF (s ^^ t)) else divFin (s ^^ t) m e n f

/-- `SUM32`: the left fold of `add32` from the first term (00_scope.md R14). -/
def sum32 : List Word → Word
  | [] => zeroF false
  | t :: ts => ts.foldl add32 t

/-- `SUM32` down the columns of equally long rows, the rows being the terms in order (00_scope.md R14). -/
def sumRows : List (List Word) → List Word
  | [] => []
  | r :: rs => rs.foldl (List.zipWith add32) r

/-- The integer part of `√2 · 2^64`; `√2` is irrational, so the true value lies strictly above it. -/
def sqrt2Scaled : Nat := 26087635650665564424

/-- `POW2H(p) = RNE32(2^(p/2))` (00_scope.md R15): a power of two for even `p`, and for odd `p` the power
`2^((p-1)/2) · √2`. -/
def pow2h (p : Int) : Word :=
  if p % 2 = 0 then rne32 false 1 (p / 2) false
  else rne32 false sqrt2Scaled (p / 2 - 64) true

end Sys2Proof.Machine
end

