-- ==== Sys2Proof/Config.lean ====
section
/-! DEFINITION. What one SBRQ fixes: the dimensions of 00_scope.md R5, the identification value, and the one
parameter the spec leaves open that the machine itself shows, `T_CMD`. -/

namespace Sys2Proof

/-- `T_HFGEN`, the lookback slots of the low band held in `W` (00_scope.md R5). -/
abbrev Config.tHfgen : Nat := 8

/-- `T_HFADJ`, the slot offset between `W`/`Y` and `X` (00_scope.md R5). -/
abbrev Config.tHfadj : Nat := 2

/-- `KA`, the analysis bands, and the columns of `W` and `WP` (00_scope.md R5). -/
abbrev Config.ka : Nat := 32

/-- `KS`, the synthesis bands, and the columns of the high-band matrices (00_scope.md R5). -/
abbrev Config.ks : Nat := 64

/-- `YSL`, the slots of `Y`, `XH`, `G`, `A` and `Z`; `W` has as many (00_scope.md R5). -/
abbrev Config.ysl : Nat := 40

/-- `YPSL`, the slots of `YP` (00_scope.md R5). -/
abbrev Config.ypsl : Nat := 10

/-- `LE_MAX`, the envelopes of a frame (00_scope.md R5). -/
abbrev Config.leMax : Nat := 5

/-- `NB_MAX`, the bands of an envelope (00_scope.md R5). -/
abbrev Config.nbMax : Nat := 64

/-- `LQ_MAX`, the noise floors of a frame (00_scope.md R5). -/
abbrev Config.lqMax : Nat := 2

/-- `NQB_MAX`, the noise bands (00_scope.md R5). -/
abbrev Config.nqbMax : Nat := 8

/-- The value of `ID`, "SBQ1" (10_state.md R27). -/
abbrev Config.idValue : Word := 0x53425131

/-- `T_CMD(word)`: how long the command `word` stays pending, counted in machine steps (70_reset_and_hazards.md
R213 leaves it open and says that no rule depends on it). It has no body: every statement holds for every value.
DESIGN CHOICE (log 1): the unit is the step. Safe. -/
opaque Config.tCmd : Word → Nat

end Sys2Proof
end

