-- ==== Sys2Proof/Machine/State.lean ====
section
/-! DEFINITION. The state of one SBRQ as plain data: the control registers, the RAMs, the pending command and the
host accesses in flight (10_state.md), the reasons a step can stop, and the state after power-on reset
(70_reset_and_hazards.md R200). -/

namespace Sys2Proof.Machine

/-- The names of the per-channel RAMs (10_state.md R40). -/
inductive Ram where
  | IN | OUT | ADL | SDL | W | WP | XH | G | A | Z | Y | YP | X | EQ | EO | QQ | QO
  deriving DecidableEq, Repr

/-- A complex element: its two binary32 words (00_scope.md R8). -/
structure Cplx where
  re : Word
  im : Word
  deriving DecidableEq, Repr

/-- The RAMs as bytes at bus addresses, little-endian (20_memory.md R66). The canonical form is `Memory.wf` of
Ops.lean: addresses strictly rising, no entry equal to the reset content `0x00` that an unlisted address reads. -/
abbrev Memory := List Host.Cell

/-- The control registers that hold state (10_state.md R26), each as the word a host read returns. `ID` is a constant
(R27) and the reserved offsets hold nothing (R38). -/
structure Regs where
  ctrl : Word
  status : Word
  cmd : Word
  cmdcnt : Word
  cfg : Word
  grid0 : Word
  grid1 : Word
  nbe0a : Word
  nbe0b : Word
  nbe1a : Word
  nbe1b : Word
  dqe : Word
  dqn : Word
  ssc64 : Word
  ssc32 : Word
  deriving DecidableEq, Repr

/-- The command in progress (10_state.md R55): the word the host wrote, and how many more machine steps it stays
pending (`T_CMD`, 70_reset_and_hazards.md R213; the model's own count, log 1). -/
structure Pending where
  word : Word
  wait : Nat
  deriving DecidableEq, Repr

/-- One access of the host on the bus: an address of 20 bits, a size in bytes, and for a write the data
(20_memory.md R60, R62). -/
inductive Access where
  | read (addr : BitVec 20) (size : Nat)
  | write (addr : BitVec 20) (size : Nat) (data : Word)
  deriving DecidableEq, Repr

/-- What the bus answers (20_memory.md R65, R69). -/
inductive Response where
  /-- A completed read, with its data. -/
  | data (w : Word)
  /-- A completed write. -/
  | done
  /-- A refused access: no state changed, no data to use. -/
  | busError
  deriving DecidableEq, Repr

/-- The whole machine, with the host accesses in flight. `regs`, `mem`, `pending` and `held` are the spec's state
(10_state.md R25, R55; 20_memory.md R68); `host` and `resp` are the model's own view of the bus (log 2). -/
structure State where
  regs : Regs
  mem : Memory
  pending : Option Pending
  held : List Access
  host : List Access
  resp : List (Access × Response)
  deriving DecidableEq, Repr

/-- The reasons the machine stops with a fault: none. A command error and a bus error are next states
(60_exceptions.md R187, R188), so nothing raises a fault (log 5). Safe. -/
inductive Fault where
  deriving DecidableEq, Repr

/-- The reasons a step is refused. -/
inductive Refusal where
  /-- An instruction that has no meaning yet; no arm of `exec` raises it. Safe. -/
  | notModelled (mnemonic : String)
  deriving DecidableEq, Repr

/-- The registers after reset (10_state.md R26, 70_reset_and_hazards.md R200). -/
def Regs.reset : Regs where
  ctrl := 0
  status := 0
  cmd := 0
  cmdcnt := 0
  cfg := 0
  grid0 := 0
  grid1 := 0
  nbe0a := 0
  nbe0b := 0
  nbe1a := 0
  nbe1b := 0
  dqe := 0x0C180706
  dqn := 0x0C070E06
  ssc64 := 0x3C800000
  ssc32 := 0x3D000000

/-- Power-on reset (70_reset_and_hazards.md R200): every register at its reset value, every RAM word zero, no command
pending. No access is in flight (DESIGN CHOICE, log 2). -/
def State.reset : State where
  regs := Regs.reset
  mem := []
  pending := none
  held := []
  host := []
  resp := []

end Sys2Proof.Machine
end

