-- ==== Sys2Proof/Machine/Flags.lean ====
section
/-! DEFINITION. The flags of `STATUS` (10_state.md R29, R58), what a command's end does to them and to `CMDCNT`
(60_exceptions.md R184, R186), what the host's W1C write does, and the interrupt output (R192). -/

namespace Sys2Proof.Machine

/-- `STATUS.BUSY` as a bit of the word. -/
def busyMask : Word := 0x00000001

/-- `STATUS.DONE`. -/
def doneMask : Word := 0x00000002

/-- `STATUS.ERR`. -/
def errMask : Word := 0x00000004

/-- `STATUS.ERRCODE`. -/
def errCodeMask : Word := 0x00000F00

/-- The code of a command error in `STATUS.ERRCODE` (60_exceptions.md R180). -/
def errorCode : CmdError → Nat
  | .illegalOp => 1
  | .reserved => 2
  | .config => 3
  | .range => 4
  | .grid => 5

/-- `STATUS.ERR`. -/
def Regs.err (r : Regs) : Bool := bit 2 r.status

/-- `STATUS` when a command ends without error: `BUSY` 0, `DONE` 1, `ERR` and `ERRCODE` as they were
(60_exceptions.md R184, R186). -/
def statusAfterOk (st : Word) : Word := (st &&& ~~~busyMask) ||| doneMask

/-- `STATUS` when a command ends with an error: `BUSY` 0, and the first error since `ERR` was last 0 is recorded; a
later one is lost (60_exceptions.md R184, R186). -/
def statusAfterErr (e : CmdError) (st : Word) : Word :=
  if bit 2 st then st &&& ~~~busyMask
  else (st &&& ~~~(busyMask ||| errCodeMask)) ||| errMask ||| (BitVec.ofNat 32 (errorCode e) <<< 8)

/-- `STATUS` after a host write of `data`: bits 1 and 2 are W1C, and clearing `ERR` clears `ERRCODE` with it; every other
bit ignores the write (10_state.md R29). -/
def statusAfterWrite (data st : Word) : Word :=
  let st := if bit 1 data then st &&& ~~~doneMask else st
  if bit 2 data then st &&& ~~~(errMask ||| errCodeMask) else st

/-- The registers when a command ends without error: `DONE`, and `CMDCNT` counts modulo 2^32 (10_state.md R31,
60_exceptions.md R186). -/
def Regs.endOk (r : Regs) : Regs := { r with status := statusAfterOk r.status, cmdcnt := r.cmdcnt + 1 }

/-- The registers when a command ends with an error: only `STATUS` changes (60_exceptions.md R185, R186). -/
def Regs.endErr (e : CmdError) (r : Regs) : Regs := { r with status := statusAfterErr e r.status }

/-- The interrupt output: `(DONE and IE_DONE) or (ERR and IE_ERR)` (60_exceptions.md R192). -/
def Regs.irq (r : Regs) : Bool := (bit 1 r.status && bit 1 r.ctrl) || (bit 2 r.status && bit 2 r.ctrl)

/-- `IRQ` follows the equation of R192 at all times (log 6). -/
def State.irq (s : State) : Bool := s.regs.irq

end Sys2Proof.Machine
end

