-- ==== Sys2Proof/Machine/Operands.lean ====
section
/-! DEFINITION. Operand forms: the fields of the control registers (10_state.md R32 to R36), the address map of the
RAMs and of their elements (R39 to R41), and the operand checks of 60_exceptions.md R183. -/

namespace Sys2Proof.Machine

/-- `v` of `n` bits read as a two's-complement value (00_scope.md R7). -/
def sext (n v : Nat) : Int := if v < 2 ^ (n - 1) then (v : Int) else (v : Int) - 2 ^ n

/-- `s32(v)` (00_scope.md R7). -/
def s32 (v : Word) : Int := sext 32 v.toNat

/-- `CFG.SMALLF` (10_state.md R32). -/
def Regs.smallf (r : Regs) : Bool := bit 0 r.cfg

/-- `CFG.DS` (10_state.md R32). -/
def Regs.ds (r : Regs) : Bool := bit 1 r.cfg

/-- `CFG.CPL` (10_state.md R32). -/
def Regs.cpl (r : Regs) : Bool := bit 2 r.cfg

/-- `NTSR`, the time slots of a frame (00_scope.md R5). -/
def Regs.ntsr (r : Regs) : Nat := if r.smallf then 30 else 32

/-- `GRIDc` (10_state.md R33). -/
def Regs.gridOf (r : Regs) (c : Ch) : Word := if c = 0 then r.grid0 else r.grid1

/-- `GRIDc.LE` (10_state.md R33). -/
def Regs.le (r : Regs) (c : Ch) : Nat := field 2 0 (r.gridOf c)

/-- `GRIDc.LQ` (10_state.md R33). -/
def Regs.lq (r : Regs) (c : Ch) : Nat := field 5 4 (r.gridOf c)

/-- `GRIDc.NQB` (10_state.md R33). -/
def Regs.nqb (r : Regs) (c : Ch) : Nat := field 11 8 (r.gridOf c)

/-- `GRIDc.AMP` (10_state.md R33). -/
def Regs.amp (r : Regs) (c : Ch) : Bool := bit 12 (r.gridOf c)

/-- `ah(c)`: the amplitude-resolution scale in half-units (40_dequant.md R101). -/
def Regs.ah (r : Regs) (c : Ch) : Int := if r.amp c then 2 else 1

/-- `NBEcA` (10_state.md R34). -/
def Regs.nbea (r : Regs) (c : Ch) : Word := if c = 0 then r.nbe0a else r.nbe1a

/-- `NBEcB` (10_state.md R34). -/
def Regs.nbeb (r : Regs) (c : Ch) : Word := if c = 0 then r.nbe0b else r.nbe1b

/-- `NB[c][l]`, the band count of envelope `l` (10_state.md R34). -/
def Regs.nb (r : Regs) (c : Ch) (l : Nat) : Nat :=
  if l < 4 then field (8 * l + 7) (8 * l) (r.nbea c) else field 7 0 (r.nbeb c)

/-- `DQE.ENV_OFF`, read as `s8` (10_state.md R35). -/
def Regs.envOff (r : Regs) : Int := sext 8 (field 7 0 r.dqe)

/-- `DQE.CPL_EOFF` (10_state.md R35). -/
def Regs.cplEoff (r : Regs) : Int := sext 8 (field 15 8 r.dqe)

/-- `DQE.PAN_E0` (10_state.md R35). -/
def Regs.panE0 (r : Regs) : Int := sext 8 (field 23 16 r.dqe)

/-- `DQE.PAN_E1` (10_state.md R35). -/
def Regs.panE1 (r : Regs) : Int := sext 8 (field 31 24 r.dqe)

/-- The panning offset of the coupled envelope, chosen by channel 1's amplitude resolution (40_dequant.md R107). -/
def Regs.panE (r : Regs) : Int := if r.amp 1 then r.panE1 else r.panE0

/-- `DQN.NOISE_OFF` (10_state.md R36). -/
def Regs.noiseOff (r : Regs) : Int := sext 8 (field 7 0 r.dqn)

/-- `DQN.NS`, read as `s4` (10_state.md R36). -/
def Regs.ns (r : Regs) : Int := sext 4 (field 11 8 r.dqn)

/-- `DQN.CPL_NOFF` (10_state.md R36). -/
def Regs.cplNoff (r : Regs) : Int := sext 8 (field 23 16 r.dqn)

/-- `DQN.PAN_N` (10_state.md R36). -/
def Regs.panN (r : Regs) : Int := sext 8 (field 31 24 r.dqn)

/-- `CB(c)`, the base of a channel window (10_state.md R40). -/
def chanBase (c : Ch) : Nat := 0x40000 * (c.val + 1)

/-- The size of a channel window, 256 KiB (10_state.md R40). -/
def chanSize : Nat := 0x40000

/-- The offset of a RAM in its channel window (10_state.md R40). -/
def Ram.off : Ram → Nat
  | .IN => 0x00000
  | .OUT => 0x01000
  | .ADL => 0x03000
  | .SDL => 0x04000
  | .W => 0x06000
  | .WP => 0x09000
  | .XH => 0x0A000
  | .G => 0x0F000
  | .A => 0x12000
  | .Z => 0x15000
  | .Y => 0x1A000
  | .YP => 0x1F000
  | .X => 0x21000
  | .EQ => 0x25000
  | .EO => 0x26000
  | .QQ => 0x27000
  | .QO => 0x27100

/-- The slots of a RAM; a vector has one (10_state.md R40). -/
def Ram.rows : Ram → Nat
  | .IN | .OUT | .ADL | .SDL => 1
  | .W | .XH | .G | .A | .Z | .Y => 40
  | .WP => 8
  | .YP => 10
  | .X => 32
  | .EQ | .EO => 5
  | .QQ | .QO => 2

/-- The elements of one slot (10_state.md R40). -/
def Ram.cols : Ram → Nat
  | .IN => 1024
  | .OUT => 2048
  | .ADL => 320
  | .SDL => 1280
  | .W | .WP => 32
  | .XH | .G | .A | .Z | .Y | .YP | .X | .EQ | .EO => 64
  | .QQ | .QO => 8

/-- The words of one element: two for a complex element (10_state.md R40, R41). -/
def Ram.parts : Ram → Nat
  | .W | .WP | .XH | .Z | .Y | .YP | .X => 2
  | .IN | .OUT | .ADL | .SDL | .G | .A | .EQ | .EO | .QQ | .QO => 1

/-- The bytes of a RAM. -/
def Ram.bytes (r : Ram) : Nat := 4 * (r.parts * (r.rows * r.cols))

/-- The bus address of a RAM of a channel (10_state.md R40). -/
def Ram.base (r : Ram) (c : Ch) : Nat := chanBase c + r.off

/-- The bus address of element `M[c][s][k]`; a vector is its slot 0 (10_state.md R41). -/
def Ram.addr (r : Ram) (c : Ch) (s k : Nat) : Nat := r.base c + 4 * (r.parts * (s * r.cols + k))

/-- Every per-channel RAM (10_state.md R40). -/
def allRams : List Ram :=
  [.IN, .OUT, .ADL, .SDL, .W, .WP, .XH, .G, .A, .Z, .Y, .YP, .X, .EQ, .EO, .QQ, .QO]

/-- The bus address of `CRAM[0]` (10_state.md R39). -/
def cramBase : Nat := 0x01000

/-- The bytes of `CRAM`, 640 words (10_state.md R39). -/
def cramBytes : Nat := 4 * 640

/-- The end of the control-register block, reserved offsets included (20_memory.md R61). -/
def regEnd : Nat := 0x01000

/-- `a` lies in `CRAM`. -/
def inCram (a : Nat) : Bool := decide (cramBase ≤ a) && decide (a < cramBase + cramBytes)

/-- `a` lies in RAM `r` of channel `c`. -/
def Ram.contains (r : Ram) (c : Ch) (a : Nat) : Bool := decide (r.base c ≤ a) && decide (a < r.base c + r.bytes)

/-- `a` is a byte of a RAM of the map (20_memory.md R61, 10_state.md R54). -/
def mappedRam (a : Nat) : Bool := inCram a || allRams.any fun r => r.contains 0 a || r.contains 1 a

/-- `RANGE` of `QMF_ANA` passes (60_exceptions.md R183). -/
def anaInRange (r : Regs) (klim l0 nl : Nat) : Bool := decide (klim ≤ 32) && decide (l0 + nl ≤ r.ntsr)

/-- `RANGE` of `QMF_SYN` passes (60_exceptions.md R183). -/
def synInRange (r : Regs) (l0 nl : Nat) : Bool := decide (l0 + nl ≤ r.ntsr)

/-- `RANGE` of `SPLICE_X` passes (60_exceptions.md R183). -/
def spliceInRange (kx mb : Nat) : Bool := decide (kx ≤ 32) && decide (kx + mb ≤ 64)

/-- `RANGE` of `ENV_MUL` and `ENV_MAC` passes (60_exceptions.md R183, 41_env_adjust.md R119). -/
def blockInRange (j0 nj m0 nm : Nat) : Bool := decide (j0 + nj ≤ 40) && decide (m0 + nm ≤ 64)

/-- `GRID` of the envelope commands passes for channel `c`'s grid (60_exceptions.md R183). -/
def envGridLegal (r : Regs) (c : Ch) : Bool :=
  decide (r.le c ≤ Config.leMax) && (List.range (r.le c)).all fun l => decide (r.nb c l ≤ Config.nbMax)

/-- `GRID` of the noise commands passes for channel `c`'s grid (60_exceptions.md R183). -/
def noiseGridLegal (r : Regs) (c : Ch) : Bool :=
  decide (r.lq c ≤ Config.lqMax) && decide (r.nqb c ≤ Config.nqbMax)

/-- The error of a check, if it fails. -/
def failing (e : CmdError) (passes : Bool) : Option CmdError := if passes then none else some e

/-- The first error of a list of checks in the order of 60_exceptions.md R185. -/
def firstError (checks : List (Option CmdError)) : Option CmdError := checks.findSome? id

end Sys2Proof.Machine
end

