-- ==== Sys2Proof/Machine/Ops.lean ====
section
/-! DEFINITION. The named operations: memory by bytes, words and rows; the end of a command, without error and with
one (the SBRQ's only "exception", 60_exceptions.md R184 to R189); issuing a command; the registers as the bus sees
them; soft reset; one host access. -/

namespace Sys2Proof.Machine

/-! ### Memory -/

/-- The byte at an address; one that is not listed reads `0x00`, the reset content (70_reset_and_hazards.md R200). -/
def Memory.readByte : Memory → Nat → Byte
  | [], _ => 0
  | c :: m, a => if c.1 = a then c.2 else Memory.readByte m a

/-- The canonical form: addresses strictly rising, no entry equal to what an unlisted address reads. -/
abbrev Memory.wf (m : Memory) : Prop := m.Pairwise (fun x y => x.1 < y.1) ∧ ∀ x ∈ m, x.2 ≠ 0

/-- The entries for consecutive bytes from address `a`. -/
def Memory.cells : Nat → List Byte → Memory
  | _, [] => []
  | a, b :: bs => if b = 0 then Memory.cells (a + 1) bs else (a, b) :: Memory.cells (a + 1) bs

/-- The entries below an address. -/
def Memory.below (m : Memory) (a : Nat) : Memory := m.filter fun c => decide (c.1 < a)

/-- The entries from an address on. -/
def Memory.above (m : Memory) (a : Nat) : Memory := m.filter fun c => decide (a ≤ c.1)

/-- Store consecutive bytes from address `a`. -/
def Memory.writeBytes (m : Memory) (a : Nat) (bs : List Byte) : Memory :=
  m.below a ++ Memory.cells a bs ++ m.above (a + bs.length)

/-- Set `n` bytes from address `a` to `0x00`. -/
def Memory.clear (m : Memory) (a n : Nat) : Memory := m.below a ++ m.above (a + n)

/-- The word of four bytes at an address, little-endian (20_memory.md R66). -/
def Memory.readWord (m : Memory) (a : Nat) : Word :=
  BitVec.ofNat 32 ((m.readByte a).toNat + 2 ^ 8 * (m.readByte (a + 1)).toNat + 2 ^ 16 * (m.readByte (a + 2)).toNat
    + 2 ^ 24 * (m.readByte (a + 3)).toNat)

/-- Byte `i` of a word, bits `[8i+7 : 8i]` (20_memory.md R66). -/
def byteOf (i : Nat) (w : Word) : Byte := BitVec.ofNat 8 (field (8 * i + 7) (8 * i) w)

/-- The bytes of a word, lowest address first (20_memory.md R66). -/
def wordBytes (w : Word) : List Byte := [byteOf 0 w, byteOf 1 w, byteOf 2 w, byteOf 3 w]

/-- `n` consecutive words from an address; only the entries of that range are searched. -/
def Memory.readWords (m : Memory) (a n : Nat) : List Word :=
  let near := (m.above a).below (a + 4 * n)
  (List.range n).map fun i => Memory.readWord near (a + 4 * i)

/-- `rows · n` consecutive words, read row by row. -/
def Memory.readBlock (m : Memory) (a rows n : Nat) : List Word :=
  (List.range rows).flatMap fun i => m.readWords (a + 4 * (n * i)) n

/-- Store consecutive words from an address. -/
def Memory.writeWords (m : Memory) (a : Nat) (ws : List Word) : Memory := m.writeBytes a (ws.flatMap wordBytes)

/-- A real element `M[c][s][k]` (10_state.md R41). -/
def Memory.real (m : Memory) (r : Ram) (c : Ch) (s k : Nat) : Word := m.readWord (r.addr c s k)

/-- A complex element `M[c][s][k]`, `.re` at the lower address (10_state.md R41). -/
def Memory.cplx (m : Memory) (r : Ram) (c : Ch) (s k : Nat) : Cplx :=
  ⟨m.readWord (r.addr c s k), m.readWord (r.addr c s k + 4)⟩

/-- `n` real elements of one slot, from band `k`. -/
def Memory.realRow (m : Memory) (r : Ram) (c : Ch) (s k n : Nat) : List Word := m.readWords (r.addr c s k) n

/-- The words of `n` complex elements of one slot, from band `k`: a copy moves them unchanged (00_scope.md R12). -/
def Memory.cplxWords (m : Memory) (r : Ram) (c : Ch) (s k n : Nat) : List Word := m.readWords (r.addr c s k) (2 * n)

/-- Complex elements from their words. -/
def pairUp : List Word → List Cplx
  | x :: y :: ws => ⟨x, y⟩ :: pairUp ws
  | _ => []

/-- The words of complex elements. -/
def unpair (zs : List Cplx) : List Word := zs.flatMap fun z => [z.re, z.im]

/-- `n` complex elements of one slot, from band `k`. -/
def Memory.cplxRow (m : Memory) (r : Ram) (c : Ch) (s k n : Nat) : List Cplx := pairUp (m.cplxWords r c s k n)

/-- Store words into one slot, from band `k`. -/
def Memory.setRow (m : Memory) (r : Ram) (c : Ch) (s k : Nat) (ws : List Word) : Memory :=
  m.writeWords (r.addr c s k) ws

/-- The words of `n` elements `(+0, +0)` (00_scope.md R8). -/
def zeroCplxWords (n : Nat) : List Word := List.replicate (2 * n) (0 : Word)

/-! ### The end of a command -/

/-- A command ends without error: its effect on the RAMs, `DONE` and `CMDCNT`, in one step with the end of the pending
command (10_state.md R55, 60_exceptions.md R186). -/
def State.endOk (s : State) (m : Memory) : State := { s with regs := s.regs.endOk, mem := m, pending := none }

/-- A command ends with an error: it writes nothing but `STATUS` (60_exceptions.md R184 to R186). This is all the SBRQ
has of an exception: no state is saved, no mode changes, there is no handler and no return (R189); the host's W1C write
clears the record (R184). -/
def State.endErr (s : State) (e : CmdError) : State := { s with regs := s.regs.endErr e, pending := none }

/-- A command as one atomic step: its checks first, then its effect on the RAMs (60_exceptions.md R185). -/
def State.command (s : State) (err : Option CmdError) (effect : Memory → Memory) :
    Host.Outcome State Fault Refusal :=
  match err with
  | some e => .next (s.endErr e)
  | none => .next (s.endOk (effect s.mem))

/-! ### The bus -/

/-- Make a command word pending: `CMD` holds it and `BUSY` becomes 1 (10_state.md R30, R55). -/
def State.issue (s : State) (w : Word) (wait : Nat) : State :=
  { s with
    regs := { s.regs with cmd := w, status := s.regs.status ||| busyMask }
    pending := some ⟨w, wait⟩ }

/-- Soft reset: every piece of state as after power-on, but `CRAM` keeps its contents (70_reset_and_hazards.md R201). The
accesses in flight are the host's, and go on (log 2). -/
def State.softReset (s : State) : State :=
  { s with regs := Regs.reset, mem := s.mem.filter fun c => inCram c.1, pending := none }

/-- What a read of a register offset below `0x1000` returns (10_state.md R26, R27, R38). -/
def State.readReg (s : State) (off : Nat) : Word :=
  match off with
  | 0x000 => Config.idValue
  | 0x004 => s.regs.ctrl
  | 0x008 => s.regs.status
  | 0x00C => s.regs.cmd
  | 0x010 => s.regs.cmdcnt
  | 0x014 => s.regs.cfg
  | 0x018 => s.regs.grid0
  | 0x01C => s.regs.grid1
  | 0x020 => s.regs.nbe0a
  | 0x024 => s.regs.nbe0b
  | 0x028 => s.regs.nbe1a
  | 0x02C => s.regs.nbe1b
  | 0x030 => s.regs.dqe
  | 0x034 => s.regs.dqn
  | 0x038 => s.regs.ssc64
  | 0x03C => s.regs.ssc32
  | _ => 0

/-- The writable bits of `CTRL` besides `SRST` (10_state.md R28). -/
def ctrlMask : Word := 0x00000006

/-- The writable bits of `CFG` (10_state.md R32). -/
def cfgMask : Word := 0x00000007

/-- The writable bits of `GRIDc` (10_state.md R33). -/
def gridMask : Word := 0x00001F37

/-- The writable bits of `NBEcB` (10_state.md R34). -/
def nbebMask : Word := 0x000000FF

/-- The writable bits of `DQN` (10_state.md R36). -/
def dqnMask : Word := 0xFFFF0FFF

/-- What a write to a register offset below `0x1000` does (10_state.md R26 to R38, 20_memory.md R69). -/
def State.writeReg (s : State) (off : Nat) (data : Word) : State :=
  match off with
  | 0x004 => if bit 0 data then s.softReset else { s with regs := { s.regs with ctrl := data &&& ctrlMask } }
  | 0x008 => { s with regs := { s.regs with status := statusAfterWrite data s.regs.status } }
  | 0x00C => s.issue data (Config.tCmd data)
  | 0x014 => { s with regs := { s.regs with cfg := data &&& cfgMask } }
  | 0x018 => { s with regs := { s.regs with grid0 := data &&& gridMask } }
  | 0x01C => { s with regs := { s.regs with grid1 := data &&& gridMask } }
  | 0x020 => { s with regs := { s.regs with nbe0a := data } }
  | 0x024 => { s with regs := { s.regs with nbe0b := data &&& nbebMask } }
  | 0x028 => { s with regs := { s.regs with nbe1a := data } }
  | 0x02C => { s with regs := { s.regs with nbe1b := data &&& nbebMask } }
  | 0x030 => { s with regs := { s.regs with dqe := data } }
  | 0x034 => { s with regs := { s.regs with dqn := data &&& dqnMask } }
  | 0x038 => { s with regs := { s.regs with ssc64 := data } }
  | 0x03C => { s with regs := { s.regs with ssc32 := data } }
  | _ => s

/-- An access the bus serves: one aligned 32-bit word at a mapped address (20_memory.md R61 to R64). -/
def accessLegal (addr size : Nat) : Bool :=
  decide (size = 4) && decide (addr % 4 = 0) && (decide (addr < regEnd) || mappedRam addr)

/-- One host access: the bus's answer and the state after it. A refused access changes nothing (20_memory.md R65); a
read changes nothing (R69). -/
def State.access (s : State) : Access → Response × State
  | .read addr size =>
    if accessLegal addr.toNat size then
      (.data (if addr.toNat < regEnd then s.readReg addr.toNat else s.mem.readWord addr.toNat), s)
    else (.busError, s)
  | .write addr size data =>
    if accessLegal addr.toNat size then
      (.done, if addr.toNat < regEnd then s.writeReg addr.toNat data
        else { s with mem := s.mem.writeWords addr.toNat [data] })
    else (.busError, s)

/-- Complete one access and report its answer to the host. -/
def State.complete (s : State) (a : Access) : State :=
  let r := s.access a
  { r.2 with resp := r.2.resp ++ [(a, r.1)] }

/-- A read of `STATUS`, the one access that is never held (20_memory.md R68). -/
def Access.isStatusRead : Access → Bool
  | .read addr size => decide (addr.toNat = 0x008) && decide (size = 4)
  | .write _ _ _ => false

/-- An access arrives while `BUSY = 1`: a `STATUS` read completes at once, any other is held (20_memory.md R68). -/
def State.arriveBusy (s : State) (a : Access) : State :=
  if a.isStatusRead then s.complete a else { s with held := s.held ++ [a] }

/-- A step in which the pending command stays pending: its wait shrinks, and one host access may arrive (log 1, 3). -/
def State.waitStep (s : State) (w : Word) (wait : Nat) : State :=
  let t := { s with pending := some ⟨w, wait⟩ }
  match t.host with
  | [] => t
  | a :: rest => { t with host := rest }.arriveBusy a

/-- A step with no command pending: the oldest held access completes, or else the next one the host has issued; with
neither, the SBRQ is idle and keeps all its state (20_memory.md R68, R70; 60_exceptions.md R199; log 3). -/
def State.idleStep (s : State) : State :=
  match s.held with
  | a :: rest => { s with held := rest }.complete a
  | [] =>
    match s.host with
    | a :: rest => { s with host := rest }.complete a
    | [] => s

end Sys2Proof.Machine
end

