-- ==== Sys2Proof/Machine/Dequant.lean ====
section
/-! DEFINITION. Envelope and noise-floor dequantization (40_dequant.md), for one channel and for a coupled pair. The
exponent is an exact integer in half-units (R100). -/

namespace Sys2Proof.Machine

/-- A power of an index: `POW2H(v·scale + 2·off)` (40_dequant.md R102, R105). -/
def deqPower (scale off : Int) (v : Word) : Word := pow2h (s32 v * scale + 2 * off)

/-- The balance power of a coupled pair: `POW2H((pan − v)·scale)` (40_dequant.md R108, R111). -/
def panPower (pan scale : Int) (v : Word) : Word := pow2h ((pan - s32 v) * scale)

/-- The first member of a coupled pair, `d1/(1+d2)`, rounded after the sum and after the quotient (40_dequant.md R109). -/
def pairFirst (d1 d2 : Word) : Word := div32 d1 (add32 oneF d2)

/-- The second member, the first times `d2`, rounded once more (40_dequant.md R109). -/
def pairSecond (d1 d2 : Word) : Word := mul32 (pairFirst d1 d2) d2

/-- Dequantize row `l` of a channel: `n` elements of `src` into `dst`. -/
def deqRow (src dst : Ram) (c : Ch) (scale off : Int) (l n : Nat) (m : Memory) : Memory :=
  m.setRow dst c l 0 ((m.realRow src c l 0 n).map (deqPower scale off))

/-- Dequantize row `l` of a coupled pair: levels from channel 0, balances from channel 1, the first members to channel 0
and the second to channel 1 (40_dequant.md R106, R108, R111). -/
def deqPairRow (src dst : Ram) (scale off pan panScale : Int) (l n : Nat) (m : Memory) : Memory :=
  let d1 := (m.realRow src 0 l 0 n).map (deqPower scale off)
  let d2 := (m.realRow src 1 l 0 n).map (panPower pan panScale)
  (m.setRow dst 0 l 0 (List.zipWith pairFirst d1 d2)).setRow dst 1 l 0 (List.zipWith pairSecond d1 d2)

/-- `DEQ_ENV` (40_dequant.md R102). -/
def execDeqEnv (c : Ch) (s : State) : Host.Outcome State Fault Refusal :=
  s.command (failing .grid (envGridLegal s.regs c)) fun m =>
    (List.range (s.regs.le c)).foldl
      (fun m l => deqRow .EQ .EO c (s.regs.ah c) s.regs.envOff l (s.regs.nb c l) m) m

/-- `DEQ_NOISE` (40_dequant.md R105). -/
def execDeqNoise (c : Ch) (s : State) : Host.Outcome State Fault Refusal :=
  s.command (failing .grid (noiseGridLegal s.regs c)) fun m =>
    (List.range (s.regs.lq c)).foldl
      (fun m l => deqRow .QQ .QO c s.regs.ns s.regs.noiseOff l (s.regs.nqb c) m) m

/-- `DEQ_ENV_CPL` (40_dequant.md R108): channel 0's grid for both channels, and each channel's own amplitude resolution
for its own index (R106, R107). -/
def execDeqEnvCpl (s : State) : Host.Outcome State Fault Refusal :=
  s.command (firstError [failing .config s.regs.cpl, failing .grid (envGridLegal s.regs 0)]) fun m =>
    (List.range (s.regs.le 0)).foldl
      (fun m l => deqPairRow .EQ .EO (s.regs.ah 0) s.regs.cplEoff s.regs.panE (s.regs.ah 1) l (s.regs.nb 0 l) m) m

/-- `DEQ_NOISE_CPL` (40_dequant.md R111). -/
def execDeqNoiseCpl (s : State) : Host.Outcome State Fault Refusal :=
  s.command (firstError [failing .config s.regs.cpl, failing .grid (noiseGridLegal s.regs 0)]) fun m =>
    (List.range (s.regs.lq 0)).foldl
      (fun m l => deqPairRow .QQ .QO s.regs.ns s.regs.cplNoff s.regs.panN 2 l (s.regs.nqb 0) m) m

end Sys2Proof.Machine
end

