-- ==== Sys2Proof/Machine/EnvAdjust.lean ====
section
/-! DEFINITION. The envelope-adjustment multipliers (41_env_adjust.md): `ENV_MUL` and `ENV_MAC` over a block of slots and
bands. No element is read after it is written, so the order cannot be observed (R119). -/

namespace Sys2Proof.Machine

/-- A gain on one complex element (41_env_adjust.md R120). -/
def scaleCplx (g : Word) (x : Cplx) : Cplx := ⟨mul32 g x.re, mul32 g x.im⟩

/-- The sum of two complex elements, each part rounded once (41_env_adjust.md R122). -/
def addCplx (x y : Cplx) : Cplx := ⟨add32 x.re y.re, add32 x.im y.im⟩

/-- Slot `j` of the block after `ENV_MUL`: `Y = G · XH` (41_env_adjust.md R120). -/
def mulRow (c : Ch) (j m0 nm : Nat) (m : Memory) : List Word :=
  unpair (List.zipWith scaleCplx (m.realRow .G c j m0 nm) (m.cplxRow .XH c j m0 nm))

/-- Slot `j` of the block after `ENV_MAC`: `Y = Y + A · Z`, rounded after the product and after the sum
(41_env_adjust.md R122). -/
def macRow (c : Ch) (j m0 nm : Nat) (m : Memory) : List Word :=
  unpair (List.zipWith addCplx (m.cplxRow .Y c j m0 nm)
    (List.zipWith scaleCplx (m.realRow .A c j m0 nm) (m.cplxRow .Z c j m0 nm)))

/-- Apply a row function to slots `j0 .. j0+nj-1` of `Y` (41_env_adjust.md R119). -/
def overSlots (c : Ch) (j0 nj m0 : Nat) (row : Nat → Memory → List Word) (m : Memory) : Memory :=
  (List.range nj).foldl (fun m i => m.setRow .Y c (j0 + i) m0 (row (j0 + i) m)) m

/-- `ENV_MUL` (41_env_adjust.md R120). -/
def execEnvMul (c : Ch) (j0 nj m0 nm : Nat) (s : State) : Host.Outcome State Fault Refusal :=
  s.command (failing .range (blockInRange j0 nj m0 nm)) (overSlots c j0 nj m0 fun j m => mulRow c j m0 nm m)

/-- `ENV_MAC` (41_env_adjust.md R122). -/
def execEnvMac (c : Ch) (j0 nj m0 nm : Nat) (s : State) : Host.Outcome State Fault Refusal :=
  s.command (failing .range (blockInRange j0 nj m0 nm)) (overSlots c j0 nj m0 fun j m => macRow c j m0 nm m)

end Sys2Proof.Machine
end

