-- ==== Sys2Proof/Machine/Pipeline.lean ====
section
/-! DEFINITION. The commands of 42_pipeline.md: `NOP`, `RESET_CH`, `SHIFT_LOW`, `SPLICE_X`, `SAVE_PREV`. A copy moves words
unchanged (00_scope.md R12). Rows are copied whole: no element of a row is read after it is written (log 9). -/

namespace Sys2Proof.Machine

/-- `NOP` (42_pipeline.md R130). -/
def execNop (s : State) : Host.Outcome State Fault Refusal := s.command none id

/-- The group of RAMs that bit `b` of `MASK` clears (42_pipeline.md R131). -/
def resetGroup (b : Nat) : List Ram :=
  match b with
  | 0 => [.ADL]
  | 1 => [.SDL]
  | 2 => [.W, .WP]
  | 3 => [.Y, .YP]
  | 4 => [.X]
  | 5 => [.XH, .G, .A, .Z]
  | 6 => [.EQ, .EO, .QQ, .QO]
  | 7 => [.IN, .OUT]
  | _ => []

/-- Set every word of some RAMs of a channel to `0x00000000`. -/
def clearRams (c : Ch) (rs : List Ram) (m : Memory) : Memory := rs.foldl (fun m r => m.clear (r.base c) r.bytes) m

/-- The RAMs that `RESET_CH` clears: the groups of the bits of `MASK` that are 1 (42_pipeline.md R132). -/
def resetRams (mask : Nat) : List Ram := (List.range 8).flatMap fun b => if mask.testBit b then resetGroup b else []

/-- `RESET_CH` (42_pipeline.md R132). -/
def execResetCh (c : Ch) (mask : Nat) (s : State) : Host.Outcome State Fault Refusal :=
  s.command none (clearRams c (resetRams mask))

/-- Move the saved analysis tail into the lookback slots of `W` (42_pipeline.md R134). -/
def shiftLow (c : Ch) (m : Memory) : Memory :=
  (List.range Config.tHfgen).foldl (fun m t => m.setRow .W c t 0 (m.cplxWords .WP c t 0 Config.ka)) m

/-- `SHIFT_LOW` (42_pipeline.md R134). -/
def execShiftLow (c : Ch) (s : State) : Host.Outcome State Fault Refusal := s.command none (shiftLow c)

/-- Restore the previous frame's overhang into the first `40 - NTSR` slots of `Y` (42_pipeline.md R136). -/
def restoreY (c : Ch) (n : Nat) (m : Memory) : Memory :=
  (List.range (Config.ysl - n)).foldl (fun m j => m.setRow .Y c j 0 (m.cplxWords .YP c j 0 Config.ks)) m

/-- Slot `l` of `X`: bands below `KX` from `W`, the next `MB` from `Y`, the rest `(+0, +0)` (42_pipeline.md R136). -/
def spliceRow (c : Ch) (kx mb l : Nat) (m : Memory) : List Word :=
  m.cplxWords .W c (l + Config.tHfadj) 0 kx ++ m.cplxWords .Y c (l + Config.tHfadj) kx mb
    ++ zeroCplxWords (Config.ks - kx - mb)

/-- Build the first `n` slots of `X` (42_pipeline.md R136). -/
def buildX (c : Ch) (kx mb n : Nat) (m : Memory) : Memory :=
  (List.range n).foldl (fun m l => m.setRow .X c l 0 (spliceRow c kx mb l m)) m

/-- `SPLICE_X` (42_pipeline.md R136). -/
def execSpliceX (c : Ch) (kx mb : Nat) (r : Bool) (s : State) : Host.Outcome State Fault Refusal :=
  s.command (failing .range (spliceInRange kx mb)) fun m =>
    buildX c kx mb s.regs.ntsr (if r then restoreY c s.regs.ntsr m else m)

/-- Snapshot the last `T_HFGEN` analysis slots of `W` into `WP` (42_pipeline.md R138). -/
def saveW (c : Ch) (n : Nat) (m : Memory) : Memory :=
  (List.range Config.tHfgen).foldl (fun m t => m.setRow .WP c t 0 (m.cplxWords .W c (n + t) 0 Config.ka)) m

/-- Snapshot the overhang of `Y` into `YP`; the slots of `YP` past it become `(+0, +0)` (42_pipeline.md R138). -/
def saveY (c : Ch) (n : Nat) (m : Memory) : Memory :=
  (List.range Config.ypsl).foldl
    (fun m j => m.setRow .YP c j 0
      (if j < Config.ysl - n then m.cplxWords .Y c (n + j) 0 Config.ks else zeroCplxWords Config.ks)) m

/-- `SAVE_PREV` (42_pipeline.md R138). -/
def execSavePrev (c : Ch) (s : State) : Host.Outcome State Fault Refusal :=
  s.command none fun m => saveY c s.regs.ntsr (saveW c s.regs.ntsr m)

end Sys2Proof.Machine
end

