-- ==== Sys2Proof/Machine/Twiddle.lean ====
section
/-! DEFINITION. The twiddle ROMs (43_qmf.md R156, 00_scope.md R16): correctly rounded cosines and sines. Every angle
of R156 is a multiple of `π/256`, so each ROM is read out of one quarter wave of the sine. The ROMs are constants, not
state (10_state.md R57). -/

namespace Sys2Proof.Machine

/-- `RNE32(sin(π·i/256))` for `i = 0 .. 128`, sixteen to a row. Computed outside Lean to 80 decimal digits (log 8);
no entry but the two exact ones lies within `10^-4` of a rounding boundary, in units of its last place. -/
def sineRows : List (List Word) :=
  [[0x00000000, 0x3C490E90, 0x3CC90AB0, 0x3D16C32C, 0x3D48FB30, 0x3D7B2B74, 0x3D96A905, 0x3DAFB680,
    0x3DC8BD36, 0x3DE1BC2E, 0x3DFAB273, 0x3E09CF86, 0x3E164083, 0x3E22ABB6, 0x3E2F10A2, 0x3E3B6ECF]] ++
  [[0x3E47C5C2, 0x3E541501, 0x3E605C13, 0x3E6C9A7F, 0x3E78CFCC, 0x3E827DC0, 0x3E888E93, 0x3E8E9A22,
    0x3E94A031, 0x3E9AA086, 0x3EA09AE5, 0x3EA68F12, 0x3EAC7CD4, 0x3EB263EF, 0x3EB8442A, 0x3EBE1D4A]] ++
  [[0x3EC3EF15, 0x3EC9B953, 0x3ECF7BCA, 0x3ED53641, 0x3EDAE880, 0x3EE0924F, 0x3EE63375, 0x3EEBCBBB,
    0x3EF15AEA, 0x3EF6E0CB, 0x3EFC5D27, 0x3F00E7E4, 0x3F039C3D, 0x3F064B82, 0x3F08F59B, 0x3F0B9A6B]] ++
  [[0x3F0E39DA, 0x3F10D3CD, 0x3F13682A, 0x3F15F6D9, 0x3F187FC0, 0x3F1B02C6, 0x3F1D7FD1, 0x3F1FF6CB,
    0x3F226799, 0x3F24D225, 0x3F273656, 0x3F299415, 0x3F2BEB4A, 0x3F2E3BDE, 0x3F3085BB, 0x3F32C8C9]] ++
  [[0x3F3504F3, 0x3F373A23, 0x3F396842, 0x3F3B8F3B, 0x3F3DAEF9, 0x3F3FC767, 0x3F41D870, 0x3F43E200,
    0x3F45E403, 0x3F47DE65, 0x3F49D112, 0x3F4BBBF8, 0x3F4D9F02, 0x3F4F7A1F, 0x3F514D3D, 0x3F531849]] ++
  [[0x3F54DB31, 0x3F5695E5, 0x3F584853, 0x3F59F26A, 0x3F5B941A, 0x3F5D2D53, 0x3F5EBE05, 0x3F604621,
    0x3F61C598, 0x3F633C5A, 0x3F64AA59, 0x3F660F88, 0x3F676BD8, 0x3F68BF3C, 0x3F6A09A7, 0x3F6B4B0C]] ++
  [[0x3F6C835E, 0x3F6DB293, 0x3F6ED89E, 0x3F6FF573, 0x3F710908, 0x3F721352, 0x3F731447, 0x3F740BDD,
    0x3F74FA0B, 0x3F75DEC6, 0x3F76BA07, 0x3F778BC5, 0x3F7853F8, 0x3F791298, 0x3F79C79D, 0x3F7A7302]] ++
  [[0x3F7B14BE, 0x3F7BACCD, 0x3F7C3B28, 0x3F7CBFC9, 0x3F7D3AAC, 0x3F7DABCC, 0x3F7E1324, 0x3F7E70B0,
    0x3F7EC46D, 0x3F7F0E58, 0x3F7F4E6D, 0x3F7F84AB, 0x3F7FB10F, 0x3F7FD397, 0x3F7FEC43, 0x3F7FFB11]] ++
  [[0x3F800000]]

/-- `RNE32(sin(π·i/256))`, `i ≤ 128`. -/
def quarterSine (i : Nat) : Word := (sineRows.getD (i / 16) []).getD (i % 16) 0

/-- `TRIG32(sin, π·r/256)` for `r < 512`, by the symmetries of the sine, each of which is exact in binary32. -/
def sineOf (r : Nat) : Word :=
  if r ≤ 128 then quarterSine r
  else if r ≤ 256 then quarterSine (256 - r)
  else if r ≤ 384 then neg32 (quarterSine (r - 256))
  else neg32 (quarterSine (512 - r))

/-- `TRIG32(sin, π·a/256)` (00_scope.md R16). -/
def sin256 (a : Int) : Word := sineOf (a % 512).toNat

/-- `TRIG32(cos, π·a/256)`, the sine a quarter turn later (00_scope.md R16). -/
def cos256 (a : Int) : Word := sin256 (a + 128)

/-- `π/64·(k + 0.5)·(2n − 0.5)` in units of `π/256` (43_qmf.md R156). -/
def angleA (k n : Nat) : Int := (2 * k + 1) * (4 * n - 1)

/-- `π/128·(k + 0.5)·(2n − 255)` in units of `π/256` (43_qmf.md R156). -/
def angleS64 (k n : Nat) : Int := (2 * k + 1) * (2 * n - 255)

/-- `π/64·(k + 0.5)·(2n − 127)` in units of `π/256` (43_qmf.md R156). -/
def angleS32 (k n : Nat) : Int := 2 * ((2 * k + 1) * (2 * n - 127))

/-- `TAc[k][n] = RNE32(2·cos …) = 2·TRIG32(cos, …)`, the doubling being exact (43_qmf.md R156). -/
def tac (k n : Nat) : Word := mul32 twoF (cos256 (angleA k n))

/-- `TAs[k][n] = RNE32(2·sin …)` (43_qmf.md R156). -/
def tas (k n : Nat) : Word := mul32 twoF (sin256 (angleA k n))

/-- `TSc64[k][n]` (43_qmf.md R156). -/
def tsc64 (k n : Nat) : Word := cos256 (angleS64 k n)

/-- `TSs64[k][n]` (43_qmf.md R156). -/
def tss64 (k n : Nat) : Word := sin256 (angleS64 k n)

/-- `TSc32[k][n]` (43_qmf.md R156). -/
def tsc32 (k n : Nat) : Word := cos256 (angleS32 k n)

/-- `TSs32[k][n]` (43_qmf.md R156). -/
def tss32 (k n : Nat) : Word := sin256 (angleS32 k n)

end Sys2Proof.Machine
end

