-- ==== Sys2Proof/Machine/Qmf.lean ====
section
/-! DEFINITION. The QMF filterbanks (43_qmf.md): `QMF_ANA` and `QMF_SYN`. Every sum is a left fold in the order the rules
state (00_scope.md R14); moving a word in a delay line is a copy (43_qmf.md R152). -/

namespace Sys2Proof.Machine

/-- `CRAM[0..639]`, the prototype window `C` (10_state.md R39, 43_qmf.md R157). -/
def window (m : Memory) : List Word := m.readBlock cramBase 10 64

/-- The elements with an even index. -/
def evens : List Word → List Word
  | x :: _ :: xs => x :: evens xs
  | xs => xs

/-- `k` rows of `n` elements each. -/
def rowsOf (n k : Nat) (ws : List Word) : List (List Word) := (List.range k).map fun i => (ws.drop (n * i)).take n

/-- The analysis delay line after slot `l` has shifted 32 samples in, the newest first (43_qmf.md R158). -/
def anaDelay (c : Ch) (l : Nat) (m : Memory) : List Word :=
  (m.realRow .IN c 0 (32 * l) 32).reverse ++ (m.readBlock (Ram.addr .ADL c 0 0) 10 32).take 288

/-- The folded values `u[0..63]` of a delay line under a window of 320 coefficients (43_qmf.md R158). -/
def anaFold (x coef : List Word) : List Word := sumRows (rowsOf 64 5 (List.zipWith mul32 x coef))

/-- `SUM32` of the products of `u` with one row of a twiddle ROM (43_qmf.md R158). -/
def modulate (u : List Word) (rom : Nat → Word) : Word :=
  sum32 (List.zipWith mul32 u ((List.range 64).map rom))

/-- Band `k` of an analysis column: computed below `KLIM`, `(+0, +0)` from there on (43_qmf.md R158, R159). -/
def anaBand (u : List Word) (klim k : Nat) : Cplx :=
  if k < klim then ⟨modulate u (tac k), modulate u (tas k)⟩ else ⟨0, 0⟩

/-- One analysis slot (43_qmf.md R158). -/
def anaSlot (c : Ch) (klim l : Nat) (m : Memory) : Memory :=
  let x := anaDelay c l m
  let u := anaFold x (evens (window m))
  (m.setRow .ADL c 0 0 x).setRow .W c (Config.tHfgen + l) 0
    (unpair ((List.range Config.ka).map (anaBand u klim)))

/-- The analysis bank over slots `l0 .. l0+nl-1`, in increasing order (43_qmf.md R158). -/
def anaSlots (c : Ch) (klim l0 nl : Nat) (m : Memory) : Memory :=
  (List.range nl).foldl (fun m i => anaSlot c klim (l0 + i) m) m

/-- `QMF_ANA` (43_qmf.md R158). -/
def execQmfAna (c : Ch) (klim l0 nl : Nat) (s : State) : Host.Outcome State Fault Refusal :=
  s.command (failing .range (anaInRange s.regs klim l0 nl)) (anaSlots c klim l0 nl)

/-- The terms of a synthesis sum, for each band the real-part term and then the imaginary-part term
(43_qmf.md R160, R163). -/
def synTerms (xs : List Cplx) (tc ts : Nat → Word) : List Word :=
  xs.zipIdx.flatMap fun p => [mul32 p.1.re (tc p.2), neg32 (mul32 p.1.im (ts p.2))]

/-- New value `n` of the synthesis delay line: the modulation sum times the scale register (43_qmf.md R160, R163). -/
def synValue (xs : List Cplx) (tc ts : Nat → Nat → Word) (ssc : Word) (n : Nat) : Word :=
  mul32 (sum32 (synTerms xs (fun k => tc k n) (fun k => ts k n))) ssc

/-- The gather of a `b`-band bank: `g[2b·i + j] = v[4b·i + j]` and `g[2b·i + b + j] = v[4b·i + 3b + j]`
(43_qmf.md R160 with `b = 64`, R163 with `b = 32`). -/
def synGather (b : Nat) (v : List Word) : List Word :=
  (List.range 5).flatMap fun i => (v.drop (4 * b * i)).take b ++ (v.drop (4 * b * i + 3 * b)).take b

/-- The `b` output samples of a delay line under a window: the windowed gather, overlap-added in ten terms
(43_qmf.md R160, R163). -/
def synOut (b : Nat) (v coef : List Word) : List Word :=
  sumRows (rowsOf b 10 (List.zipWith mul32 (synGather b v) coef))

/-- One slot of a `b`-band synthesis bank with its ROMs, scale and window: the delay line of `20b` words shifts by `2b`
(43_qmf.md R160, R163). -/
def synSlot (b : Nat) (tc ts : Nat → Nat → Word) (ssc : Word) (coef : List Word) (c : Ch) (l : Nat) (m : Memory) :
    Memory :=
  let xs := m.cplxRow .X c l 0 b
  let v := (List.range (2 * b)).map (synValue xs tc ts ssc) ++ (m.readBlock (Ram.addr .SDL c 0 0) 20 b).take (18 * b)
  (m.setRow .SDL c 0 0 v).setRow .OUT c 0 (b * l) (synOut b v coef)

/-- `SYN64_SLOT` (43_qmf.md R160). -/
def syn64Slot (r : Regs) (c : Ch) (l : Nat) (m : Memory) : Memory :=
  synSlot 64 tsc64 tss64 r.ssc64 (window m) c l m

/-- `SYN32_SLOT` (43_qmf.md R163). -/
def syn32Slot (r : Regs) (c : Ch) (l : Nat) (m : Memory) : Memory :=
  synSlot 32 tsc32 tss32 r.ssc32 (evens (window m)) c l m

/-- The synthesis bank over slots `l0 .. l0+nl-1`; `CFG.DS` selects the bank for the whole command
(43_qmf.md R161, R162). -/
def synSlots (r : Regs) (c : Ch) (l0 nl : Nat) (m : Memory) : Memory :=
  (List.range nl).foldl
    (fun m i => if r.ds then syn32Slot r c (l0 + i) m else syn64Slot r c (l0 + i) m) m

/-- `QMF_SYN` (43_qmf.md R161). -/
def execQmfSyn (c : Ch) (l0 nl : Nat) (s : State) : Host.Outcome State Fault Refusal :=
  s.command (failing .range (synInRange s.regs l0 nl)) (synSlots s.regs c l0 nl)

end Sys2Proof.Machine
end

