-- ==== Sys2Proof/Machine/Dispatch.lean ====
section
/-! DEFINITION. One meaning per command (30_encoding.md R85). -/

namespace Sys2Proof.Machine

/-- The meaning of a command, as one atomic step (10_state.md R55). -/
def exec (i : Instr) (s : State) : Host.Outcome State Fault Refusal :=
  match i with
  | .nop => Sys2Proof.Machine.execNop s
  | .resetCh c mask => Sys2Proof.Machine.execResetCh c mask s
  | .shiftLow c => Sys2Proof.Machine.execShiftLow c s
  | .qmfAna c klim l0 nl => Sys2Proof.Machine.execQmfAna c klim l0 nl s
  | .spliceX c kx mb r => Sys2Proof.Machine.execSpliceX c kx mb r s
  | .envMul c j0 nj m0 nm => Sys2Proof.Machine.execEnvMul c j0 nj m0 nm s
  | .envMac c j0 nj m0 nm => Sys2Proof.Machine.execEnvMac c j0 nj m0 nm s
  | .qmfSyn c l0 nl => Sys2Proof.Machine.execQmfSyn c l0 nl s
  | .savePrev c => Sys2Proof.Machine.execSavePrev c s
  | .deqEnv c => Sys2Proof.Machine.execDeqEnv c s
  | .deqNoise c => Sys2Proof.Machine.execDeqNoise c s
  | .deqEnvCpl => Sys2Proof.Machine.execDeqEnvCpl s
  | .deqNoiseCpl => Sys2Proof.Machine.execDeqNoiseCpl s

end Sys2Proof.Machine
end

