-- ==== Sys2Proof/Machine/Execute.lean ====
section
/-! DEFINITION. Executing the pending command word: it is decoded when it executes (30_encoding.md R80, 20_memory.md R73). -/

namespace Sys2Proof.Machine

/-- Execute a command word: an illegal opcode or a reserved bit ends it with that error (60_exceptions.md R181, R182),
else its meaning runs. -/
def runWord (w : Word) (s : State) : Host.Outcome State Fault Refusal :=
  match decode w with
  | .error e => .next (s.endErr e)
  | .ok i => exec i s

/-- The command word of a table row of `nbits` bits. -/
def tableWord (nbits w : Nat) : Word := BitVec.ofNat 32 (w % 2 ^ nbits)

end Sys2Proof.Machine
end

