-- ==== Sys2Proof/Machine/Step.lean ====
section
/-! DEFINITION. One step of the machine: the pending command executes, or waits while the host's accesses arrive, or, with
no command pending, one host access completes (10_state.md R55, 20_memory.md R68, R70). -/

namespace Sys2Proof.Machine

/-- One step (10_state.md R55; which agent moves is data in the state, log 1 and 3). -/
def step (s : State) : Host.Outcome State Fault Refusal :=
  match s.pending with
  | some ⟨w, 0⟩ => runWord w s
  | some ⟨w, k + 1⟩ => .next (s.waitStep w k)
  | none => .next s.idleStep

/-- The state in which the host has written this word to `CMD` and its `T_CMD` has passed, so that the next step
executes it (log 4). -/
def State.withFetchWord (s : State) (nbits w : Nat) : State := s.issue (tableWord nbits w) 0

end Sys2Proof.Machine
end

