-- ==== Sys2Proof/Machine/Asm.lean ====
section
/-! DEFINITION. The assembler's view of a command and the host directives (30_encoding.md R89 to R91), and the frame
sequence a host issues (42_pipeline.md R140). No step of the machine uses them. -/

namespace Sys2Proof.Machine

/-- The mnemonic in assembly syntax (30_encoding.md R89). -/
def asmName : Opcode → String
  | .nop => "nop"
  | .resetCh => "reset.ch"
  | .shiftLow => "shift.low"
  | .qmfAna => "qmf.ana"
  | .spliceX => "splice.x"
  | .envMul => "env.mul"
  | .envMac => "env.mac"
  | .qmfSyn => "qmf.syn"
  | .savePrev => "save.prev"
  | .deqEnv => "deq.env"
  | .deqNoise => "deq.noise"
  | .deqEnvCpl => "deq.env.cpl"
  | .deqNoiseCpl => "deq.noise.cpl"

/-- The channel operand, `c0` or `c1` (30_encoding.md R89). -/
def asmChannel (c : Ch) : String := if c = 0 then "c0" else "c1"

/-- The operands in field order, numbers in decimal (30_encoding.md R89). -/
def asmOperands : Instr → List String
  | .nop => []
  | .resetCh c mask => [asmChannel c, toString mask]
  | .shiftLow c => [asmChannel c]
  | .qmfAna c klim l0 nl => [asmChannel c, toString klim, toString l0, toString nl]
  | .spliceX c kx mb r => [asmChannel c, toString kx, toString mb, toString r.toNat]
  | .envMul c j0 nj m0 nm => [asmChannel c, toString j0, toString nj, toString m0, toString nm]
  | .envMac c j0 nj m0 nm => [asmChannel c, toString j0, toString nj, toString m0, toString nm]
  | .qmfSyn c l0 nl => [asmChannel c, toString l0, toString nl]
  | .savePrev c => [asmChannel c]
  | .deqEnv c => [asmChannel c]
  | .deqNoise c => [asmChannel c]
  | .deqEnvCpl => []
  | .deqNoiseCpl => []

/-- A command in assembly syntax (30_encoding.md R89). -/
def asmText (i : Instr) : String :=
  match asmOperands i with
  | [] => asmName i.opcode
  | ops => asmName i.opcode ++ " " ++ ", ".intercalate ops

/-- Assemble a command: an operand that does not fit its field is refused; one that fits but is out of range is not
(30_encoding.md R89). -/
def assemble (i : Instr) : Option Word := if i.wf then some (encode i) else none

/-- The pseudo-instructions (30_encoding.md R90). -/
inductive Pseudo where
  | resetAll (c : Ch)
  | qmfAnaFrame (c : Ch) (klim : Nat)
  | qmfSynFrame (c : Ch)
  | spliceXRestore (c : Ch) (kx mb : Nat)
  | spliceXAgain (c : Ch) (kx mb : Nat)
  | deqCpl
  | deqCh (c : Ch)
  deriving DecidableEq, Repr

/-- The assembler's frame length, `.smallframe 0` or `.smallframe 1` (30_encoding.md R90). -/
def asmNtsr (smallframe : Bool) : Nat := if smallframe then 30 else 32

/-- The expansion of a pseudo-instruction (30_encoding.md R90). -/
def expandPseudo (smallframe : Bool) : Pseudo → List Instr
  | .resetAll c => [.resetCh c 0xFF]
  | .qmfAnaFrame c klim => [.qmfAna c klim 0 (asmNtsr smallframe)]
  | .qmfSynFrame c => [.qmfSyn c 0 (asmNtsr smallframe)]
  | .spliceXRestore c kx mb => [.spliceX c kx mb true]
  | .spliceXAgain c kx mb => [.spliceX c kx mb false]
  | .deqCpl => [.deqEnvCpl, .deqNoiseCpl]
  | .deqCh c => [.deqEnv c, .deqNoise c]

/-- `wr ADDR, VALUE` (30_encoding.md R91). -/
def hostWr (addr : BitVec 20) (value : Word) : Access := .write addr 4 value

/-- `rd ADDR` (30_encoding.md R91). -/
def hostRd (addr : BitVec 20) : Access := .read addr 4

/-- `cmd <command>`: a write of the encoded command to `CMD` (30_encoding.md R91). -/
def hostCmd (i : Instr) : Access := hostWr 0x0000C (encode i)

/-- One poll of `wait`, which reads `STATUS` until `BUSY = 0` (30_encoding.md R91). -/
def hostPoll : Access := hostRd 0x00008

/-- `ram.f32` and `ram.i32`: host writes of consecutive RAM words from an address (30_encoding.md R91). -/
def hostRam (addr : Nat) (ws : List Word) : List Access :=
  ws.zipIdx.map fun p => hostWr (BitVec.ofNat 20 (addr + 4 * p.2)) p.1

/-- The commands of one frame of a channel with one `ENV_MAC` pass, in the order of 42_pipeline.md R140; the host's own
actions (steps 0, 3 and the gains of 4b) stand between them. -/
def frameCommands (smallframe : Bool) (c : Ch) (kx mb j0 nj : Nat) : List Instr :=
  [.shiftLow c, .qmfAna c kx 0 (asmNtsr smallframe), .spliceX c kx mb true, .envMul c j0 nj kx mb,
    .envMac c j0 nj kx mb, .spliceX c kx mb false, .qmfSyn c 0 (asmNtsr smallframe), .savePrev c]

end Sys2Proof.Machine
end

