-- ==== Sys2Proof/Safety.lean ====
section
/-! DEFINITION. The terms in which claims speak of a run: the invariant of the machine, how a command ends, which errors a
command word meets, which RAMs each command may write, which addresses exist, and the value of a binary32 word with the
rounding of 00_scope.md R10. Each is written from the spec's tables, apart from the definitions of Machine/. -/

namespace Sys2Proof.Machine

/-! ### The invariant -/

/-- What holds in every state a run can reach: memory is canonical and lists only RAM bytes; reserved bits are 0
(10_state.md R38); `BUSY` says whether a command is pending, and `CMD` holds its word (R30, R55); `ERRCODE` is 0 while
`ERR = 0` (R29) and a code of 60_exceptions.md R180 while `ERR = 1`; no `STATUS` read is held (20_memory.md R68). -/
structure State.Inv (s : State) : Prop where
  memWf : s.mem.wf
  memMapped : ∀ x ∈ s.mem, mappedRam x.1 = true
  ctrlReserved : s.regs.ctrl &&& 0xFFFFFFF9 = 0
  statusReserved : s.regs.status &&& 0xFFFFF0F8 = 0
  cfgReserved : s.regs.cfg &&& 0xFFFFFFF8 = 0
  grid0Reserved : s.regs.grid0 &&& 0xFFFFE0C8 = 0
  grid1Reserved : s.regs.grid1 &&& 0xFFFFE0C8 = 0
  nbe0bReserved : s.regs.nbe0b &&& 0xFFFFFF00 = 0
  nbe1bReserved : s.regs.nbe1b &&& 0xFFFFFF00 = 0
  dqnReserved : s.regs.dqn &&& 0x0000F000 = 0
  busyPending : bit 0 s.regs.status = s.pending.isSome
  cmdPending : ∀ p, s.pending = some p → p.word = s.regs.cmd
  noErrNoCode : bit 2 s.regs.status = false → field 11 8 s.regs.status = 0
  errCodeLegal : bit 2 s.regs.status = true → 1 ≤ field 11 8 s.regs.status ∧ field 11 8 s.regs.status ≤ 5
  heldNoStatusRead : ∀ a ∈ s.held, a.isStatusRead = false

/-! ### How a command ends -/

/-- The command ended without error (60_exceptions.md R186): `BUSY` 0, `DONE` 1, `CMDCNT` one up, every other bit of
`STATUS` and every other register as before, nothing pending, the host's accesses as before. It says nothing of memory. -/
def EndedOk (s t : State) : Prop :=
  t.regs = { s.regs with status := (s.regs.status &&& 0xFFFFFFFE) ||| 0x00000002, cmdcnt := s.regs.cmdcnt + 1 } ∧
  t.pending = none ∧ t.held = s.held ∧ t.host = s.host ∧ t.resp = s.resp

/-- `STATUS` after a command error with code `code` (60_exceptions.md R184, R186). -/
def statusWithError (code : Nat) (st : Word) : Word :=
  if bit 2 st then st &&& 0xFFFFFFFE else (st &&& 0xFFFFF0FE) ||| 0x00000004 ||| BitVec.ofNat 32 (code * 256)

/-- The state after a command error: nothing changed but `STATUS` and the end of the pending command (60_exceptions.md
R185, R186). -/
def endedErr (code : Nat) (s : State) : State :=
  { s with regs := { s.regs with status := statusWithError code s.regs.status }, pending := none }

/-- The bytes outside `P` read as before. -/
def SameOutside (P : Nat → Prop) (s t : State) : Prop := ∀ a, ¬P a → t.mem.readByte a = s.mem.readByte a

/-- Byte `a` lies in the `n` elements of `M[c][i]` from band `k` (10_state.md R41). -/
def InRow (r : Ram) (c : Ch) (i k n : Nat) (a : Nat) : Prop := r.addr c i k ≤ a ∧ a < r.addr c i k + 4 * (r.parts * n)

/-! ### The error table -/

/-- `NB[c][l] > 64` for no `l < LE`, and `LE ≤ 5` (60_exceptions.md R183, the row of `DEQ_ENV`). -/
def EnvGridLegal (r : Regs) (c : Ch) : Prop := r.le c ≤ 5 ∧ ∀ l < r.le c, r.nb c l ≤ 64

/-- `LQ ≤ 2` and `NQB ≤ 8` (60_exceptions.md R183, the row of `DEQ_NOISE`). -/
def NoiseGridLegal (r : Regs) (c : Ch) : Prop := r.lq c ≤ 2 ∧ r.nqb c ≤ 8

/-- The word's `OP` field is an opcode (30_encoding.md R86: illegal are `0x09`–`0x0F` and `0x14`–`0x3F`). -/
def LegalOp (w : Word) : Prop :=
  ¬(0x09 ≤ field 31 26 w ∧ field 31 26 w ≤ 0x0F) ∧ ¬(0x14 ≤ field 31 26 w ∧ field 31 26 w ≤ 0x3F)

/-- A reserved bit of the word is 1 (60_exceptions.md R182, one line of its list each). -/
def HasReservedBit (w : Word) : Prop :=
  ((field 31 26 w = 0x00 ∨ field 31 26 w = 0x12 ∨ field 31 26 w = 0x13) ∧ field 25 0 w ≠ 0) ∨
  ((field 31 26 w = 0x02 ∨ field 31 26 w = 0x08 ∨ field 31 26 w = 0x10 ∨ field 31 26 w = 0x11) ∧ field 24 0 w ≠ 0) ∨
  (field 31 26 w = 0x01 ∧ (field 24 24 w ≠ 0 ∨ field 23 8 w ≠ 0)) ∨
  (field 31 26 w = 0x03 ∧ field 24 24 w ≠ 0) ∨
  (field 31 26 w = 0x07 ∧ (field 24 24 w ≠ 0 ∨ field 23 16 w ≠ 0)) ∨
  (field 31 26 w = 0x04 ∧ (field 24 24 w ≠ 0 ∨ field 7 1 w ≠ 0))

/-- The coupled command of the word is issued while `CFG.CPL = 0` (60_exceptions.md R183, column `CONFIG`). -/
def HasConfigError (w : Word) (r : Regs) : Prop :=
  (field 31 26 w = 0x12 ∨ field 31 26 w = 0x13) ∧ bit 2 r.cfg = false

/-- `NTSR` as 00_scope.md R5 gives it. -/
def frameSlots (r : Regs) : Nat := if bit 0 r.cfg then 30 else 32

/-- An operand field is out of range (60_exceptions.md R183, column `RANGE`). -/
def HasRangeError (w : Word) (r : Regs) : Prop :=
  (field 31 26 w = 0x03 ∧ (32 < field 23 16 w ∨ frameSlots r < field 15 8 w + field 7 0 w)) ∨
  (field 31 26 w = 0x07 ∧ frameSlots r < field 15 8 w + field 7 0 w) ∨
  (field 31 26 w = 0x04 ∧ (32 < field 23 16 w ∨ 64 < field 23 16 w + field 15 8 w)) ∨
  ((field 31 26 w = 0x05 ∨ field 31 26 w = 0x06) ∧
    (40 < field 24 19 w + field 18 13 w ∨ 64 < field 12 7 w + field 6 0 w))

/-- A grid count is illegal (60_exceptions.md R183, column `GRID`). -/
def HasGridError (w : Word) (r : Regs) : Prop :=
  (field 31 26 w = 0x10 ∧ field 25 25 w = 0 ∧ ¬EnvGridLegal r 0) ∨
  (field 31 26 w = 0x10 ∧ field 25 25 w = 1 ∧ ¬EnvGridLegal r 1) ∨
  (field 31 26 w = 0x11 ∧ field 25 25 w = 0 ∧ ¬NoiseGridLegal r 0) ∨
  (field 31 26 w = 0x11 ∧ field 25 25 w = 1 ∧ ¬NoiseGridLegal r 1) ∨
  (field 31 26 w = 0x12 ∧ ¬EnvGridLegal r 0) ∨
  (field 31 26 w = 0x13 ∧ ¬NoiseGridLegal r 0)

/-- The error with which a command word ends, the classes in the order of 60_exceptions.md R185, by its code (R180). -/
def EndsWithError (w : Word) (r : Regs) (code : Nat) : Prop :=
  (¬LegalOp w ∧ code = 1) ∨
  (LegalOp w ∧ HasReservedBit w ∧ code = 2) ∨
  (LegalOp w ∧ ¬HasReservedBit w ∧ HasConfigError w r ∧ code = 3) ∨
  (LegalOp w ∧ ¬HasReservedBit w ∧ ¬HasConfigError w r ∧ HasRangeError w r ∧ code = 4) ∨
  (LegalOp w ∧ ¬HasReservedBit w ∧ ¬HasConfigError w r ∧ ¬HasRangeError w r ∧ HasGridError w r ∧ code = 5)

/-! ### Who writes what -/

/-- The RAMs a command may write (10_state.md R42 to R53, 41_env_adjust.md R124, 42_pipeline.md R131 to R138, 40_dequant.md
R100, 43_qmf.md R158, R161). -/
def MayWrite : Instr → Ram → Ch → Prop
  | .nop, _, _ => False
  | .resetCh c _, _, d => d = c
  | .shiftLow c, r, d => d = c ∧ r = .W
  | .qmfAna c _ _ _, r, d => d = c ∧ (r = .ADL ∨ r = .W)
  | .spliceX c _ _ restore, r, d => d = c ∧ (r = .X ∨ (r = .Y ∧ restore = true))
  | .envMul c _ _ _ _, r, d => d = c ∧ r = .Y
  | .envMac c _ _ _ _, r, d => d = c ∧ r = .Y
  | .qmfSyn c _ _, r, d => d = c ∧ (r = .SDL ∨ r = .OUT)
  | .savePrev c, r, d => d = c ∧ (r = .WP ∨ r = .YP)
  | .deqEnv c, r, d => d = c ∧ r = .EO
  | .deqNoise c, r, d => d = c ∧ r = .QO
  | .deqEnvCpl, r, _ => r = .EO
  | .deqNoiseCpl, r, _ => r = .QO

/-- The one channel a command works on; the coupled commands work on both, `NOP` on none (30_encoding.md R88). -/
def soleChannel : Instr → Option Ch
  | .nop => none
  | .resetCh c _ => some c
  | .shiftLow c => some c
  | .qmfAna c _ _ _ => some c
  | .spliceX c _ _ _ => some c
  | .envMul c _ _ _ _ => some c
  | .envMac c _ _ _ _ => some c
  | .qmfSyn c _ _ => some c
  | .savePrev c => some c
  | .deqEnv c => some c
  | .deqNoise c => some c
  | .deqEnvCpl => none
  | .deqNoiseCpl => none

/-- Byte `a` lies in the 256 KiB window of channel `c` (10_state.md R40). -/
def InWindow (c : Ch) (a : Nat) : Prop := 0x40000 * (c.val + 1) ≤ a ∧ a < 0x40000 * (c.val + 2)

/-- Byte `a` lies in `CRAM` (10_state.md R39). -/
def InCram (a : Nat) : Prop := 0x01000 ≤ a ∧ a < 0x01A00

/-- The bit of `MASK` whose group holds a RAM (42_pipeline.md R131). -/
def maskBit : Ram → Nat
  | .ADL => 0
  | .SDL => 1
  | .W | .WP => 2
  | .Y | .YP => 3
  | .X => 4
  | .XH | .G | .A | .Z => 5
  | .EQ | .EO | .QQ | .QO => 6
  | .IN | .OUT => 7

/-! ### The address map -/

/-- The offsets of a channel window that a RAM covers, one line of 10_state.md R40 each. -/
def OffsetMapped (o : Nat) : Prop :=
  o < 0x03000 ∨                          -- IN 1024 words, OUT 2048 words
  (0x03000 ≤ o ∧ o < 0x03500) ∨          -- ADL 320
  (0x04000 ≤ o ∧ o < 0x05400) ∨          -- SDL 1280
  (0x06000 ≤ o ∧ o < 0x08800) ∨          -- W 40 x 32 complex
  (0x09000 ≤ o ∧ o < 0x09800) ∨          -- WP 8 x 32 complex
  (0x0A000 ≤ o ∧ o < 0x0F000) ∨          -- XH 40 x 64 complex
  (0x0F000 ≤ o ∧ o < 0x11800) ∨          -- G 40 x 64
  (0x12000 ≤ o ∧ o < 0x14800) ∨          -- A 40 x 64
  (0x15000 ≤ o ∧ o < 0x1A000) ∨          -- Z 40 x 64 complex
  (0x1A000 ≤ o ∧ o < 0x1F000) ∨          -- Y 40 x 64 complex
  (0x1F000 ≤ o ∧ o < 0x20400) ∨          -- YP 10 x 64 complex
  (0x21000 ≤ o ∧ o < 0x25000) ∨          -- X 32 x 64 complex
  (0x25000 ≤ o ∧ o < 0x25500) ∨          -- EQ 5 x 64
  (0x26000 ≤ o ∧ o < 0x26500) ∨          -- EO 5 x 64
  (0x27000 ≤ o ∧ o < 0x27040) ∨          -- QQ 2 x 8
  (0x27100 ≤ o ∧ o < 0x27140)            -- QO 2 x 8

/-- The address map (20_memory.md R61, R64; 10_state.md R54): registers and reserved offsets, `CRAM`, the RAMs of the two
channel windows. -/
def AddressExists (a : Nat) : Prop :=
  a < 0x01000 ∨ (0x01000 ≤ a ∧ a < 0x01A00) ∨
  (0x40000 ≤ a ∧ a < 0x80000 ∧ OffsetMapped (a - 0x40000)) ∨
  (0x80000 ≤ a ∧ a < 0xC0000 ∧ OffsetMapped (a - 0x80000))

/-! ### binary32 values and rounding -/

/-- The word is finite: its exponent field is not all ones. -/
def IsFinite32 (w : Word) : Prop := field 30 23 w ≠ 255

/-- The word is a NaN. -/
def IsNan32 (w : Word) : Prop := field 30 23 w = 255 ∧ field 22 0 w ≠ 0

/-- The word is an infinity. -/
def IsInf32 (w : Word) : Prop := field 30 23 w = 255 ∧ field 22 0 w = 0

/-- The value of a finite binary32 word, by the IEEE 754 format that 20_memory.md R66 lays out. -/
def value32 (w : Word) : ℚ :=
  (if bit 31 w then -1 else 1) *
    (if field 30 23 w = 0 then (field 22 0 w : ℚ) / 2 ^ 149
     else (2 ^ 23 + (field 22 0 w : ℚ)) * 2 ^ (field 30 23 w) / 2 ^ 150)

/-- `w` is `RNE32(r)` (00_scope.md R10): the signed infinity from `2^128 − 2^103` on, else a finite word nearest to `r`, the
one with an even last bit on a tie, with the sign of `r`. (The sign of an exact zero is 00_scope.md R11's.) -/
def IsRne32 (r : ℝ) (w : Word) : Prop :=
  (2 ^ 128 - 2 ^ 103 ≤ r → w = 0x7F800000) ∧
  (r ≤ -(2 ^ 128 - 2 ^ 103) → w = 0xFF800000) ∧
  (|r| < 2 ^ 128 - 2 ^ 103 →
    IsFinite32 w ∧ (0 < r → bit 31 w = false) ∧ (r < 0 → bit 31 w = true) ∧
    (∀ v, IsFinite32 v → |(value32 w : ℝ) - r| ≤ |(value32 v : ℝ) - r|) ∧
    (∀ v, IsFinite32 v → value32 v ≠ value32 w → |(value32 v : ℝ) - r| = |(value32 w : ℝ) - r| → bit 0 w = false))

end Sys2Proof.Machine
end

