-- ==== Sys2Proof/Certificates/Slice0/Obligations.lean ====
section
/-! DEFINITION. The statements for the provers, one `def Obligations.<Name> : Prop` each; OBLIGATIONS.json says which rule
of the spec each formalises. The numbers, masks and pseudocode of the rules are written out here again, so that a
statement does not repeat the definition it is about. -/

open Sys2Proof Sys2Proof.Machine

/-! ### Encoding -/

/-- The table of 30_encoding.md R92: each line of assembly is a command's text, the command assembles to the word of the table,
and the word decodes to it; `reset.all c1` stands for `reset.ch c1, 255`. -/
def Obligations.SpecExamplesEncodeAndDecode : Prop :=
  (∀ p ∈ ([("nop", .nop, 0x00000000), ("shift.low c0", .shiftLow 0, 0x08000000),
      ("qmf.ana c0, 32, 0, 32", .qmfAna 0 32 0 32, 0x0C200020), ("qmf.ana c0, 32, 0, 2", .qmfAna 0 32 0 2, 0x0C200002),
      ("splice.x c0, 32, 0, 1", .spliceX 0 32 0 true, 0x10200001),
      ("splice.x c0, 32, 16, 1", .spliceX 0 32 16 true, 0x10201001),
      ("env.mul c0, 2, 2, 40, 1", .envMul 0 2 2 40 1, 0x14105401),
      ("env.mac c0, 2, 2, 40, 1", .envMac 0 2 2 40 1, 0x18105401), ("qmf.syn c0, 0, 32", .qmfSyn 0 0 32, 0x1C000020),
      ("save.prev c0", .savePrev 0, 0x20000000), ("deq.env c1", .deqEnv 1, 0x42000000),
      ("deq.noise c0", .deqNoise 0, 0x44000000), ("deq.env.cpl", .deqEnvCpl, 0x48000000),
      ("deq.noise.cpl", .deqNoiseCpl, 0x4C000000)] : List (String × Instr × Word)),
    asmText p.2.1 = p.1 ∧ assemble p.2.1 = some p.2.2 ∧ decode p.2.2 = .ok p.2.1) ∧
  (expandPseudo false (.resetAll 1) = [.resetCh 1 0xFF] ∧ assemble (.resetCh 1 0xFF) = some 0x060000FF ∧
    decode 0x060000FF = .ok (.resetCh 1 0xFF))

/-- Decoding the word of a well-formed command gives the command back, for every command and every operand value its
fields admit. -/
def Obligations.DecodeAfterEncode : Prop := ∀ i : Instr, i.wf = true → decode (encode i) = .ok i

/-- A word that decodes has one meaning: the command is well-formed and its encoding is the word, every bit of it. -/
def Obligations.EncodeAfterDecode : Prop := ∀ (w : Word) (i : Instr), decode w = .ok i → i.wf = true ∧ encode i = w

/-- 30_encoding.md R86: the illegal opcodes, whatever the other bits are; a command with one ends with `ILLEGAL_OP` (code 1). -/
def Obligations.IllegalOpcodesExactly : Prop :=
  (∀ w : Word, decode w = .error .illegalOp ↔ ¬LegalOp w) ∧
  ∀ (s : State) (w : Word), s.pending = some ⟨w, 0⟩ → ¬LegalOp w → step s = .next (endedErr 1 s)

/-- 60_exceptions.md R182: a legal opcode with a reserved bit set, and nothing else, ends with `RESERVED` (code 2). -/
def Obligations.ReservedBitsExactly : Prop :=
  (∀ w : Word, decode w = .error .reserved ↔ LegalOp w ∧ HasReservedBit w) ∧
  ∀ (s : State) (w : Word), s.pending = some ⟨w, 0⟩ → LegalOp w → HasReservedBit w → step s = .next (endedErr 2 s)

/-! ### Commands as steps -/

/-- When the pending word decodes, a step is that command's meaning (10_state.md R55, 30_encoding.md R80). The second clause is
about `State.withFetchWord`, the model's choice (log 4, DESIGN CHOICE: a completed write to `CMD` whose `T_CMD` has passed): the
step after it is the command's meaning from the state in which `CMD` holds the word, `BUSY` is 1 and the word is pending. -/
def Obligations.StepRunsDecodedCommand : Prop :=
  (∀ (s : State) (w : Word) (i : Instr), s.pending = some ⟨w, 0⟩ → decode w = .ok i → step s = exec i s) ∧
  (∀ (s : State) (i : Instr), i.wf = true →
    step (s.withFetchWord 32 (encode i).toNat) =
      exec i { s with
        regs := { s.regs with cmd := encode i, status := s.regs.status ||| 0x00000001 }
        pending := some ⟨encode i, 0⟩ })

/-- 60_exceptions.md R183, R185: the error of the table, by its code, in the order of the classes; the state after it is the
state before it, but for `STATUS` and the end of the command. -/
def Obligations.CommandErrorsFollowTable : Prop :=
  ∀ (s : State) (w : Word) (code : Nat), s.pending = some ⟨w, 0⟩ → EndsWithError w s.regs code →
    step s = .next (endedErr code s)

/-- 60_exceptions.md R186: at the end of a command `BUSY` is 0; without error `DONE` is 1 and `CMDCNT` one more, with an error
`ERR` and `ERRCODE` are those of R184 and `DONE` and `CMDCNT` stay; `IRQ` follows; no other register changes. -/
def Obligations.CommandEndUpdatesStatus : Prop :=
  ∀ (s : State) (w : Word), s.pending = some ⟨w, 0⟩ → ∃ t : State, step s = .next t ∧
    t.pending = none ∧ bit 0 t.regs.status = false ∧
    ((∀ code, ¬EndsWithError w s.regs code) →
      EndedOk s t ∧ bit 1 t.regs.status = true ∧ t.regs.cmdcnt.toNat = (s.regs.cmdcnt.toNat + 1) % 2 ^ 32 ∧
      bit 2 t.regs.status = bit 2 s.regs.status ∧ field 11 8 t.regs.status = field 11 8 s.regs.status) ∧
    (∀ code, EndsWithError w s.regs code →
      t.regs = { s.regs with status := t.regs.status } ∧ t.mem = s.mem ∧
      bit 1 t.regs.status = bit 1 s.regs.status ∧ bit 2 t.regs.status = true ∧
      field 11 8 t.regs.status = if bit 2 s.regs.status then field 11 8 s.regs.status else code) ∧
    t.irq = ((bit 1 t.regs.status && bit 1 t.regs.ctrl) || (bit 2 t.regs.status && bit 2 t.regs.ctrl))

/-- No step faults and none is refused: an error, a bus error and an idle step are next states (60_exceptions.md R187). -/
def Obligations.EveryStepAnswersNext : Prop := ∀ s : State, ∃ t, step s = .next t

/-- Every step keeps the invariant, from every state that meets it. -/
def Obligations.StepKeepsInvariant : Prop := ∀ s t : State, s.Inv → step s = .next t → t.Inv

/-- The state after power-on reset meets the invariant. -/
def Obligations.ResetMeetsInvariant : Prop := State.reset.Inv

/-- 70_reset_and_hazards.md R200: every register, every byte of every RAM, the pending command and `IRQ`. -/
def Obligations.ResetValues : Prop :=
  State.reset.regs =
    { ctrl := 0x00000000, status := 0x00000000, cmd := 0x00000000, cmdcnt := 0x00000000, cfg := 0x00000000,
      grid0 := 0x00000000, grid1 := 0x00000000, nbe0a := 0x00000000, nbe0b := 0x00000000, nbe1a := 0x00000000,
      nbe1b := 0x00000000, dqe := 0x0C180706, dqn := 0x0C070E06, ssc64 := 0x3C800000, ssc32 := 0x3D000000 } ∧
  (∀ a, State.reset.mem.readByte a = 0) ∧ State.reset.pending = none ∧ State.reset.irq = false ∧
  (State.reset.access (.read 0x00000 4)).1 = .data 0x53425131

/-! ### The host and the order of its accesses -/

/-- 70_reset_and_hazards.md R212: from every state, after finitely many steps no command is pending and every access the
host has issued has completed, with one answer each. `T_CMD` as a count of steps and the host's queues are the model's choices (log 1
and 2, DESIGN CHOICE). -/
def Obligations.EveryIssuedAccessCompletes : Prop :=
  ∀ s : State, ∃ (n : Nat) (t : State), Host.Core.run Sys2Proof.core n s = .next t ∧
    t.pending = none ∧ t.held = [] ∧ t.host = [] ∧
    t.resp.length = s.resp.length + s.held.length + s.host.length

/-- 20_memory.md R68, R70: of the accesses completed, held and still to arrive, those that are no `STATUS` read stand in
the same order after every step, and none is lost. The queues are the model's view of the bus (log 2, DESIGN CHOICE). -/
def Obligations.AccessesKeepIssueOrder : Prop :=
  ∀ s t : State, step s = .next t →
    (t.resp.map Prod.fst ++ t.held ++ t.host).filter (fun a => decide (a ≠ .read 0x00008 4)) =
      (s.resp.map Prod.fst ++ s.held ++ s.host).filter (fun a => decide (a ≠ .read 0x00008 4))

/-- 20_memory.md R68: while a command stays pending, an arriving `STATUS` read completes at once with `STATUS` as it stands,
and every other access is held; registers and RAMs do not change. The count of waiting steps, with at most one arrival in each, is the
model's choice (log 1 and 3). -/
def Obligations.BusyStepHoldsAllButStatusReads : Prop :=
  ∀ (s : State) (w : Word) (k : Nat) (a : Access) (rest : List Access),
    s.pending = some ⟨w, k + 1⟩ → s.host = a :: rest →
      (a = .read 0x00008 4 → step s = .next { s with
        pending := some ⟨w, k⟩, host := rest, resp := s.resp ++ [(a, .data s.regs.status)] }) ∧
      (a ≠ .read 0x00008 4 → step s = .next { s with
        pending := some ⟨w, k⟩, host := rest, held := s.held ++ [a] })

/-- With no command pending the oldest held access completes, then the next issued one; with neither, the SBRQ is idle and
keeps its state (20_memory.md R68, R70; 60_exceptions.md R199). One access a step is the model's choice (log 3). -/
def Obligations.IdleStepCompletesOldestAccess : Prop :=
  ∀ s : State, s.pending = none →
    (∀ a rest, s.held = a :: rest → ∃ t, step s = .next t ∧ t.held = rest ∧ t.host = s.host ∧
      t.resp = s.resp ++ [(a, (s.access a).1)] ∧ t.regs = (s.access a).2.regs ∧ t.mem = (s.access a).2.mem ∧
      t.pending = (s.access a).2.pending) ∧
    (∀ a rest, s.held = [] → s.host = a :: rest → ∃ t, step s = .next t ∧ t.held = [] ∧ t.host = rest ∧
      t.resp = s.resp ++ [(a, (s.access a).1)] ∧ t.regs = (s.access a).2.regs ∧ t.mem = (s.access a).2.mem ∧
      t.pending = (s.access a).2.pending) ∧
    (s.held = [] → s.host = [] → step s = .next s)

/-! ### The bus -/

/-- 20_memory.md R62 to R64: an access gets a bus error unless it is one aligned 32-bit word at an address of the map; the
reserved register offsets read 0 and ignore writes. -/
def Obligations.BusErrorsExactly : Prop :=
  ∀ (s : State) (addr : BitVec 20) (size : Nat) (data : Word),
    ((s.access (.read addr size)).1 = .busError ↔ ¬(size = 4 ∧ addr.toNat % 4 = 0 ∧ AddressExists addr.toNat)) ∧
    ((s.access (.write addr size data)).1 = .busError ↔ ¬(size = 4 ∧ addr.toNat % 4 = 0 ∧ AddressExists addr.toNat)) ∧
    (0x00040 ≤ addr.toNat → addr.toNat ≤ 0x00FFF → addr.toNat % 4 = 0 →
      s.access (.read addr 4) = (.data 0, s) ∧ s.access (.write addr 4 data) = (.done, s))

/-- 20_memory.md R65, R69: a bus error changes no state, and no read does. -/
def Obligations.ReadsAndBusErrorsChangeNothing : Prop :=
  ∀ (s : State) (a : Access),
    ((s.access a).1 = .busError → (s.access a).2 = s) ∧
    (∀ addr size, a = .read addr size → (s.access a).2 = s)

/-- 10_state.md section 2, R26 to R28 and R31 to R38: what each register write stores, and that nothing else changes; `ID` and `CMDCNT`
ignore writes; reserved bits read 0. -/
def Obligations.RegisterWritesStoreTheirFields : Prop :=
  ∀ (s : State) (data : Word),
    s.access (.write 0x00000 4 data) = (.done, s) ∧
    (bit 0 data = false →
      s.access (.write 0x00004 4 data) = (.done, { s with regs := { s.regs with ctrl := data &&& 0x00000006 } })) ∧
    s.access (.write 0x00010 4 data) = (.done, s) ∧
    s.access (.write 0x00014 4 data) = (.done, { s with regs := { s.regs with cfg := data &&& 0x00000007 } }) ∧
    s.access (.write 0x00018 4 data) = (.done, { s with regs := { s.regs with grid0 := data &&& 0x00001F37 } }) ∧
    s.access (.write 0x0001C 4 data) = (.done, { s with regs := { s.regs with grid1 := data &&& 0x00001F37 } }) ∧
    s.access (.write 0x00020 4 data) = (.done, { s with regs := { s.regs with nbe0a := data } }) ∧
    s.access (.write 0x00024 4 data) = (.done, { s with regs := { s.regs with nbe0b := data &&& 0x000000FF } }) ∧
    s.access (.write 0x00028 4 data) = (.done, { s with regs := { s.regs with nbe1a := data } }) ∧
    s.access (.write 0x0002C 4 data) = (.done, { s with regs := { s.regs with nbe1b := data &&& 0x000000FF } }) ∧
    s.access (.write 0x00030 4 data) = (.done, { s with regs := { s.regs with dqe := data } }) ∧
    s.access (.write 0x00034 4 data) = (.done, { s with regs := { s.regs with dqn := data &&& 0xFFFF0FFF } }) ∧
    s.access (.write 0x00038 4 data) = (.done, { s with regs := { s.regs with ssc64 := data } }) ∧
    s.access (.write 0x0003C 4 data) = (.done, { s with regs := { s.regs with ssc32 := data } }) ∧
    s.access (.read 0x00000 4) = (.data 0x53425131, s) ∧
    s.access (.read 0x00004 4) = (.data s.regs.ctrl, s) ∧
    s.access (.read 0x00008 4) = (.data s.regs.status, s) ∧
    s.access (.read 0x0000C 4) = (.data s.regs.cmd, s) ∧
    s.access (.read 0x00010 4) = (.data s.regs.cmdcnt, s) ∧
    s.access (.read 0x00014 4) = (.data s.regs.cfg, s) ∧
    s.access (.read 0x00018 4) = (.data s.regs.grid0, s) ∧
    s.access (.read 0x0001C 4) = (.data s.regs.grid1, s) ∧
    s.access (.read 0x00020 4) = (.data s.regs.nbe0a, s) ∧
    s.access (.read 0x00024 4) = (.data s.regs.nbe0b, s) ∧
    s.access (.read 0x00028 4) = (.data s.regs.nbe1a, s) ∧
    s.access (.read 0x0002C 4) = (.data s.regs.nbe1b, s) ∧
    s.access (.read 0x00030 4) = (.data s.regs.dqe, s) ∧
    s.access (.read 0x00034 4) = (.data s.regs.dqn, s) ∧
    s.access (.read 0x00038 4) = (.data s.regs.ssc64, s) ∧
    s.access (.read 0x0003C 4) = (.data s.regs.ssc32, s)

/-- 10_state.md R29: `DONE` and `ERR` are cleared by writing 1 and kept by writing 0, `ERRCODE` is cleared with `ERR`, and every
other bit of `STATUS`, and everything else, ignores the write. -/
def Obligations.StatusWriteClearsItsBits : Prop :=
  ∀ (s : State) (data : Word), ∃ st : Word,
    s.access (.write 0x00008 4 data) = (.done, { s with regs := { s.regs with status := st } }) ∧
    bit 1 st = (bit 1 s.regs.status && !bit 1 data) ∧
    bit 2 st = (bit 2 s.regs.status && !bit 2 data) ∧
    field 11 8 st = (if bit 2 data then 0 else field 11 8 s.regs.status) ∧
    (∀ i < 32, i ≠ 1 → i ≠ 2 → ¬(8 ≤ i ∧ i ≤ 11) → bit i st = bit i s.regs.status)

/-- 10_state.md R30: a write to `CMD` stores the word, sets `BUSY` and makes the word pending, and changes nothing else; a read
returns the word and issues nothing; after reset the word is 0 and no command is pending. -/
def Obligations.CmdWriteIssuesCommand : Prop :=
  State.reset.regs.cmd = 0x00000000 ∧ State.reset.pending = none ∧
  ∀ (s : State) (data : Word), ∃ (t : State) (k : Nat),
    s.access (.write 0x0000C 4 data) = (.done, t) ∧ t.pending = some ⟨data, k⟩ ∧
    t.regs = { s.regs with cmd := data, status := s.regs.status ||| 0x00000001 } ∧
    t.mem = s.mem ∧ t.held = s.held ∧ t.host = s.host ∧ t.resp = s.resp ∧
    t.access (.read 0x0000C 4) = (.data data, t)

/-- 70_reset_and_hazards.md R201: a write of 1 to `CTRL.SRST` puts every register and RAM at its reset value, whatever its
other bits are, and keeps `CRAM`; while a command stays pending the write is held. -/
def Obligations.SoftResetKeepsOnlyCram : Prop :=
  ∀ (s : State) (data : Word), bit 0 data = true →
    (∀ w k rest, s.pending = some ⟨w, k + 1⟩ → s.host = .write 0x00004 4 data :: rest →
      step s = .next { s with
        pending := some ⟨w, k⟩, host := rest, held := s.held ++ [.write 0x00004 4 data] }) ∧
    ∃ t : State,
    s.access (.write 0x00004 4 data) = (.done, t) ∧
    t.regs =
      { ctrl := 0x00000000, status := 0x00000000, cmd := 0x00000000, cmdcnt := 0x00000000, cfg := 0x00000000,
        grid0 := 0x00000000, grid1 := 0x00000000, nbe0a := 0x00000000, nbe0b := 0x00000000, nbe1a := 0x00000000,
        nbe1b := 0x00000000, dqe := 0x0C180706, dqn := 0x0C070E06, ssc64 := 0x3C800000, ssc32 := 0x3D000000 } ∧
    t.pending = none ∧ t.irq = false ∧
    (∀ a, InCram a → t.mem.readByte a = s.mem.readByte a) ∧
    (∀ a, ¬InCram a → t.mem.readByte a = 0)

/-- 20_memory.md R66: a host write of a RAM word stores its bytes, the lowest first, and changes no other byte and no register;
a read of the address then gives the word. -/
def Obligations.RamWriteStoresOneWord : Prop :=
  ∀ (s : State) (addr : BitVec 20) (data : Word),
    addr.toNat % 4 = 0 → 0x01000 ≤ addr.toNat → AddressExists addr.toNat → ∃ t : State,
      s.access (.write addr 4 data) = (.done, t) ∧
      (∀ i < 4, t.mem.readByte (addr.toNat + i) = BitVec.ofNat 8 (field (8 * i + 7) (8 * i) data)) ∧
      SameOutside (fun a => addr.toNat ≤ a ∧ a < addr.toNat + 4) s t ∧
      t.regs = s.regs ∧ t.pending = s.pending ∧ t.held = s.held ∧ t.host = s.host ∧ t.resp = s.resp ∧
      t.access (.read addr 4) = (.data data, t)

/-- 60_exceptions.md R190, R192: `IRQ` is the equation of R192, and 0 after reset; clearing an enable masks a source and leaves it pending, a W1C
write of both bits takes `IRQ` down. -/
def Obligations.InterruptFollowsItsEquation : Prop :=
  ∀ s : State,
    s.irq = ((bit 1 s.regs.status && bit 1 s.regs.ctrl) || (bit 2 s.regs.status && bit 2 s.regs.ctrl)) ∧
    (∀ data, bit 0 data = false →
      (s.access (.write 0x00004 4 data)).2.regs.status = s.regs.status ∧
      (s.access (.write 0x00004 4 data)).2.irq =
        ((bit 1 s.regs.status && bit 1 data) || (bit 2 s.regs.status && bit 2 data))) ∧
    (∀ data, bit 1 data = true → bit 2 data = true → (s.access (.write 0x00008 4 data)).2.irq = false) ∧
    State.reset.irq = false

/-! ### The pipeline commands -/

/-- 42_pipeline.md R130: `NOP` changes nothing but `STATUS` and `CMDCNT`; any of its bits [25:0] is reserved. -/
def Obligations.NopOnlyCompletes : Prop :=
  (∀ s : State, ∃ t, exec .nop s = .next t ∧ EndedOk s t ∧ t.mem = s.mem) ∧
  (∀ w : Word, field 31 26 w = 0x00 → field 25 0 w ≠ 0 → decode w = .error .reserved)

/-- 42_pipeline.md R131, R132: the RAMs whose group's bit of `MASK` is 1 read zero, every other byte is unchanged. -/
def Obligations.ResetChClearsItsGroups : Prop :=
  (∀ (s : State) (c : Ch) (mask : Nat), ∃ t, exec (.resetCh c mask) s = .next t ∧ EndedOk s t ∧
    (∀ r a, mask.testBit (maskBit r) = true → r.contains c a = true → t.mem.readByte a = 0) ∧
    SameOutside (fun a => ∃ r, mask.testBit (maskBit r) = true ∧ r.contains c a = true) s t) ∧
  (∀ w : Word, field 31 26 w = 0x01 → (bit 24 w = true ∨ field 23 16 w ≠ 0 ∨ field 15 8 w ≠ 0) →
    decode w = .error .reserved)

/-- 42_pipeline.md R134: `W[c][s][k] <- WP[c][s][k]` for `s = 0..7`, and no other byte changes. -/
def Obligations.ShiftLowCopiesSnapshot : Prop :=
  (∀ (s : State) (c : Ch), ∃ t, exec (.shiftLow c) s = .next t ∧ EndedOk s t ∧
    (∀ j < 8, ∀ k < 32, t.mem.cplx .W c j k = s.mem.cplx .WP c j k) ∧
    SameOutside (fun a => ∃ j < 8, InRow .W c j 0 32 a) s t) ∧
  (∀ w : Word, field 31 26 w = 0x02 → field 24 0 w ≠ 0 → decode w = .error .reserved)

/-- 42_pipeline.md R136: with `R = 1` the overhang is restored first; then every band of every slot of `X` has its source; and
no other byte changes. Out of range, the command ends with `RANGE` (code 4). -/
def Obligations.SpliceXBuildsSynthesisInput : Prop :=
  (∀ (s : State) (c : Ch) (kx mb : Nat) (r : Bool), kx ≤ 32 → kx + mb ≤ 64 →
    ∃ t, exec (.spliceX c kx mb r) s = .next t ∧ EndedOk s t ∧
      (r = true → ∀ j < 40 - frameSlots s.regs, ∀ m < 64, t.mem.cplx .Y c j m = s.mem.cplx .YP c j m) ∧
      (∀ l < frameSlots s.regs, ∀ k < 64, t.mem.cplx .X c l k =
        if k < kx then s.mem.cplx .W c (l + 2) k
        else if k < kx + mb then t.mem.cplx .Y c (l + 2) k
        else ⟨0, 0⟩) ∧
      SameOutside (fun a => (∃ l < frameSlots s.regs, InRow .X c l 0 64 a) ∨
        (r = true ∧ ∃ j < 40 - frameSlots s.regs, InRow .Y c j 0 64 a)) s t) ∧
  (∀ (s : State) (c : Ch) (kx mb : Nat) (r : Bool), 32 < kx ∨ 64 < kx + mb →
    exec (.spliceX c kx mb r) s = .next (endedErr 4 s)) ∧
  (∀ w : Word, field 31 26 w = 0x04 → (bit 24 w = true ∨ field 7 1 w ≠ 0) → decode w = .error .reserved)

/-- 42_pipeline.md R138: the tails of `W` and `Y` are snapshotted, the slots of `YP` past the overhang become zero, and no other
byte changes. -/
def Obligations.SavePrevSnapshotsTails : Prop :=
  (∀ (s : State) (c : Ch), ∃ t, exec (.savePrev c) s = .next t ∧ EndedOk s t ∧
    (∀ j < 8, ∀ k < 32, t.mem.cplx .WP c j k = s.mem.cplx .W c (frameSlots s.regs + j) k) ∧
    (∀ j < 10, ∀ m < 64, t.mem.cplx .YP c j m =
      if j < 40 - frameSlots s.regs then s.mem.cplx .Y c (frameSlots s.regs + j) m else ⟨0, 0⟩) ∧
    SameOutside (fun a => (∃ j < 8, InRow .WP c j 0 32 a) ∨ ∃ j < 10, InRow .YP c j 0 64 a) s t) ∧
  (∀ w : Word, field 31 26 w = 0x08 → field 24 0 w ≠ 0 → decode w = .error .reserved)

/-- Issuing `SHIFT_LOW` twice, or `SAVE_PREV` twice, leaves the memory that issuing it once leaves (42_pipeline.md R134, R138),
from every state whose memory is canonical. -/
def Obligations.SnapshotCommandsAreIdempotent : Prop :=
  ∀ (s : State) (c : Ch), s.mem.wf →
    (∃ t u, exec (.shiftLow c) s = .next t ∧ exec (.shiftLow c) t = .next u ∧ u.mem = t.mem) ∧
    (∃ t u, exec (.savePrev c) s = .next t ∧ exec (.savePrev c) t = .next u ∧ u.mem = t.mem)

/-- 42_pipeline.md R137, R139: across a frame boundary the tails come back where the next frame looks for them, and within a
frame analysis slot `l`, which `QMF_ANA` puts in `W` slot `8 + l`, reaches slot `l + 6` of `X`. -/
def Obligations.TailsCrossTheFrameBoundary : Prop :=
  ∀ (s : State) (c : Ch) (kx mb : Nat), kx ≤ 32 → kx + mb ≤ 64 → ∃ t u v,
    exec (.savePrev c) s = .next t ∧ exec (.shiftLow c) t = .next u ∧ exec (.spliceX c kx mb true) u = .next v ∧
    (∀ j < 8, ∀ k < 32, u.mem.cplx .W c j k = s.mem.cplx .W c (frameSlots s.regs + j) k) ∧
    (∀ j < 40 - frameSlots s.regs, ∀ m < 64, v.mem.cplx .Y c j m = s.mem.cplx .Y c (frameSlots s.regs + j) m) ∧
    (∀ l < 6, ∀ k < kx, v.mem.cplx .X c l k = s.mem.cplx .W c (8 + (l + frameSlots s.regs - 6)) k) ∧
    (∀ l, l + 6 < frameSlots s.regs → ∀ k < kx, v.mem.cplx .X c (l + 6) k = u.mem.cplx .W c (8 + l) k)

/-! ### The envelope-adjustment multipliers -/

/-- 41_env_adjust.md R119, R120: `Y = G · XH`, each part rounded once, over the block; no other byte changes. -/
def Obligations.EnvMulScalesHighBand : Prop :=
  (∀ (s : State) (c : Ch) (j0 nj m0 nm : Nat), j0 + nj ≤ 40 → m0 + nm ≤ 64 →
    ∃ t, exec (.envMul c j0 nj m0 nm) s = .next t ∧ EndedOk s t ∧
      (∀ j, j0 ≤ j → j < j0 + nj → ∀ m, m0 ≤ m → m < m0 + nm →
        t.mem.cplx .Y c j m =
          ⟨mul32 (s.mem.real .G c j m) (s.mem.cplx .XH c j m).re, mul32 (s.mem.real .G c j m) (s.mem.cplx .XH c j m).im⟩) ∧
      SameOutside (fun a => ∃ j, j0 ≤ j ∧ j < j0 + nj ∧ InRow .Y c j m0 nm a) s t) ∧
  (∀ (s : State) (c : Ch) (j0 nj m0 nm : Nat), 40 < j0 + nj ∨ 64 < m0 + nm →
    exec (.envMul c j0 nj m0 nm) s = .next (endedErr 4 s))

/-- 41_env_adjust.md R119, R122: `Y = Y + A · Z`, each part rounded after the product and after the sum, over the block; no other
byte changes. -/
def Obligations.EnvMacAddsComponent : Prop :=
  (∀ (s : State) (c : Ch) (j0 nj m0 nm : Nat), j0 + nj ≤ 40 → m0 + nm ≤ 64 →
    ∃ t, exec (.envMac c j0 nj m0 nm) s = .next t ∧ EndedOk s t ∧
      (∀ j, j0 ≤ j → j < j0 + nj → ∀ m, m0 ≤ m → m < m0 + nm →
        t.mem.cplx .Y c j m =
          ⟨add32 (s.mem.cplx .Y c j m).re (mul32 (s.mem.real .A c j m) (s.mem.cplx .Z c j m).re),
            add32 (s.mem.cplx .Y c j m).im (mul32 (s.mem.real .A c j m) (s.mem.cplx .Z c j m).im)⟩) ∧
      SameOutside (fun a => ∃ j, j0 ≤ j ∧ j < j0 + nj ∧ InRow .Y c j m0 nm a) s t) ∧
  (∀ (s : State) (c : Ch) (j0 nj m0 nm : Nat), 40 < j0 + nj ∨ 64 < m0 + nm →
    exec (.envMac c j0 nj m0 nm) s = .next (endedErr 4 s))

/-! ### Dequantization -/

/-- 40_dequant.md R102, R103: `EO = POW2H(EQ·ah + 2·ENV_OFF)` over the grid; every other byte, the elements outside the grid
among them, is unchanged. An illegal grid ends with `GRID` (code 5). -/
def Obligations.DeqEnvWritesPowers : Prop :=
  (∀ (s : State) (c : Ch), s.regs.le c ≤ 5 → (∀ l < s.regs.le c, s.regs.nb c l ≤ 64) →
    ∃ t, exec (.deqEnv c) s = .next t ∧ EndedOk s t ∧
      (∀ l < s.regs.le c, ∀ k < s.regs.nb c l, t.mem.real .EO c l k =
        pow2h (s32 (s.mem.real .EQ c l k) * (if bit 12 (s.regs.gridOf c) then 2 else 1)
          + 2 * sext 8 (field 7 0 s.regs.dqe))) ∧
      SameOutside (fun a => ∃ l < s.regs.le c, InRow .EO c l 0 (s.regs.nb c l) a) s t) ∧
  (∀ (s : State) (c : Ch), (5 < s.regs.le c ∨ ∃ l < s.regs.le c, 64 < s.regs.nb c l) →
    exec (.deqEnv c) s = .next (endedErr 5 s)) ∧
  (∀ w : Word, field 31 26 w = 0x10 → field 24 0 w ≠ 0 → decode w = .error .reserved)

/-- 40_dequant.md R105: `QO = POW2H(QQ·NS + 2·NOISE_OFF)` over the grid; every other byte is unchanged. -/
def Obligations.DeqNoiseWritesPowers : Prop :=
  (∀ (s : State) (c : Ch), s.regs.lq c ≤ 2 → s.regs.nqb c ≤ 8 →
    ∃ t, exec (.deqNoise c) s = .next t ∧ EndedOk s t ∧
      (∀ l < s.regs.lq c, ∀ k < s.regs.nqb c, t.mem.real .QO c l k =
        pow2h (s32 (s.mem.real .QQ c l k) * sext 4 (field 11 8 s.regs.dqn) + 2 * sext 8 (field 7 0 s.regs.dqn))) ∧
      SameOutside (fun a => ∃ l < s.regs.lq c, InRow .QO c l 0 (s.regs.nqb c) a) s t) ∧
  (∀ (s : State) (c : Ch), (2 < s.regs.lq c ∨ 8 < s.regs.nqb c) → exec (.deqNoise c) s = .next (endedErr 5 s)) ∧
  (∀ w : Word, field 31 26 w = 0x11 → field 24 0 w ≠ 0 → decode w = .error .reserved)

/-- 40_dequant.md R106 to R109: the coupled envelope pair, computed with three roundings in the stated order, over channel 0's grid;
the second member is `mul32` of the first and `d2`; every other byte of both channels is unchanged. -/
def Obligations.DeqEnvCplSplitsEnergy : Prop :=
  (∀ s : State, bit 2 s.regs.cfg = true → s.regs.le 0 ≤ 5 → (∀ l < s.regs.le 0, s.regs.nb 0 l ≤ 64) →
    ∃ t, exec .deqEnvCpl s = .next t ∧ EndedOk s t ∧
      (∀ l < s.regs.le 0, ∀ k < s.regs.nb 0 l, ∃ d1 d2,
        d1 = pow2h (s32 (s.mem.real .EQ 0 l k) * (if bit 12 s.regs.grid0 then 2 else 1)
          + 2 * sext 8 (field 15 8 s.regs.dqe)) ∧
        d2 = pow2h (((if bit 12 s.regs.grid1 then sext 8 (field 31 24 s.regs.dqe) else sext 8 (field 23 16 s.regs.dqe))
          - s32 (s.mem.real .EQ 1 l k)) * (if bit 12 s.regs.grid1 then 2 else 1)) ∧
        t.mem.real .EO 0 l k = div32 d1 (add32 0x3F800000 d2) ∧
        t.mem.real .EO 1 l k = mul32 (t.mem.real .EO 0 l k) d2) ∧
      SameOutside (fun a => ∃ l < s.regs.le 0, InRow .EO 0 l 0 (s.regs.nb 0 l) a ∨ InRow .EO 1 l 0 (s.regs.nb 0 l) a)
        s t) ∧
  (∀ s : State, bit 2 s.regs.cfg = false → exec .deqEnvCpl s = .next (endedErr 3 s)) ∧
  (∀ s : State, bit 2 s.regs.cfg = true → (5 < s.regs.le 0 ∨ ∃ l < s.regs.le 0, 64 < s.regs.nb 0 l) →
    exec .deqEnvCpl s = .next (endedErr 5 s)) ∧
  (∀ w : Word, field 31 26 w = 0x12 → field 25 0 w ≠ 0 → decode w = .error .reserved)

/-- 40_dequant.md R111, R112: the coupled noise pair over channel 0's grid, the first member to channel 0 and the second to
channel 1; every other byte of both channels is unchanged. -/
def Obligations.DeqNoiseCplSplitsEnergy : Prop :=
  (∀ s : State, bit 2 s.regs.cfg = true → s.regs.lq 0 ≤ 2 → s.regs.nqb 0 ≤ 8 →
    ∃ t, exec .deqNoiseCpl s = .next t ∧ EndedOk s t ∧
      (∀ l < s.regs.lq 0, ∀ k < s.regs.nqb 0, ∃ d1 d2,
        d1 = pow2h (s32 (s.mem.real .QQ 0 l k) * sext 4 (field 11 8 s.regs.dqn) + 2 * sext 8 (field 23 16 s.regs.dqn)) ∧
        d2 = pow2h ((sext 8 (field 31 24 s.regs.dqn) - s32 (s.mem.real .QQ 1 l k)) * 2) ∧
        t.mem.real .QO 0 l k = div32 d1 (add32 0x3F800000 d2) ∧
        t.mem.real .QO 1 l k = mul32 (t.mem.real .QO 0 l k) d2) ∧
      SameOutside (fun a => ∃ l < s.regs.lq 0, InRow .QO 0 l 0 (s.regs.nqb 0) a ∨ InRow .QO 1 l 0 (s.regs.nqb 0) a)
        s t) ∧
  (∀ s : State, bit 2 s.regs.cfg = false → exec .deqNoiseCpl s = .next (endedErr 3 s)) ∧
  (∀ s : State, bit 2 s.regs.cfg = true → (2 < s.regs.lq 0 ∨ 8 < s.regs.nqb 0) →
    exec .deqNoiseCpl s = .next (endedErr 5 s)) ∧
  (∀ w : Word, field 31 26 w = 0x13 → field 25 0 w ≠ 0 → decode w = .error .reserved)

/-! ### The filterbanks -/

/-- 43_qmf.md R158: `QMF_ANA` completes for every slot range of the frame, writing only `ADL` and the slots of `W` it computes;
with `NL = 0` it changes no RAM; out of range it ends with `RANGE` (code 4). -/
def Obligations.QmfAnaCompletes : Prop :=
  (∀ (s : State) (c : Ch) (klim l0 nl : Nat), klim ≤ 32 → l0 + nl ≤ frameSlots s.regs →
    ∃ t, exec (.qmfAna c klim l0 nl) s = .next t ∧ EndedOk s t ∧ (nl = 0 → t.mem = s.mem) ∧
      SameOutside (fun a => InRow .ADL c 0 0 320 a ∨ ∃ l, l0 ≤ l ∧ l < l0 + nl ∧ InRow .W c (8 + l) 0 32 a) s t) ∧
  (∀ (s : State) (c : Ch) (klim l0 nl : Nat), (32 < klim ∨ frameSlots s.regs < l0 + nl) →
    exec (.qmfAna c klim l0 nl) s = .next (endedErr 4 s)) ∧
  (∀ w : Word, field 31 26 w = 0x03 → bit 24 w = true → decode w = .error .reserved)

/-- 43_qmf.md R158, R159: one analysis slot. The delay line shifts by 32 and takes the new samples, newest first; the window, the
fold and the modulation are the sums of the rule in its order; bands from `KLIM` on are `(+0, +0)`. -/
def Obligations.QmfAnaComputesSlot : Prop :=
  ∀ (s : State) (c : Ch) (klim l : Nat), klim ≤ 32 → l + 1 ≤ frameSlots s.regs →
    ∃ t, exec (.qmfAna c klim l 1) s = .next t ∧ ∃ x z u : Nat → Word,
      (∀ n < 32, x (31 - n) = s.mem.real .IN c 0 (32 * l + n)) ∧
      (∀ n, 32 ≤ n → n < 320 → x n = s.mem.real .ADL c 0 (n - 32)) ∧
      (∀ n < 320, z n = mul32 (x n) (s.mem.readWord (0x01000 + 4 * (2 * n)))) ∧
      (∀ n < 64, u n = sum32 [z n, z (n + 64), z (n + 128), z (n + 192), z (n + 256)]) ∧
      (∀ n < 320, t.mem.real .ADL c 0 n = x n) ∧
      (∀ k < 32, t.mem.cplx .W c (8 + l) k =
        if k < klim then
          ⟨sum32 ((List.range 64).map fun n => mul32 (u n) (tac k n)),
            sum32 ((List.range 64).map fun n => mul32 (u n) (tas k n))⟩
        else ⟨0, 0⟩)

/-- 43_qmf.md R161: `QMF_SYN` completes for every slot range of the frame, writing only `SDL` and the samples of `OUT` it computes
(64 or 32 to a slot, by `CFG.DS`; the upper half of `SDL` is kept when `DS = 1`, 10_state.md R45); with `NL = 0` it changes no RAM; out
of range it ends with `RANGE` (code 4). -/
def Obligations.QmfSynCompletes : Prop :=
  (∀ (s : State) (c : Ch) (l0 nl : Nat), l0 + nl ≤ frameSlots s.regs →
    ∃ t, exec (.qmfSyn c l0 nl) s = .next t ∧ EndedOk s t ∧ (nl = 0 → t.mem = s.mem) ∧
      (bit 1 s.regs.cfg = false →
        SameOutside (fun a => InRow .SDL c 0 0 1280 a ∨ InRow .OUT c 0 (64 * l0) (64 * nl) a) s t) ∧
      (bit 1 s.regs.cfg = true →
        SameOutside (fun a => InRow .SDL c 0 0 640 a ∨ InRow .OUT c 0 (32 * l0) (32 * nl) a) s t)) ∧
  (∀ (s : State) (c : Ch) (l0 nl : Nat), frameSlots s.regs < l0 + nl →
    exec (.qmfSyn c l0 nl) s = .next (endedErr 4 s)) ∧
  (∀ w : Word, field 31 26 w = 0x07 → (bit 24 w = true ∨ field 23 16 w ≠ 0) → decode w = .error .reserved)

/-- 43_qmf.md R160: one 64-band synthesis slot: shift by 128, modulate, gather, window, overlap-add. -/
def Obligations.QmfSynComputesSlot64 : Prop :=
  ∀ (s : State) (c : Ch) (l : Nat), bit 1 s.regs.cfg = false → l + 1 ≤ frameSlots s.regs →
    ∃ t, exec (.qmfSyn c l 1) s = .next t ∧ ∃ v g w : Nat → Word,
      (∀ n < 128, v n = mul32 (sum32 ((List.range 64).flatMap fun k =>
        [mul32 (s.mem.cplx .X c l k).re (tsc64 k n), neg32 (mul32 (s.mem.cplx .X c l k).im (tss64 k n))])) s.regs.ssc64) ∧
      (∀ n, 128 ≤ n → n < 1280 → v n = s.mem.real .SDL c 0 (n - 128)) ∧
      (∀ i < 5, ∀ j < 64, g (128 * i + j) = v (256 * i + j) ∧ g (128 * i + 64 + j) = v (256 * i + 192 + j)) ∧
      (∀ n < 640, w n = mul32 (g n) (s.mem.readWord (0x01000 + 4 * n))) ∧
      (∀ n < 1280, t.mem.real .SDL c 0 n = v n) ∧
      (∀ j < 64, t.mem.real .OUT c 0 (64 * l + j) = sum32 ((List.range 10).map fun i => w (64 * i + j)))

/-- 43_qmf.md R163: one 32-band synthesis slot: shift by 64 in the lower half of `SDL`, the even window coefficients. -/
def Obligations.QmfSynComputesSlot32 : Prop :=
  ∀ (s : State) (c : Ch) (l : Nat), bit 1 s.regs.cfg = true → l + 1 ≤ frameSlots s.regs →
    ∃ t, exec (.qmfSyn c l 1) s = .next t ∧ ∃ v g w : Nat → Word,
      (∀ n < 64, v n = mul32 (sum32 ((List.range 32).flatMap fun k =>
        [mul32 (s.mem.cplx .X c l k).re (tsc32 k n), neg32 (mul32 (s.mem.cplx .X c l k).im (tss32 k n))])) s.regs.ssc32) ∧
      (∀ n, 64 ≤ n → n < 640 → v n = s.mem.real .SDL c 0 (n - 64)) ∧
      (∀ i < 5, ∀ j < 32, g (64 * i + j) = v (128 * i + j) ∧ g (64 * i + 32 + j) = v (128 * i + 96 + j)) ∧
      (∀ n < 320, w n = mul32 (g n) (s.mem.readWord (0x01000 + 4 * (2 * n)))) ∧
      (∀ n < 640, t.mem.real .SDL c 0 n = v n) ∧
      (∀ n, 640 ≤ n → n < 1280 → t.mem.real .SDL c 0 n = s.mem.real .SDL c 0 n) ∧
      (∀ j < 32, t.mem.real .OUT c 0 (32 * l + j) = sum32 ((List.range 10).map fun i => w (32 * i + j)))

/-- 42_pipeline.md R142: a filterbank command over a slot range gives the memory that two commands over its two consecutive parts
give. With the one-slot statements this determines the commands over every range. -/
def Obligations.FilterbankCommandsSplit : Prop :=
  ∀ (s : State) (c : Ch) (klim l0 n k : Nat), klim ≤ 32 → l0 + (n + k) ≤ frameSlots s.regs →
    (∃ t u v, exec (.qmfAna c klim l0 n) s = .next t ∧ exec (.qmfAna c klim (l0 + n) k) t = .next u ∧
      exec (.qmfAna c klim l0 (n + k)) s = .next v ∧ v.mem = u.mem) ∧
    (∃ t u v, exec (.qmfSyn c l0 n) s = .next t ∧ exec (.qmfSyn c (l0 + n) k) t = .next u ∧
      exec (.qmfSyn c l0 (n + k)) s = .next v ∧ v.mem = u.mem)

/-- 43_qmf.md R164, the zero case of analysis: with the samples of the slots and `ADL` all `+0` and every even window coefficient
finite with sign bit 0, every value written to `W` is `+0`, and `ADL` stays `+0`. -/
def Obligations.SilenceStaysSilentInAnalysis : Prop :=
  ∀ (s : State) (c : Ch) (klim l0 nl : Nat), klim ≤ 32 → l0 + nl ≤ frameSlots s.regs →
    (∀ n, 32 * l0 ≤ n → n < 32 * (l0 + nl) → s.mem.real .IN c 0 n = 0) →
    (∀ n < 320, s.mem.real .ADL c 0 n = 0) →
    (∀ n < 320, IsFinite32 (s.mem.readWord (0x01000 + 4 * (2 * n))) ∧
      bit 31 (s.mem.readWord (0x01000 + 4 * (2 * n))) = false) →
    ∃ t, exec (.qmfAna c klim l0 nl) s = .next t ∧
      (∀ l, l0 ≤ l → l < l0 + nl → ∀ k < 32, t.mem.cplx .W c (8 + l) k = ⟨0, 0⟩) ∧
      (∀ n < 320, t.mem.real .ADL c 0 n = 0)

/-- 43_qmf.md R164, the zero case of synthesis: with the slots of `X` and `SDL` all `+0`, the scale register and every window
coefficient finite with sign bit 0, every value written to `OUT` is `+0`: 64 or 32 samples of silence to a slot. -/
def Obligations.SilenceStaysSilentInSynthesis : Prop :=
  ∀ (s : State) (c : Ch) (l0 nl : Nat), l0 + nl ≤ frameSlots s.regs →
    (∀ l, l0 ≤ l → l < l0 + nl → ∀ k < 64, s.mem.cplx .X c l k = ⟨0, 0⟩) →
    (∀ n < 1280, s.mem.real .SDL c 0 n = 0) →
    IsFinite32 s.regs.ssc64 → bit 31 s.regs.ssc64 = false → IsFinite32 s.regs.ssc32 → bit 31 s.regs.ssc32 = false →
    (∀ n < 640, IsFinite32 (s.mem.readWord (0x01000 + 4 * n)) ∧ bit 31 (s.mem.readWord (0x01000 + 4 * n)) = false) →
    ∃ t, exec (.qmfSyn c l0 nl) s = .next t ∧
      (∀ j, j < (if bit 1 s.regs.cfg then 32 * nl else 64 * nl) →
        t.mem.real .OUT c 0 ((if bit 1 s.regs.cfg then 32 * l0 else 64 * l0) + j) = 0) ∧
      (∀ n < 1280, t.mem.real .SDL c 0 n = 0)

/-! ### Whole-machine rules -/

/-- A command changes only bytes of the RAMs it may write: the whole-machine sentences "only … writes it" of 10_state.md R42 to R53,
41_env_adjust.md R124 and 42_pipeline.md R132. So no command changes `CRAM`, and none the other channel's RAMs but the coupled ones. -/
def Obligations.CommandsWriteOnlyTheirRams : Prop :=
  ∀ (i : Instr) (s t : State), exec i s = .next t → ∀ a, t.mem.readByte a ≠ s.mem.readByte a →
    ∃ r c, MayWrite i r c ∧ r.contains c a = true

/-- 70_reset_and_hazards.md R211: what a command on one channel leaves in that channel's RAMs and in the registers depends only on
that channel's RAMs, `CRAM` and the registers: two states that agree on these agree on them after it. -/
def Obligations.CommandsReadOnlyTheirChannel : Prop :=
  ∀ (i : Instr) (c : Ch) (s s' : State), soleChannel i = some c → s.regs = s'.regs →
    (∀ a, InWindow c a ∨ InCram a → s.mem.readByte a = s'.mem.readByte a) →
    ∃ t t', exec i s = .next t ∧ exec i s' = .next t' ∧ t.regs = t'.regs ∧
      ∀ a, InWindow c a → t.mem.readByte a = t'.mem.readByte a

/-- 42_pipeline.md R141: commands on different channels can be interleaved in any way: in either order they leave the same
bytes in every RAM. -/
def Obligations.ChannelsCommute : Prop :=
  ∀ (i i' : Instr) (c c' : Ch) (s : State), soleChannel i = some c → soleChannel i' = some c' → c ≠ c' →
    ∃ t u t' u', exec i s = .next t ∧ exec i' t = .next u ∧ exec i' s = .next t' ∧ exec i t' = .next u' ∧
      ∀ a, u.mem.readByte a = u'.mem.readByte a

/-- 42_pipeline.md R135: `SHIFT_LOW` and `QMF_ANA` of one channel in either order leave the same bytes in every RAM. -/
def Obligations.ShiftAndAnalysisCommute : Prop :=
  ∀ (s : State) (c : Ch) (klim l0 nl : Nat), klim ≤ 32 → l0 + nl ≤ frameSlots s.regs →
    ∃ t u t' u', exec (.shiftLow c) s = .next t ∧ exec (.qmfAna c klim l0 nl) t = .next u ∧
      exec (.qmfAna c klim l0 nl) s = .next t' ∧ exec (.shiftLow c) t' = .next u' ∧
      ∀ a, u.mem.readByte a = u'.mem.readByte a

/-! ### Arithmetic -/

/-- 00_scope.md R12: a NaN operand gives the canonical NaN, and so does every operation that returns a NaN. -/
def Obligations.NanResultsAreCanonical : Prop :=
  (∀ a : Word, IsNan32 a → neg32 a = 0x7FC00000) ∧ (∀ a : Word, IsNan32 (neg32 a) → neg32 a = 0x7FC00000) ∧
  ∀ op ∈ [add32, sub32, mul32, div32], ∀ a b : Word,
    (IsNan32 a ∨ IsNan32 b → op a b = 0x7FC00000) ∧ (IsNan32 (op a b) → op a b = 0x7FC00000)

/-- 00_scope.md R11, the special cases with an infinity or a zero divisor; `s` and `t` are the sign bits. `neg` flips the sign bit
of a word that is no NaN. -/
def Obligations.SpecialValuesOfArithmetic : Prop :=
  (∀ a : Word, ¬IsNan32 a → neg32 a = a ^^^ 0x80000000) ∧
  ∀ a b : Word,
    (IsInf32 a → IsFinite32 b → add32 a b = a ∧ add32 b a = a) ∧
    (IsInf32 a → add32 a a = a ∧ sub32 a a = 0x7FC00000 ∧ div32 a a = 0x7FC00000) ∧
    (IsInf32 a → IsInf32 b → a ≠ b → add32 a b = 0x7FC00000) ∧
    (IsInf32 a → IsInf32 b → div32 a b = 0x7FC00000) ∧
    (IsInf32 a → IsFinite32 b → value32 b = 0 → mul32 a b = 0x7FC00000 ∧ mul32 b a = 0x7FC00000) ∧
    (IsInf32 a → ¬IsNan32 b → (IsFinite32 b → value32 b ≠ 0) →
      mul32 a b = (if bit 31 a = bit 31 b then 0x7F800000 else 0xFF800000) ∧ mul32 b a = mul32 a b) ∧
    (IsInf32 a → IsFinite32 b → div32 a b = (if bit 31 a = bit 31 b then 0x7F800000 else 0xFF800000)) ∧
    (IsFinite32 a → IsInf32 b → div32 a b = (if bit 31 a = bit 31 b then 0x00000000 else 0x80000000)) ∧
    (IsFinite32 a → IsFinite32 b → value32 a ≠ 0 → value32 b = 0 →
      div32 a b = (if bit 31 a = bit 31 b then 0x7F800000 else 0xFF800000)) ∧
    (IsFinite32 a → IsFinite32 b → value32 a = 0 → value32 b = 0 → div32 a b = 0x7FC00000)

/-- 00_scope.md R10, R11: the sum and the difference of two finite words are the exact value rounded once; an exact zero sum is `+0`
unless both terms are `−0`. -/
def Obligations.AddAndSubAreCorrectlyRounded : Prop :=
  ∀ a b : Word, IsFinite32 a → IsFinite32 b →
    IsRne32 ((value32 a : ℝ) + value32 b) (add32 a b) ∧
    IsRne32 ((value32 a : ℝ) - value32 b) (sub32 a b) ∧
    (value32 a + value32 b = 0 → add32 a b = if a = 0x80000000 ∧ b = 0x80000000 then 0x80000000 else 0x00000000)

/-- 00_scope.md R10, R11: the product of two finite words is the exact value rounded once, with the XOR of the signs. -/
def Obligations.MulIsCorrectlyRounded : Prop :=
  ∀ a b : Word, IsFinite32 a → IsFinite32 b →
    IsRne32 ((value32 a : ℝ) * value32 b) (mul32 a b) ∧ bit 31 (mul32 a b) = (bit 31 a ^^ bit 31 b)

/-- 00_scope.md R10, R11: the quotient of two finite words, the divisor not zero, is the exact value rounded once, with the XOR of
the signs. -/
def Obligations.DivIsCorrectlyRounded : Prop :=
  ∀ a b : Word, IsFinite32 a → IsFinite32 b → value32 b ≠ 0 →
    IsRne32 ((value32 a : ℝ) / value32 b) (div32 a b) ∧ bit 31 (div32 a b) = (bit 31 a ^^ bit 31 b)

/-- 00_scope.md R14: `SUM32` of no term is `+0`, of one term the term, of more terms the sum of all but the last, plus the last. -/
def Obligations.SumIsLeftFold : Prop :=
  sum32 [] = 0x00000000 ∧ (∀ t, sum32 [t] = t) ∧
  ∀ (ts : List Word) (t : Word), ts ≠ [] → sum32 (ts ++ [t]) = add32 (sum32 ts) t

/-- 00_scope.md R15: `POW2H(p)` is `RNE32(2^(p/2))` for every integer `p`; it is never negative and never NaN. -/
def Obligations.PowersAreCorrectlyRounded : Prop :=
  ∀ p : Int, IsRne32 ((2 : ℝ) ^ ((p : ℝ) / 2)) (pow2h p) ∧ bit 31 (pow2h p) = false ∧ ¬IsNan32 (pow2h p)

/-- 43_qmf.md R156: every entry of the six twiddle ROMs is the correctly rounded value of its definition. -/
def Obligations.TwiddlesAreCorrectlyRounded : Prop :=
  (∀ k : Nat, k < 32 → ∀ n : Nat, n < 64 →
    IsRne32 (2 * Real.cos (Real.pi / 64 * ((k : ℝ) + 1 / 2) * (2 * (n : ℝ) - 1 / 2))) (tac k n) ∧
    IsRne32 (2 * Real.sin (Real.pi / 64 * ((k : ℝ) + 1 / 2) * (2 * (n : ℝ) - 1 / 2))) (tas k n) ∧
    IsRne32 (Real.cos (Real.pi / 64 * ((k : ℝ) + 1 / 2) * (2 * (n : ℝ) - 127))) (tsc32 k n) ∧
    IsRne32 (Real.sin (Real.pi / 64 * ((k : ℝ) + 1 / 2) * (2 * (n : ℝ) - 127))) (tss32 k n)) ∧
  (∀ k : Nat, k < 64 → ∀ n : Nat, n < 128 →
    IsRne32 (Real.cos (Real.pi / 128 * ((k : ℝ) + 1 / 2) * (2 * (n : ℝ) - 255))) (tsc64 k n) ∧
    IsRne32 (Real.sin (Real.pi / 128 * ((k : ℝ) + 1 / 2) * (2 * (n : ℝ) - 255))) (tss64 k n))
end

