-- ==== Sys2Proof/Laws/Memory.lean ====
section
/-! SUPPORT. What the memory operations do: one lemma for each of them about the byte read after it, the canonical form
kept by each, and the words and rows built on bytes. -/

namespace Sys2Proof.Machine

/-! ### Bytes -/

@[simp] theorem Memory.readByte_nil (a : Nat) : Memory.readByte [] a = 0 := rfl

theorem Memory.readByte_cons (x : Host.Cell) (m : Memory) (a : Nat) :
    Memory.readByte (x :: m) a = if x.1 = a then x.2 else Memory.readByte m a := rfl

theorem Memory.readByte_eq_zero_of_unlisted {m : Memory} {a : Nat} (h : ∀ x ∈ m, x.1 ≠ a) : m.readByte a = 0 := by
  induction m with
  | nil => rfl
  | cons x m ih =>
    rw [Memory.readByte_cons, if_neg (h x (by simp)), ih fun y hy => h y (by simp [hy])]

theorem Memory.readByte_append_unlisted {m : Memory} (n : Memory) {a : Nat} (h : ∀ x ∈ m, x.1 ≠ a) :
    Memory.readByte (m ++ n) a = n.readByte a := by
  induction m with
  | nil => rfl
  | cons x m ih =>
    rw [List.cons_append, Memory.readByte_cons, if_neg (h x (by simp)), ih fun y hy => h y (by simp [hy])]

theorem Memory.readByte_append_of_unlisted_right (m : Memory) {n : Memory} {a : Nat} (h : ∀ x ∈ n, x.1 ≠ a) :
    Memory.readByte (m ++ n) a = m.readByte a := by
  induction m with
  | nil => exact Memory.readByte_eq_zero_of_unlisted h
  | cons x m ih => rw [List.cons_append, Memory.readByte_cons, Memory.readByte_cons, ih]

/-- A filter that keeps every entry of an address keeps what it reads. -/
theorem Memory.readByte_filter_of_kept (m : Memory) (p : Host.Cell → Bool) {a : Nat}
    (h : ∀ x ∈ m, x.1 = a → p x = true) : Memory.readByte (m.filter p) a = m.readByte a := by
  induction m with
  | nil => rfl
  | cons x m ih =>
    have ih := ih fun y hy => h y (by simp [hy])
    by_cases hx : x.1 = a
    · rw [List.filter_cons_of_pos (h x (by simp) hx), Memory.readByte_cons, Memory.readByte_cons, if_pos hx, if_pos hx]
    · by_cases hp : p x = true
      · rw [List.filter_cons_of_pos hp, Memory.readByte_cons, Memory.readByte_cons, if_neg hx, if_neg hx, ih]
      · rw [List.filter_cons_of_neg hp, Memory.readByte_cons, if_neg hx, ih]

theorem Memory.mem_below {m : Memory} {b : Nat} {x : Host.Cell} : x ∈ m.below b ↔ x ∈ m ∧ x.1 < b := by
  simp [Memory.below]

theorem Memory.mem_above {m : Memory} {b : Nat} {x : Host.Cell} : x ∈ m.above b ↔ x ∈ m ∧ b ≤ x.1 := by
  simp [Memory.above]

theorem Memory.readByte_below (m : Memory) (b a : Nat) : (m.below b).readByte a = if a < b then m.readByte a else 0 := by
  split
  · exact Memory.readByte_filter_of_kept m _ fun x _ hx => by simpa [hx]
  · exact Memory.readByte_eq_zero_of_unlisted fun x hx => by have := (Memory.mem_below.mp hx).2; omega

theorem Memory.readByte_above (m : Memory) (b a : Nat) : (m.above b).readByte a = if b ≤ a then m.readByte a else 0 := by
  split
  · exact Memory.readByte_filter_of_kept m _ fun x _ hx => by simpa [hx]
  · exact Memory.readByte_eq_zero_of_unlisted fun x hx => by have := (Memory.mem_above.mp hx).2; omega

theorem Memory.cells_range {b : Nat} {bs : List Byte} {x : Host.Cell} (h : x ∈ Memory.cells b bs) :
    b ≤ x.1 ∧ x.1 < b + bs.length := by
  induction bs generalizing b with
  | nil => simp [Memory.cells] at h
  | cons y bs ih =>
    rw [Memory.cells] at h
    split at h
    · have := ih h
      simp only [List.length_cons]; omega
    · rcases List.mem_cons.mp h with rfl | h
      · simp
      · have := ih h
        simp only [List.length_cons]; omega

theorem Memory.readByte_cells (b : Nat) (bs : List Byte) (a : Nat) :
    (Memory.cells b bs).readByte a = if b ≤ a then bs.getD (a - b) 0 else 0 := by
  induction bs generalizing b with
  | nil => simp [Memory.cells]
  | cons y bs ih =>
    have key : (Memory.cells (b + 1) bs).readByte a = if b + 1 ≤ a then bs.getD (a - (b + 1)) 0 else 0 := ih (b + 1)
    rw [Memory.cells]
    by_cases hab : a = b
    · subst hab
      split <;> rename_i hy
      · rw [key]; simp [hy]
      · simp [Memory.readByte_cons]
    · have hread : Memory.readByte (if y = 0 then Memory.cells (b + 1) bs else (b, y) :: Memory.cells (b + 1) bs) a
          = (Memory.cells (b + 1) bs).readByte a := by
        split
        · rfl
        · rw [Memory.readByte_cons, if_neg (by simpa using fun h => hab h.symm)]
      rw [hread, key]
      by_cases hb : b ≤ a
      · have h1 : b + 1 ≤ a := by omega
        obtain ⟨d, rfl⟩ : ∃ d, a = b + 1 + d := ⟨a - (b + 1), by omega⟩
        rw [if_pos h1, if_pos hb, show b + 1 + d - (b + 1) = d by omega, show b + 1 + d - b = d + 1 by omega,
          List.getD_cons_succ]
      · rw [if_neg (by omega), if_neg hb]

/-- A byte read after a store of bytes: the stored byte inside, what was there outside. -/
theorem Memory.readByte_writeBytes (m : Memory) (b : Nat) (bs : List Byte) (a : Nat) :
    (m.writeBytes b bs).readByte a = if b ≤ a ∧ a < b + bs.length then bs.getD (a - b) 0 else m.readByte a := by
  have hcells : ∀ {a : Nat}, ¬(b ≤ a ∧ a < b + bs.length) → ∀ x ∈ Memory.cells b bs, x.1 ≠ a := by
    intro a h x hx he
    have := Memory.cells_range hx
    omega
  by_cases h1 : a < b
  · rw [if_neg (by omega), Memory.writeBytes, List.append_assoc, Memory.readByte_append_of_unlisted_right,
      Memory.readByte_below, if_pos h1]
    intro x hx
    rcases List.mem_append.mp hx with hx | hx
    · exact hcells (by omega) x hx
    · have := (Memory.mem_above.mp hx).2; omega
  · have hbelow : ∀ x ∈ m.below b, x.1 ≠ a := fun x hx => by have := (Memory.mem_below.mp hx).2; omega
    rw [Memory.writeBytes, List.append_assoc, Memory.readByte_append_unlisted _ hbelow]
    by_cases h2 : a < b + bs.length
    · rw [if_pos (by omega), Memory.readByte_append_of_unlisted_right _ fun x hx => by
        have := (Memory.mem_above.mp hx).2; omega, Memory.readByte_cells, if_pos (by omega)]
    · rw [if_neg (by omega), Memory.readByte_append_unlisted _ (hcells (by omega)), Memory.readByte_above,
        if_pos (by omega)]

theorem Memory.readByte_writeBytes_outside {m : Memory} {b : Nat} {bs : List Byte} {a : Nat}
    (h : ¬(b ≤ a ∧ a < b + bs.length)) : (m.writeBytes b bs).readByte a = m.readByte a := by
  rw [Memory.readByte_writeBytes, if_neg h]

/-- A byte read after a range was cleared. -/
theorem Memory.readByte_clear (m : Memory) (b n a : Nat) :
    (m.clear b n).readByte a = if b ≤ a ∧ a < b + n then 0 else m.readByte a := by
  by_cases h1 : a < b
  · rw [if_neg (by omega), Memory.clear, Memory.readByte_append_of_unlisted_right _ fun x hx => by
      have := (Memory.mem_above.mp hx).2; omega, Memory.readByte_below, if_pos h1]
  · rw [Memory.clear, Memory.readByte_append_unlisted _ fun x hx => by
      have := (Memory.mem_below.mp hx).2; omega, Memory.readByte_above]
    by_cases h2 : a < b + n
    · rw [if_neg (show ¬(b + n ≤ a) by omega), if_pos (show b ≤ a ∧ a < b + n by omega)]
    · rw [if_pos (show b + n ≤ a by omega), if_neg (show ¬(b ≤ a ∧ a < b + n) by omega)]

/-! ### The canonical form -/

theorem Memory.wf_nil : Memory.wf [] := by simp [Memory.wf]

theorem Memory.wf_filter {m : Memory} (h : m.wf) (p : Host.Cell → Bool) : Memory.wf (m.filter p) :=
  ⟨h.1.filter p, fun x hx => h.2 x (List.mem_filter.mp hx).1⟩

theorem Memory.wf_append {m n : Memory} (hm : m.wf) (hn : n.wf) (h : ∀ x ∈ m, ∀ y ∈ n, x.1 < y.1) :
    Memory.wf (m ++ n) :=
  ⟨List.pairwise_append.mpr ⟨hm.1, hn.1, h⟩, fun x hx => (List.mem_append.mp hx).elim (hm.2 x) (hn.2 x)⟩

theorem Memory.wf_cells (b : Nat) (bs : List Byte) : Memory.wf (Memory.cells b bs) := by
  induction bs generalizing b with
  | nil => exact Memory.wf_nil
  | cons y bs ih =>
    rw [Memory.cells]
    split <;> rename_i hy
    · exact ih (b + 1)
    · refine ⟨List.pairwise_cons.mpr ⟨fun x hx => ?_, (ih (b + 1)).1⟩, fun x hx => ?_⟩
      · have := Memory.cells_range hx
        show b < x.1
        omega
      · rcases List.mem_cons.mp hx with rfl | hx
        · exact hy
        · exact (ih (b + 1)).2 x hx

theorem Memory.wf_writeBytes {m : Memory} (h : m.wf) (b : Nat) (bs : List Byte) : (m.writeBytes b bs).wf := by
  refine Memory.wf_append (Memory.wf_append (Memory.wf_filter h _) (Memory.wf_cells b bs) fun x hx y hy => ?_)
    (Memory.wf_filter h _) fun x hx y hy => ?_
  · have := (Memory.mem_below.mp hx).2
    have := Memory.cells_range hy
    omega
  · have hy := (Memory.mem_above.mp hy).2
    rcases List.mem_append.mp hx with hx | hx
    · have := (Memory.mem_below.mp hx).2
      omega
    · have := Memory.cells_range hx
      omega

theorem Memory.wf_clear {m : Memory} (h : m.wf) (b n : Nat) : (m.clear b n).wf :=
  Memory.wf_append (Memory.wf_filter h _) (Memory.wf_filter h _) fun x hx y hy => by
    have := (Memory.mem_below.mp hx).2
    have := (Memory.mem_above.mp hy).2
    omega

theorem Memory.wf_writeWords {m : Memory} (h : m.wf) (a : Nat) (ws : List Word) : (m.writeWords a ws).wf :=
  Memory.wf_writeBytes h _ _

theorem Memory.wf_setRow {m : Memory} (h : m.wf) (r : Ram) (c : Ch) (s k : Nat) (ws : List Word) :
    (m.setRow r c s k ws).wf :=
  Memory.wf_writeWords h _ _

/-- A loop of operations that keep the canonical form keeps it. -/
theorem Memory.wf_foldl {α : Type} {f : Memory → α → Memory} (hf : ∀ m x, Memory.wf m → Memory.wf (f m x))
    (xs : List α) {m : Memory} (h : m.wf) : Memory.wf (xs.foldl f m) := by
  induction xs generalizing m with
  | nil => exact h
  | cons x xs ih => exact ih (hf m x h)

/-- Two memories in canonical form that read the same everywhere are equal. -/
theorem Memory.eq_of_readByte {m n : Memory} (hm : m.wf) (hn : n.wf) (h : ∀ a, m.readByte a = n.readByte a) :
    m = n := by
  induction m generalizing n with
  | nil =>
    cases n with
    | nil => rfl
    | cons y n =>
      have := h y.1
      rw [Memory.readByte_cons, if_pos rfl] at this
      exact absurd this.symm (hn.2 y (by simp))
  | cons x m ih =>
    cases n with
    | nil =>
      have := h x.1
      rw [Memory.readByte_cons, if_pos rfl] at this
      exact absurd this (hm.2 x (by simp))
    | cons y n =>
      have hxm := List.pairwise_cons.mp hm.1
      have hyn := List.pairwise_cons.mp hn.1
      have unlistedX : ∀ a ≤ x.1, Memory.readByte m a = 0 := fun a ha =>
        Memory.readByte_eq_zero_of_unlisted fun z hz => by have := hxm.1 z hz; omega
      have unlistedY : ∀ a ≤ y.1, Memory.readByte n a = 0 := fun a ha =>
        Memory.readByte_eq_zero_of_unlisted fun z hz => by have := hyn.1 z hz; omega
      have hkey : x.1 = y.1 := by
        rcases Nat.lt_trichotomy x.1 y.1 with hlt | heq | hgt
        · have := h x.1
          rw [Memory.readByte_cons, Memory.readByte_cons, if_pos rfl, if_neg (by omega), unlistedY _ (by omega)] at this
          exact absurd this (hm.2 x (by simp))
        · exact heq
        · have := h y.1
          rw [Memory.readByte_cons, Memory.readByte_cons, if_pos rfl, if_neg (by omega), unlistedX _ (by omega)] at this
          exact absurd this.symm (hn.2 y (by simp))
      have hval : x.2 = y.2 := by
        have := h x.1
        rwa [Memory.readByte_cons, Memory.readByte_cons, if_pos rfl, if_pos hkey.symm] at this
      have htail : m = n := by
        refine ih ⟨hxm.2, fun z hz => hm.2 z (by simp [hz])⟩ ⟨hyn.2, fun z hz => hn.2 z (by simp [hz])⟩ fun a => ?_
        by_cases ha : a = x.1
        · rw [ha, unlistedX _ (by omega), unlistedY _ (by omega)]
        · have := h a
          rwa [Memory.readByte_cons, Memory.readByte_cons, if_neg (by omega), if_neg (by omega)] at this
      rw [htail, Prod.ext hkey hval]

/-! ### Words -/

theorem Memory.readWord_congr {m n : Memory} {a : Nat} (h : ∀ i < 4, m.readByte (a + i) = n.readByte (a + i)) :
    m.readWord a = n.readWord a := by
  have h0 := h 0 (by omega)
  have h1 := h 1 (by omega)
  have h2 := h 2 (by omega)
  have h3 := h 3 (by omega)
  simp only [Nat.add_zero] at h0
  rw [Memory.readWord, Memory.readWord, h0, h1, h2, h3]

@[simp] theorem wordBytes_length (w : Word) : (wordBytes w).length = 4 := rfl

@[simp] theorem flatMap_wordBytes_length (ws : List Word) : (ws.flatMap wordBytes).length = 4 * ws.length := by
  induction ws with
  | nil => rfl
  | cons w ws ih => rw [List.flatMap_cons, List.length_append, ih, wordBytes_length, List.length_cons]; omega

/-- A word is its four bytes, the lowest address first (20_memory.md R66). -/
theorem word_of_bytes (w : Word) :
    BitVec.ofNat 32 ((byteOf 0 w).toNat + 2 ^ 8 * (byteOf 1 w).toNat + 2 ^ 16 * (byteOf 2 w).toNat
      + 2 ^ 24 * (byteOf 3 w).toNat) = w := by
  apply BitVec.eq_of_toNat_eq
  have := w.isLt
  simp only [byteOf, field, BitVec.toNat_ofNat]
  omega

theorem getD_flatMap_wordBytes (ws : List Word) (i j : Nat) (hj : j < 4) (hi : i < ws.length) :
    (ws.flatMap wordBytes).getD (4 * i + j) 0 = byteOf j (ws.getD i 0) := by
  induction ws generalizing i with
  | nil => simp at hi
  | cons w ws ih =>
    rw [List.flatMap_cons]
    cases i with
    | zero =>
      rw [List.getD_append _ _ _ _ (by simpa using hj)]
      have : j = 0 ∨ j = 1 ∨ j = 2 ∨ j = 3 := by omega
      rcases this with rfl | rfl | rfl | rfl <;> rfl
    | succ i =>
      rw [List.getD_append_right _ _ _ _ (by simp; omega), wordBytes_length,
        show 4 * (i + 1) + j - 4 = 4 * i + j by omega, ih i (by simpa using hi), List.getD_cons_succ]

/-- A byte read after a store of words. -/
theorem Memory.readByte_writeWords_outside {m : Memory} {b : Nat} {ws : List Word} {a : Nat}
    (h : ¬(b ≤ a ∧ a < b + 4 * ws.length)) : (m.writeWords b ws).readByte a = m.readByte a :=
  Memory.readByte_writeBytes_outside (by rwa [flatMap_wordBytes_length])

/-- A word read where a store of words put one. -/
theorem Memory.readWord_writeWords (m : Memory) (b : Nat) (ws : List Word) {i : Nat} (hi : i < ws.length) :
    (m.writeWords b ws).readWord (b + 4 * i) = ws.getD i 0 := by
  have byteAt : ∀ j < 4, (m.writeWords b ws).readByte (b + 4 * i + j) = byteOf j (ws.getD i 0) := by
    intro j hj
    rw [Memory.writeWords, Memory.readByte_writeBytes, if_pos (by simp; omega),
      show b + 4 * i + j - b = 4 * i + j by omega, getD_flatMap_wordBytes ws i j hj hi]
  rw [Memory.readWord, byteAt 1 (by omega), byteAt 2 (by omega), byteAt 3 (by omega),
    show (m.writeWords b ws).readByte (b + 4 * i) = byteOf 0 (ws.getD i 0) from byteAt 0 (by omega), word_of_bytes]

/-- A word read clear of a store of words. -/
theorem Memory.readWord_writeWords_outside {m : Memory} {b : Nat} {ws : List Word} {a : Nat}
    (h : a + 4 ≤ b ∨ b + 4 * ws.length ≤ a) : (m.writeWords b ws).readWord a = m.readWord a :=
  Memory.readWord_congr fun i hi => Memory.readByte_writeWords_outside (by omega)

@[simp] theorem Memory.readWords_length (m : Memory) (a n : Nat) : (m.readWords a n).length = n := by
  simp [Memory.readWords]

/-- Word `i` of a run of words. -/
theorem Memory.readWords_getD (m : Memory) (a n : Nat) {i : Nat} (hi : i < n) :
    (m.readWords a n).getD i 0 = m.readWord (a + 4 * i) := by
  rw [Memory.readWords, List.getD_eq_getElem _ _ (by simpa using hi)]
  simp only [List.getElem_map, List.getElem_range]
  refine Memory.readWord_congr fun j hj => ?_
  rw [Memory.readByte_below, if_pos (by omega), Memory.readByte_above, if_pos (by omega)]

/-- A run of words depends only on the words in it. -/
theorem Memory.readWords_eq_map (m : Memory) (a n : Nat) :
    m.readWords a n = (List.range n).map fun i => m.readWord (a + 4 * i) := by
  refine List.ext_getElem (by simp) fun i h1 h2 => ?_
  have hi : i < n := by simpa using h1
  have := m.readWords_getD a n hi
  rw [List.getD_eq_getElem _ _ h1] at this
  simpa using this

theorem Memory.readWords_add (m : Memory) (a n k : Nat) :
    m.readWords a (n + k) = m.readWords a n ++ m.readWords (a + 4 * n) k := by
  simp only [Memory.readWords_eq_map, List.range_add, List.map_append, List.map_map]
  congr 1
  refine List.map_congr_left fun i _ => ?_
  simp only [Function.comp]
  congr 1
  omega

/-- A block read row by row is the run of its words. -/
theorem Memory.readBlock_eq_readWords (m : Memory) (a rows n : Nat) : m.readBlock a rows n = m.readWords a (n * rows) := by
  induction rows with
  | zero => simp [Memory.readBlock, Memory.readWords]
  | succ k ih =>
    have hstep : m.readBlock a (k + 1) n = m.readBlock a k n ++ m.readWords (a + 4 * (n * k)) n := by
      simp [Memory.readBlock, List.range_succ]
    rw [hstep, ih, Nat.mul_succ, Memory.readWords_add]

/-! ### Elements and rows -/

theorem Ram.addr_succ (r : Ram) (c : Ch) (s k j : Nat) : r.addr c s (k + j) = r.addr c s k + 4 * (r.parts * j) := by
  simp only [Ram.addr, Nat.mul_add]
  omega

/-- Element `j` of a real row. -/
theorem Memory.realRow_getD (m : Memory) (r : Ram) (c : Ch) (s k n : Nat) (hr : r.parts = 1) {j : Nat} (hj : j < n) :
    (m.realRow r c s k n).getD j 0 = m.real r c s (k + j) := by
  rw [Memory.realRow, Memory.readWords_getD _ _ _ hj, Memory.real, Ram.addr_succ, hr, Nat.one_mul]

@[simp] theorem Memory.realRow_length (m : Memory) (r : Ram) (c : Ch) (s k n : Nat) :
    (m.realRow r c s k n).length = n := by
  simp [Memory.realRow]

@[simp] theorem Memory.cplxWords_length (m : Memory) (r : Ram) (c : Ch) (s k n : Nat) :
    (m.cplxWords r c s k n).length = 2 * n := by
  simp [Memory.cplxWords]

/-- The words of a complex row: part `p` of element `j`. -/
theorem Memory.cplxWords_getD (m : Memory) (r : Ram) (c : Ch) (s k n : Nat) (hr : r.parts = 2) {j p : Nat} (hj : j < n)
    (hp : p < 2) : (m.cplxWords r c s k n).getD (2 * j + p) 0 = m.readWord (r.addr c s (k + j) + 4 * p) := by
  rw [Memory.cplxWords, Memory.readWords_getD _ _ _ (by omega), Ram.addr_succ, hr]
  congr 1
  omega

theorem pairUp_eq_map (f : Nat → Word) (n : Nat) :
    pairUp ((List.range (2 * n)).map f) = (List.range n).map fun k => ⟨f (2 * k), f (2 * k + 1)⟩ := by
  induction n generalizing f with
  | zero => rfl
  | succ n ih =>
    have hsplit : (List.range (2 * (n + 1))).map f = f 0 :: f 1 :: (List.range (2 * n)).map fun i => f (i + 2) := by
      rw [show 2 * (n + 1) = 2 * n + 1 + 1 by omega, List.range_succ_eq_map, List.map_cons, List.map_map,
        List.range_succ_eq_map, List.map_cons, List.map_map]
      rfl
    rw [hsplit, pairUp, ih, List.range_succ_eq_map, List.map_cons, List.map_map]
    rfl

/-- A complex row is its elements. -/
theorem Memory.cplxRow_eq_map (m : Memory) (r : Ram) (c : Ch) (s k n : Nat) (hr : r.parts = 2) :
    m.cplxRow r c s k n = (List.range n).map fun j => m.cplx r c s (k + j) := by
  rw [Memory.cplxRow, Memory.cplxWords, Memory.readWords_eq_map, pairUp_eq_map]
  refine List.map_congr_left fun j _ => ?_
  rw [Memory.cplx, Ram.addr_succ, hr, show r.addr c s k + 4 * (2 * j + 1) = r.addr c s k + 4 * (2 * j) + 4 by omega]

@[simp] theorem Memory.cplxRow_length (m : Memory) (r : Ram) (c : Ch) (s k n : Nat) (hr : r.parts = 2) :
    (m.cplxRow r c s k n).length = n := by
  rw [Memory.cplxRow_eq_map _ _ _ _ _ _ hr, List.length_map, List.length_range]

@[simp] theorem unpair_length (zs : List Cplx) : (unpair zs).length = 2 * zs.length := by
  induction zs with
  | nil => rfl
  | cons z zs ih =>
    simp only [unpair, List.flatMap_cons, List.length_append, List.length_cons, List.length_nil] at ih ⊢
    omega

theorem unpair_getD (zs : List Cplx) (d : Cplx) {j : Nat} (hj : j < zs.length) :
    (unpair zs).getD (2 * j) 0 = (zs.getD j d).re ∧ (unpair zs).getD (2 * j + 1) 0 = (zs.getD j d).im := by
  induction zs generalizing j with
  | nil => simp at hj
  | cons z zs ih =>
    have hcons : unpair (z :: zs) = z.re :: z.im :: unpair zs := rfl
    cases j with
    | zero => exact ⟨rfl, rfl⟩
    | succ j =>
      have := ih (j := j) (by simpa using hj)
      rw [hcons, show 2 * (j + 1) = 2 * j + 1 + 1 by omega, show 2 * j + 1 + 1 + 1 = (2 * j + 1) + 1 + 1 by omega]
      simpa only [List.getD_cons_succ] using this

/-- A byte read clear of a stored row. -/
theorem Memory.readByte_setRow_outside {m : Memory} {r : Ram} {c : Ch} {s k : Nat} {ws : List Word} {a : Nat}
    (h : ¬(r.addr c s k ≤ a ∧ a < r.addr c s k + 4 * ws.length)) : (m.setRow r c s k ws).readByte a = m.readByte a :=
  Memory.readByte_writeWords_outside h

/-- A word read clear of a stored row. -/
theorem Memory.readWord_setRow_outside {m : Memory} {r : Ram} {c : Ch} {s k : Nat} {ws : List Word} {a : Nat}
    (h : a + 4 ≤ r.addr c s k ∨ r.addr c s k + 4 * ws.length ≤ a) : (m.setRow r c s k ws).readWord a = m.readWord a :=
  Memory.readWord_writeWords_outside h

/-- Element `k + j` of a real row just stored. -/
theorem Memory.real_setRow (m : Memory) (r : Ram) (c : Ch) (s k : Nat) (ws : List Word) (hr : r.parts = 1) {j : Nat}
    (hj : j < ws.length) : (m.setRow r c s k ws).real r c s (k + j) = ws.getD j 0 := by
  rw [Memory.real, Ram.addr_succ, hr, Nat.one_mul, Memory.setRow, Memory.readWord_writeWords _ _ _ hj]

/-- Element `k + j` of a complex row just stored, from its words. -/
theorem Memory.cplx_setRow (m : Memory) (r : Ram) (c : Ch) (s k : Nat) (ws : List Word) (hr : r.parts = 2) {j : Nat}
    (hj : 2 * j + 1 < ws.length) :
    (m.setRow r c s k ws).cplx r c s (k + j) = ⟨ws.getD (2 * j) 0, ws.getD (2 * j + 1) 0⟩ := by
  have h0 : r.addr c s (k + j) = r.addr c s k + 4 * (2 * j) := by rw [Ram.addr_succ, hr]
  have h1 : r.addr c s k + 4 * (2 * j) + 4 = r.addr c s k + 4 * (2 * j + 1) := by omega
  rw [Memory.cplx, h0, h1, Memory.setRow, Memory.readWord_writeWords _ _ _ (by omega),
    Memory.readWord_writeWords _ _ _ hj]

/-- A loop of operations that leave a byte as it was leaves it as it was. -/
theorem Memory.readByte_foldl {α : Type} {f : Memory → α → Memory} {a : Nat} {xs : List α}
    (hf : ∀ m, ∀ x ∈ xs, (f m x).readByte a = m.readByte a) (m : Memory) :
    (xs.foldl f m).readByte a = m.readByte a := by
  induction xs generalizing m with
  | nil => rfl
  | cons x xs ih =>
    rw [List.foldl_cons, ih fun m y hy => hf m y (by simp [hy]), hf m x (by simp)]

end Sys2Proof.Machine
end

