-- ==== Sys2Proof/Laws/PerInstr.lean ====
section
/-! SUPPORT. Per command: its encoding carries its opcode in `OP` and has every reserved bit 0 (30_encoding.md R85, R87). -/

namespace Sys2Proof.Laws.Encoding

open Sys2Proof

/-- The word of a well-formed command has its opcode in bits 31:26 and no reserved bit set. -/
def Statement (i : Instr) : Prop :=
  i.wf = true → field 31 26 (encode i) = i.opcode.code ∧ reservedClear i.opcode (encode i) = true

theorem nop : Statement .nop := fun _ => by decide

theorem resetCh (c : Ch) (mask : Nat) : Statement (.resetCh c mask) := fun h => by
  have := c.isLt
  simp only [Instr.wf, decide_eq_true_eq] at h
  simp [field, encode, packB, packN, Opcode.code, Instr.opcode, reservedClear, reservedFields]
  omega

theorem shiftLow (c : Ch) : Statement (.shiftLow c) := fun _ => by
  have := c.isLt
  simp [field, encode, packN, Opcode.code, Instr.opcode, reservedClear, reservedFields]
  omega

theorem qmfAna (c : Ch) (klim l0 nl : Nat) : Statement (.qmfAna c klim l0 nl) := fun h => by
  have := c.isLt
  simp only [Instr.wf, Bool.and_eq_true, decide_eq_true_eq] at h
  simp [field, encode, packB, packN, Opcode.code, Instr.opcode, reservedClear, reservedFields]
  omega

theorem spliceX (c : Ch) (kx mb : Nat) (r : Bool) : Statement (.spliceX c kx mb r) := fun h => by
  have := c.isLt
  simp only [Instr.wf, Bool.and_eq_true, decide_eq_true_eq] at h
  have := r.toNat_le
  simp [field, encode, packB, packN, Opcode.code, Instr.opcode, reservedClear, reservedFields]
  omega

theorem envMul (c : Ch) (j0 nj m0 nm : Nat) : Statement (.envMul c j0 nj m0 nm) := fun h => by
  have := c.isLt
  simp only [Instr.wf, Bool.and_eq_true, decide_eq_true_eq] at h
  simp [field, encode, packE, packN, Opcode.code, Instr.opcode, reservedClear, reservedFields]
  omega

theorem envMac (c : Ch) (j0 nj m0 nm : Nat) : Statement (.envMac c j0 nj m0 nm) := fun h => by
  have := c.isLt
  simp only [Instr.wf, Bool.and_eq_true, decide_eq_true_eq] at h
  simp [field, encode, packE, packN, Opcode.code, Instr.opcode, reservedClear, reservedFields]
  omega

theorem qmfSyn (c : Ch) (l0 nl : Nat) : Statement (.qmfSyn c l0 nl) := fun h => by
  have := c.isLt
  simp only [Instr.wf, Bool.and_eq_true, decide_eq_true_eq] at h
  simp [field, encode, packB, packN, Opcode.code, Instr.opcode, reservedClear, reservedFields]
  omega

theorem savePrev (c : Ch) : Statement (.savePrev c) := fun _ => by
  have := c.isLt
  simp [field, encode, packN, Opcode.code, Instr.opcode, reservedClear, reservedFields]
  omega

theorem deqEnv (c : Ch) : Statement (.deqEnv c) := fun _ => by
  have := c.isLt
  simp [field, encode, packN, Opcode.code, Instr.opcode, reservedClear, reservedFields]
  omega

theorem deqNoise (c : Ch) : Statement (.deqNoise c) := fun _ => by
  have := c.isLt
  simp [field, encode, packN, Opcode.code, Instr.opcode, reservedClear, reservedFields]
  omega

theorem deqEnvCpl : Statement .deqEnvCpl := fun _ => by decide

theorem deqNoiseCpl : Statement .deqNoiseCpl := fun _ => by decide

end Sys2Proof.Laws.Encoding
end

