-- ==== Sys2Proof/Laws/State.lean ====
section
/-! SUPPORT. One lemma per field per update of the state, so that no proof unfolds a record update; and for each shared
operation on the state one lemma that says all it can do. -/

namespace Sys2Proof.Machine

/-! ### The end of a command -/

section EndOk
variable (s : State) (m : Memory)
@[simp] theorem State.endOk_regs : (s.endOk m).regs = s.regs.endOk := rfl
@[simp] theorem State.endOk_mem : (s.endOk m).mem = m := rfl
@[simp] theorem State.endOk_pending : (s.endOk m).pending = none := rfl
@[simp] theorem State.endOk_held : (s.endOk m).held = s.held := rfl
@[simp] theorem State.endOk_host : (s.endOk m).host = s.host := rfl
@[simp] theorem State.endOk_resp : (s.endOk m).resp = s.resp := rfl
end EndOk

section EndErr
variable (s : State) (e : CmdError)
@[simp] theorem State.endErr_regs : (s.endErr e).regs = s.regs.endErr e := rfl
@[simp] theorem State.endErr_mem : (s.endErr e).mem = s.mem := rfl
@[simp] theorem State.endErr_pending : (s.endErr e).pending = none := rfl
@[simp] theorem State.endErr_held : (s.endErr e).held = s.held := rfl
@[simp] theorem State.endErr_host : (s.endErr e).host = s.host := rfl
@[simp] theorem State.endErr_resp : (s.endErr e).resp = s.resp := rfl
end EndErr

section RegsEnd
variable (r : Regs) (e : CmdError)
@[simp] theorem Regs.endOk_status : r.endOk.status = statusAfterOk r.status := rfl
@[simp] theorem Regs.endOk_cmdcnt : r.endOk.cmdcnt = r.cmdcnt + 1 := rfl
@[simp] theorem Regs.endOk_ctrl : r.endOk.ctrl = r.ctrl := rfl
@[simp] theorem Regs.endOk_cmd : r.endOk.cmd = r.cmd := rfl
@[simp] theorem Regs.endOk_cfg : r.endOk.cfg = r.cfg := rfl
@[simp] theorem Regs.endErr_status : (r.endErr e).status = statusAfterErr e r.status := rfl
@[simp] theorem Regs.endErr_cmdcnt : (r.endErr e).cmdcnt = r.cmdcnt := rfl
@[simp] theorem Regs.endErr_ctrl : (r.endErr e).ctrl = r.ctrl := rfl
@[simp] theorem Regs.endErr_cmd : (r.endErr e).cmd = r.cmd := rfl
@[simp] theorem Regs.endErr_cfg : (r.endErr e).cfg = r.cfg := rfl
end RegsEnd

/-! ### Issuing a command and the resets -/

section Issue
variable (s : State) (w : Word) (k : Nat)
@[simp] theorem State.issue_pending : (s.issue w k).pending = some ⟨w, k⟩ := rfl
@[simp] theorem State.issue_cmd : (s.issue w k).regs.cmd = w := rfl
@[simp] theorem State.issue_status : (s.issue w k).regs.status = s.regs.status ||| busyMask := rfl
@[simp] theorem State.issue_mem : (s.issue w k).mem = s.mem := rfl
@[simp] theorem State.issue_held : (s.issue w k).held = s.held := rfl
@[simp] theorem State.issue_host : (s.issue w k).host = s.host := rfl
@[simp] theorem State.issue_resp : (s.issue w k).resp = s.resp := rfl
end Issue

section SoftReset
variable (s : State)
@[simp] theorem State.softReset_regs : s.softReset.regs = Regs.reset := rfl
@[simp] theorem State.softReset_mem : s.softReset.mem = s.mem.filter fun c => inCram c.1 := rfl
@[simp] theorem State.softReset_pending : s.softReset.pending = none := rfl
@[simp] theorem State.softReset_held : s.softReset.held = s.held := rfl
@[simp] theorem State.softReset_host : s.softReset.host = s.host := rfl
@[simp] theorem State.softReset_resp : s.softReset.resp = s.resp := rfl
end SoftReset

/-! ### Commands -/

/-- A command that passes its checks ends without error, with its effect on memory. -/
theorem State.command_none (s : State) (f : Memory → Memory) : s.command none f = .next (s.endOk (f s.mem)) := rfl

/-- A command that fails a check ends with that error. -/
theorem State.command_some (s : State) (e : CmdError) (f : Memory → Memory) :
    s.command (some e) f = .next (s.endErr e) := rfl

/-- All a command can do: end with its error, or end without one. -/
theorem State.command_cases {s t : State} {err : Option CmdError} {f : Memory → Memory}
    (h : s.command err f = .next t) :
    (∃ e, err = some e ∧ t = s.endErr e) ∨ (err = none ∧ t = s.endOk (f s.mem)) := by
  cases err with
  | some e => exact .inl ⟨e, rfl, (Host.Outcome.next.inj h).symm⟩
  | none => exact .inr ⟨rfl, (Host.Outcome.next.inj h).symm⟩

@[simp] theorem failing_true (e : CmdError) : failing e true = none := rfl
@[simp] theorem failing_false (e : CmdError) : failing e false = some e := rfl

theorem failing_eq_none {e : CmdError} {b : Bool} : failing e b = none ↔ b = true := by cases b <;> simp

theorem failing_eq_some {e e' : CmdError} {b : Bool} : failing e b = some e' ↔ b = false ∧ e' = e := by
  cases b <;> simp [eq_comm]

theorem firstError_pair_none {a b : Option CmdError} : firstError [a, b] = none ↔ a = none ∧ b = none := by
  cases a <;> cases b <;> simp [firstError]

/-! ### The bus -/

/-- An access changes the registers, the memory and the pending command only: not the accesses in flight. -/
theorem State.access_queues (s : State) (a : Access) :
    (s.access a).2.held = s.held ∧ (s.access a).2.host = s.host ∧ (s.access a).2.resp = s.resp := by
  cases a with
  | read addr size =>
    simp only [State.access]
    split <;> exact ⟨rfl, rfl, rfl⟩
  | write addr size data =>
    simp only [State.access]
    split
    · split
      · simp only [State.writeReg]
        split <;> first | exact ⟨rfl, rfl, rfl⟩ | (split <;> exact ⟨rfl, rfl, rfl⟩)
      · exact ⟨rfl, rfl, rfl⟩
    · exact ⟨rfl, rfl, rfl⟩

@[simp] theorem State.complete_held (s : State) (a : Access) : (s.complete a).held = s.held := (s.access_queues a).1
@[simp] theorem State.complete_host (s : State) (a : Access) : (s.complete a).host = s.host := (s.access_queues a).2.1
@[simp] theorem State.complete_resp (s : State) (a : Access) : (s.complete a).resp = s.resp ++ [(a, (s.access a).1)] := by
  simp [State.complete, (s.access_queues a).2.2]
@[simp] theorem State.complete_regs (s : State) (a : Access) : (s.complete a).regs = (s.access a).2.regs := rfl
@[simp] theorem State.complete_mem (s : State) (a : Access) : (s.complete a).mem = (s.access a).2.mem := rfl
@[simp] theorem State.complete_pending (s : State) (a : Access) : (s.complete a).pending = (s.access a).2.pending := rfl

/-- A read leaves the state as it is. -/
@[simp] theorem State.access_read (s : State) (addr : BitVec 20) (size : Nat) :
    (s.access (.read addr size)).2 = s := by
  simp only [State.access]
  split <;> rfl

/-- All a waiting step can do: nothing arrives, a `STATUS` read completes, or another access is held. -/
theorem State.waitStep_cases (s : State) (w : Word) (k : Nat) :
    (s.host = [] ∧ s.waitStep w k = { s with pending := some ⟨w, k⟩ }) ∨
    (∃ a rest, s.host = a :: rest ∧ a.isStatusRead = true ∧
      s.waitStep w k = { s with pending := some ⟨w, k⟩, host := rest }.complete a) ∨
    (∃ a rest, s.host = a :: rest ∧ a.isStatusRead = false ∧
      s.waitStep w k = { s with pending := some ⟨w, k⟩, host := rest, held := s.held ++ [a] }) := by
  cases hh : s.host with
  | nil => exact .inl ⟨rfl, by simp [State.waitStep, hh]⟩
  | cons a rest =>
    cases ha : a.isStatusRead with
    | true => exact .inr (.inl ⟨a, rest, rfl, ha, by simp [State.waitStep, State.arriveBusy, hh, ha]⟩)
    | false => exact .inr (.inr ⟨a, rest, rfl, ha, by simp [State.waitStep, State.arriveBusy, hh, ha]⟩)

/-- All an idle step can do: the oldest held access completes, else the next issued one, else nothing happens. -/
theorem State.idleStep_cases (s : State) :
    (∃ a rest, s.held = a :: rest ∧ s.idleStep = { s with held := rest }.complete a) ∨
    (s.held = [] ∧ ∃ a rest, s.host = a :: rest ∧ s.idleStep = { s with host := rest }.complete a) ∨
    (s.held = [] ∧ s.host = [] ∧ s.idleStep = s) := by
  cases hh : s.held with
  | cons a rest => exact .inl ⟨a, rest, rfl, by simp [State.idleStep, hh]⟩
  | nil =>
    cases ho : s.host with
    | cons a rest => exact .inr (.inl ⟨rfl, a, rest, rfl, by simp [State.idleStep, hh, ho]⟩)
    | nil => exact .inr (.inr ⟨rfl, rfl, by simp [State.idleStep, hh, ho]⟩)

/-! ### The step -/

theorem step_of_ready {s : State} {w : Word} (h : s.pending = some ⟨w, 0⟩) : step s = runWord w s := by
  simp [step, h]

theorem step_of_waiting {s : State} {w : Word} {k : Nat} (h : s.pending = some ⟨w, k + 1⟩) :
    step s = .next (s.waitStep w k) := by
  simp [step, h]

theorem step_of_idle {s : State} (h : s.pending = none) : step s = .next s.idleStep := by
  simp [step, h]

theorem runWord_of_error {w : Word} {e : CmdError} (h : decode w = .error e) (s : State) :
    runWord w s = .next (s.endErr e) := by
  simp [runWord, h]

theorem runWord_of_ok {w : Word} {i : Instr} (h : decode w = .ok i) (s : State) : runWord w s = exec i s := by
  simp [runWord, h]

end Sys2Proof.Machine
end

