-- ==== Sys2Proof/Tests/Slice0.lean ====
section
/-! SUPPORT. Named tests: the well-formedness smoke test, one word per command written out from the encoding tables of
30_encoding.md, single steps against the vectors of 95_test_vectors.md, and for every statement with hypotheses a
concrete state and operands that meet them. Every expected value is the spec's. -/

namespace Sys2Proof.Tests

open Sys2Proof Sys2Proof.Machine

/-! ### Helpers -/

/-- Host writes of words, as `wr ADDR, VALUE` in 95_test_vectors.md section 3. -/
def setup (ws : List (Nat × Word)) : State :=
  ws.foldl (fun s p => (s.access (.write (BitVec.ofNat 20 p.1) 4 p.2)).2) State.reset

/-- The state after one step that runs a command word. -/
def after (w : Nat) (s : State) : Option State :=
  match step (s.withFetchWord 32 w) with
  | .next t => some t
  | _ => none

/-- `STATUS`, `CMDCNT` and some RAM words after one step that runs a command word. -/
def result (w : Nat) (s : State) (addrs : List Nat) : Option (Word × Word × List Word) :=
  (after w s).map fun t => (t.regs.status, t.regs.cmdcnt, addrs.map t.mem.readWord)

/-! ### Well-formedness: an ill-formed term for each check -/

theorem test_wf_refuses_mask : (Instr.resetCh 0 256).wf = false := by decide
theorem test_wf_refuses_klim : (Instr.qmfAna 0 256 0 1).wf = false := by decide
theorem test_wf_refuses_ana_l0 : (Instr.qmfAna 0 32 256 1).wf = false := by decide
theorem test_wf_refuses_ana_nl : (Instr.qmfAna 0 32 0 256).wf = false := by decide
theorem test_wf_refuses_kx : (Instr.spliceX 0 256 0 true).wf = false := by decide
theorem test_wf_refuses_mb : (Instr.spliceX 0 32 256 false).wf = false := by decide
theorem test_wf_refuses_mul_block :
    ([.envMul 0 64 1 0 1, .envMul 0 0 64 0 1, .envMul 0 0 1 64 1, .envMul 0 0 1 0 128] : List Instr).all
      (fun i => !i.wf) = true := by decide
theorem test_wf_refuses_mac_block :
    ([.envMac 0 64 1 0 1, .envMac 0 0 64 0 1, .envMac 0 0 1 64 1, .envMac 0 0 1 0 128] : List Instr).all
      (fun i => !i.wf) = true := by decide
theorem test_wf_refuses_syn_l0 : (Instr.qmfSyn 0 256 1).wf = false := by decide
theorem test_wf_refuses_syn_nl : (Instr.qmfSyn 0 0 256).wf = false := by decide

/-- The largest operands each field holds are well-formed; a value out of range is not ill-formed (30_encoding.md R89). -/
theorem witness_wf_boundary :
    ([.nop, .resetCh 1 255, .shiftLow 1, .qmfAna 1 255 255 255, .spliceX 1 255 255 true, .envMul 1 63 63 63 127,
      .envMac 1 63 63 63 127, .qmfSyn 1 255 255, .savePrev 1, .deqEnv 1, .deqNoise 1, .deqEnvCpl, .deqNoiseCpl] :
      List Instr).all Instr.wf = true := by decide

/-! ### Decoding: one word per command, written out bit by bit from 30_encoding.md R80 to R87 -/

theorem test_decode_nop : decode 0b000000_0_0000000000000000000000000 = .ok .nop := by decide
theorem test_decode_resetCh : decode 0b000001_1_0_00000000_00000000_10100101 = .ok (.resetCh 1 0xA5) := by decide
theorem test_decode_shiftLow : decode 0b000010_1_0000000000000000000000000 = .ok (.shiftLow 1) := by decide
theorem test_decode_qmfAna : decode 0b000011_1_0_00100000_00000011_00000101 = .ok (.qmfAna 1 32 3 5) := by decide
theorem test_decode_spliceX : decode 0b000100_0_0_00100000_00010000_00000001 = .ok (.spliceX 0 32 16 true) := by decide
theorem test_decode_envMul : decode 0b000101_0_000010_000010_101000_0000001 = .ok (.envMul 0 2 2 40 1) := by decide
theorem test_decode_envMac : decode 0b000110_1_000011_000100_100000_1000000 = .ok (.envMac 1 3 4 32 64) := by decide
theorem test_decode_qmfSyn : decode 0b000111_1_0_00000000_00000000_00100000 = .ok (.qmfSyn 1 0 32) := by decide
theorem test_decode_savePrev : decode 0b001000_0_0000000000000000000000000 = .ok (.savePrev 0) := by decide
theorem test_decode_deqEnv : decode 0b010000_1_0000000000000000000000000 = .ok (.deqEnv 1) := by decide
theorem test_decode_deqNoise : decode 0b010001_1_0000000000000000000000000 = .ok (.deqNoise 1) := by decide
theorem test_decode_deqEnvCpl : decode 0b010010_0_0000000000000000000000000 = .ok .deqEnvCpl := by decide
theorem test_decode_deqNoiseCpl : decode 0b010011_0_0000000000000000000000000 = .ok .deqNoiseCpl := by decide

/-- The opcodes next to the illegal ranges of 30_encoding.md R86, and one reserved bit of each command. -/
theorem test_decode_refuses :
    ([0x24000000, 0x3FFFFFFF, 0x50000000, 0xFFFFFFFF] : List Word).map decode = List.replicate 4 (.error .illegalOp) ∧
    ([0x02000000, 0x05000000, 0x04000100, 0x08000001, 0x0D000000, 0x11000000, 0x10000002, 0x10000080, 0x1D000000,
      0x1C010000, 0x21000000, 0x40000001, 0x45000000, 0x4A000000, 0x4C000001] : List Word).map decode =
      List.replicate 15 (.error .reserved) := by decide

/-- The table's own bit numbering is the word's. -/
theorem test_decodeTableWord : decodeTableWord 32 0x14105401 = some (.envMul 0 2 2 40 1) := by decide

theorem test_encode : ([.resetCh 1 255, .qmfAna 0 32 0 2, .envMac 0 2 2 40 1] : List Instr).map encode =
    [0x060000FF, 0x0C200002, 0x18105401] := by decide

/-! ### Assembler (30_encoding.md R89, R90) -/

theorem test_asmText : asmText (.spliceX 0 32 16 true) = "splice.x c0, 32, 16, 1" := by decide
theorem test_expandPseudo : expandPseudo true (.qmfAnaFrame 0 32) = [.qmfAna 0 32 0 30] := by decide

/-! ### Single steps: the vectors of 95_test_vectors.md -/

/-- 2.8 L1. -/
theorem test_nop : result 0x00000000 State.reset [] = some (0x00000002, 1, []) := by decide

/-- 2.8 L2. -/
theorem test_resetCh :
    result 0x04000004 (setup [(0x46000, 0x3F800000), (0x43000, 0x3F800000), (0x49004, 0x40000000), (0x65000, 5)])
      [0x46000, 0x49004, 0x43000, 0x65000] = some (2, 1, [0, 0, 0x3F800000, 5]) := by decide +kernel

/-- 42_pipeline.md R134, its example: `WP[0][0][5] = (32, 5)` reaches `W[0][0][5]`. -/
theorem test_shiftLow :
    result 0x08000000 (setup [(0x49028, 0x42000000), (0x4902C, 0x40A00000)]) [0x46028, 0x4602C, 0x49028] =
      some (2, 1, [0x42000000, 0x40A00000, 0x42000000]) := by decide +kernel

/-- 2.8 L12 with `R = 1`: `YP` is restored into `Y` first, so `X[0][40]` takes the restored `Y[2][40]`. -/
theorem test_spliceX :
    result 0x10202001 (setup [(0x46200, 0x3F800000), (0x46204, 0x40000000), (0x5A540, 0x40400000), (0x5F540, 0x40800000),
      (0x5F140, 0x40E00000)]) [0x61000, 0x61004, 0x61140, 0x5A140] =
      some (2, 1, [0x3F800000, 0x40000000, 0x40800000, 0x40E00000]) := by decide +kernel

/-- 2.8 L9, with `CFG = 1`: `W[30]` goes to `WP[0]` and `Y[39]` to `YP[9]`. -/
theorem test_savePrev :
    result 0x20000000 (setup [(0x14, 1), (0x47E00, 0x41F00000), (0x5EE00, 0x421C0000)]) [0x49000, 0x60200] =
      some (2, 1, [0x41F00000, 0x421C0000]) := by decide +kernel

/-- 2.7, `m = 0` and `m = 1`. -/
theorem test_envMul :
    result 0x14002002 (setup [(0x4F000, 0x3F000000), (0x4F004, 0x7F800000), (0x4A000, 0x40400000), (0x4A004, 0xC0800000),
      (0x4A00C, 0x3F800000)]) [0x5A000, 0x5A004, 0x5A008, 0x5A00C] =
      some (2, 1, [0x3FC00000, 0xC0000000, 0x7FC00000, 0x7F800000]) := by decide +kernel

/-- 2.7, the row with `A = 0` that keeps `−0`. -/
theorem test_envMac :
    result 0x18082081 (setup [(0x5A208, 0x3F800000), (0x5A20C, 0x80000000), (0x55208, 0x40A00000), (0x5520C, 0xC0A00000)])
      [0x5A208, 0x5A20C] = some (2, 1, [0x3F800000, 0x80000000]) := by decide +kernel

/-- 1.1: `a = 0.5`, `v = 1`. -/
theorem test_deqEnv :
    result 0x40000000 (setup [(0x18, 1), (0x20, 1), (0x65000, 1)]) [0x66000] = some (2, 1, [0x42B504F3]) := by
  decide +kernel

/-- 2.3: the most negative index, and the largest, whose product does not wrap. -/
theorem test_deqEnv_extremes :
    result 0x40000000 (setup [(0x18, 0x1001), (0x20, 2), (0x65000, 0x80000000), (0x65004, 0x7FFFFFFF)])
      [0x66000, 0x66004] = some (2, 1, [0, 0x7F800000]) := by decide +kernel

/-- 2.4. -/
theorem test_deqNoise :
    result 0x44000000 (setup [(0x18, 0x210), (0x67000, 7), (0x67004, 155)]) [0x67100, 0x67104] =
      some (2, 1, [0x3F000000, 0x00000001]) := by decide +kernel

/-- 2.5: mixed amplitude resolution. -/
theorem test_deqEnvCpl :
    result 0x48000000 (setup [(0x14, 4), (0x18, 0x1001), (0x1C, 1), (0x20, 1), (0xA5000, 22)]) [0x66000, 0xA6000] =
      some (2, 1, [0x422AAAAB, 0x42AAAAAB]) := by decide +kernel

/-- 1.5: the second member goes to channel 1. -/
theorem test_deqNoiseCpl :
    result 0x4C000000 (setup [(0x14, 4), (0x18, 0x110), (0x67000, 7), (0xA7000, 11), (0xA7100, 0x12345678)])
      [0x67100, 0xA7100] = some (2, 1, [0x3EAAAAAB, 0x3F2AAAAB]) := by decide +kernel

/-- 2.10 A2: the impulse, limited to four bands. -/
theorem test_qmfAna :
    result 0x0C040001 (setup [(0x1000, 0x3F800000), (0x4007C, 0x3F800000)]) [0x46818, 0x4681C, 0x46820, 0x43000] =
      some (2, 1, [0x3FFF0E58, 0xBE2FB680, 0, 0x3F800000]) := by decide +kernel

/-- 2.11 S6: an empty slot range completes. -/
theorem test_qmfSyn_empty : result 0x1C002000 State.reset [] = some (2, 1, []) := by decide +kernel

/-- 2.9 E8, E19, E6: `RANGE`, `GRID` and `CONFIG`; nothing but `STATUS` changes. -/
theorem test_errors :
    result 0x0C201E03 State.reset [] = some (0x404, 0, []) ∧
    result 0x40000000 (setup [(0x18, 1), (0x20, 65)]) [] = some (0x504, 0, []) ∧
    result 0x48000000 State.reset [] = some (0x304, 0, []) := by decide +kernel

/-- 43_qmf.md R156: the two sample entries. -/
theorem test_twiddle : tac 0 0 = 0x3FFFFB11 ∧ tas 0 0 = 0xBCC90E90 := by decide +kernel

/-- 2.3: `POW2H` at an odd subnormal exponent and at the edges of the range. -/
theorem test_pow2h : [-287, -298, -300, 255, 256].map pow2h = [0x0000002D, 1, 0, 0x7F3504F3, 0x7F800000] := by
  decide +kernel

/-- 2.2 B5, B14, B21, B22: a masked register write, a `STATUS` write of no W1C bit, and bus errors. -/
theorem test_bus :
    ((setup [(0x18, 0xFFFFFFFF)]).access (.read 0x18 4)).1 = .data 0x00001F37 ∧
    statusAfterWrite 0x0000FF09 0x00000206 = 0x00000206 ∧ statusAfterWrite 4 0x00000204 = 0 ∧
    ([0x01A00, 0xC0000, 0x43500, 0x67140, 0x00002].map fun a => (State.reset.access (.read a 4)).1) =
      List.replicate 5 .busError := by decide +kernel

/-! ### Witnesses: for every statement with hypotheses, a state and operands that meet them -/

/-- A state with a command pending that no wait holds up. -/
def pendingNow (w : Word) (s : State) : State := s.issue w 0

/-- `CFG = 4`, two legal grids at their largest counts. -/
def gridState : State :=
  setup [(0x14, 4), (0x18, 0x1825), (0x1C, 0x1825), (0x20, 0x40404040), (0x24, 64), (0x28, 0x40404040), (0x2C, 64)]

/-- DecodeAfterEncode; EncodeAfterDecode: a word that decodes. -/
theorem witness_EncodeAfterDecode : decode 0x1BFFFFFF = .ok (.envMac 1 63 63 63 127) := by decide

/-- IllegalOpcodesExactly, both ways, at the edges of the illegal ranges. -/
theorem witness_LegalOp :
    LegalOp 0x23FFFFFF ∧ ¬LegalOp 0x24000000 ∧ ¬LegalOp 0x3FFFFFFF ∧ LegalOp 0x40000000 ∧ LegalOp 0x4FFFFFFF ∧
      ¬LegalOp 0x50000000 ∧ ¬LegalOp 0xFFFFFFFF := by unfold LegalOp; decide

/-- ReservedBitsExactly: each line of the list, and a word of `ENV_MAC` that has none. -/
theorem witness_HasReservedBit :
    (∀ w ∈ ([0x02000000, 0x48000001, 0x4E000000, 0x08000001, 0x21000000, 0x40000001, 0x45000000, 0x05000000, 0x04000100,
      0x0D000000, 0x1D000000, 0x1C010000, 0x11000000, 0x10000080] : List Word), LegalOp w ∧ HasReservedBit w) ∧
    ¬HasReservedBit 0x1BFFFFFF := by simp [LegalOp, HasReservedBit, field]

/-- StepRunsDecodedCommand. -/
theorem witness_StepRunsDecodedCommand :
    (pendingNow 0x14105401 State.reset).pending = some ⟨0x14105401, 0⟩ ∧
      decode 0x14105401 = .ok (.envMul 0 2 2 40 1) ∧ (Instr.envMul 0 2 2 40 1).wf = true :=
  ⟨rfl, by decide, by decide⟩

/-- CommandErrorsFollowTable: a pending word for each code, the last two at the first value out of range. -/
theorem witness_CommandErrorsFollowTable :
    (pendingNow 0x24000000 State.reset).pending = some ⟨0x24000000, 0⟩ ∧
    EndsWithError 0x24000000 (pendingNow 0x24000000 State.reset).regs 1 ∧
    EndsWithError 0x4A000000 (pendingNow 0x4A000000 State.reset).regs 2 ∧
    EndsWithError 0x48000000 (pendingNow 0x48000000 State.reset).regs 3 ∧
    EndsWithError 0x0C210001 (pendingNow 0x0C210001 State.reset).regs 4 ∧
    EndsWithError 0x40000000 (pendingNow 0x40000000 (setup [(0x18, 1), (0x20, 65)])).regs 5 := by
  refine ⟨rfl, .inl ⟨?_, rfl⟩, .inr (.inl ⟨?_, ?_, rfl⟩), .inr (.inr (.inl ⟨?_, ?_, ?_, rfl⟩)),
    .inr (.inr (.inr (.inl ⟨?_, ?_, ?_, ?_, rfl⟩))), .inr (.inr (.inr (.inr ⟨?_, ?_, ?_, ?_, ?_, rfl⟩)))⟩ <;>
  first
    | (unfold LegalOp; decide)
    | (unfold HasReservedBit; decide)
    | (unfold HasConfigError; decide)
    | (unfold HasRangeError; decide)
    | (refine .inl ⟨by decide, by decide, fun h => ?_⟩
       have := h.2 0 (by decide +kernel)
       revert this
       decide +kernel)

/-- CommandEndUpdatesStatus: a pending word that meets no error (the words above meet one each). -/
theorem witness_CommandEndUpdatesStatus :
    (pendingNow 0x0C202000 State.reset).pending = some ⟨0x0C202000, 0⟩ ∧
      ∀ code, ¬EndsWithError 0x0C202000 (pendingNow 0x0C202000 State.reset).regs code := by
  refine ⟨rfl, fun code h => ?_⟩
  rcases h with ⟨h, -⟩ | ⟨-, h, -⟩ | ⟨-, -, h, -⟩ | ⟨-, -, -, h, -⟩ | ⟨-, -, -, -, h, -⟩
  · exact h (by unfold LegalOp; decide)
  · revert h; unfold HasReservedBit; decide
  · revert h; unfold HasConfigError; decide
  · revert h; unfold HasRangeError; decide
  · simp [HasGridError, field] at h

/-- StepKeepsInvariant: a state other than reset that meets the invariant, and its next state. -/
theorem witness_StepKeepsInvariant :
    (pendingNow 0 (setup [(0x1000, 0x3F800000), (0x18, 0xFFFFFFFF)])).Inv ∧
      ∃ t, step (pendingNow 0 (setup [(0x1000, 0x3F800000), (0x18, 0xFFFFFFFF)])) = .next t := by
  refine ⟨?_, _, rfl⟩
  constructor <;> decide +kernel

/-- BusyStepHoldsAllButStatusReads: both clauses; SoftResetKeepsOnlyCram: a held soft reset. -/
theorem witness_BusyStep :
    ({ State.reset.issue 0 7 with host := [.read 8 4] }).pending = some ⟨0, 6 + 1⟩ ∧
    ({ State.reset.issue 0 7 with host := [.read 8 4] }).host = .read 0x00008 4 :: [] ∧
    ({ State.reset.issue 0 7 with host := [.write 8 4 6] }).host = .write 8 4 6 :: [] ∧
    ({ State.reset.issue 0 7 with host := [.write 4 4 7] }).host = .write 0x00004 4 7 :: [] ∧ bit 0 (7 : Word) = true ∧
    (Access.write 8 4 6 ≠ .read 0x00008 4) ∧ (Access.read 8 2 ≠ .read 0x00008 4) := by decide

/-- IdleStepCompletesOldestAccess: the three clauses. -/
theorem witness_IdleStep :
    ({ State.reset with held := [.read 0x10 4] }).pending = none ∧
    ({ State.reset with held := [.read 0x10 4] }).held = .read 0x10 4 :: [] ∧
    ({ State.reset with host := [.read 0x10 4] }).held = [] ∧
    ({ State.reset with host := [.read 0x10 4] }).host = .read 0x10 4 :: [] ∧
    State.reset.held = [] ∧ State.reset.host = [] := by decide

/-- BusErrorsExactly: addresses at the edges of the map, and the edges of the reserved offsets. -/
theorem witness_BusErrorsExactly :
    (∀ a ∈ ([0x00FFC, 0x01000, 0x019FC, 0x40000, 0x434FC, 0xA713C] : List Nat), AddressExists a) ∧
    (∀ a ∈ ([0x01A00, 0x3FFFC, 0x43500, 0x67140, 0xC0000] : List Nat), ¬AddressExists a) ∧
    0x00040 ≤ (0x00040 : BitVec 20).toNat ∧ (0x00FFC : BitVec 20).toNat ≤ 0x00FFF ∧ (0x00FFC : BitVec 20).toNat % 4 = 0 := by
  simp [AddressExists, OffsetMapped]

/-- ReadsAndBusErrorsChangeNothing: an access that gets a bus error. -/
theorem witness_BusError : (State.reset.access (.write 0x01002 4 7)).1 = .busError := by decide

/-- RegisterWritesStoreTheirFields, SoftResetKeepsOnlyCram, InterruptFollowsItsEquation: the data words. -/
theorem witness_CtrlAndStatusData :
    bit 0 (0xFFFFFFFE : Word) = false ∧ bit 0 (0x00000007 : Word) = true ∧ bit 1 (0x00000006 : Word) = true ∧
      bit 2 (0x00000006 : Word) = true := by decide

/-- RamWriteStoresOneWord: the first and last words of `CRAM` and of the last RAM of channel 1. -/
theorem witness_RamWriteStoresOneWord :
    ∀ a ∈ ([0x01000, 0x019FC, 0x40000, 0xA7100, 0xA713C] : List (BitVec 20)),
      a.toNat % 4 = 0 ∧ 0x01000 ≤ a.toNat ∧ AddressExists a.toNat := by
  simp [AddressExists, OffsetMapped]

/-- The clauses on reserved bits of the instruction statements, a lowest and a highest reserved bit each. -/
theorem witness_ReservedClauses :
    (field 31 26 (0x02000000 : Word) = 0x00 ∧ field 25 0 (0x02000000 : Word) ≠ 0) ∧
    (field 31 26 (0x05000000 : Word) = 0x01 ∧ bit 24 (0x05000000 : Word) = true) ∧
    (field 31 26 (0x04000100 : Word) = 0x01 ∧ field 15 8 (0x04000100 : Word) ≠ 0) ∧
    (field 31 26 (0x04010000 : Word) = 0x01 ∧ field 23 16 (0x04010000 : Word) ≠ 0) ∧
    (field 31 26 (0x08000001 : Word) = 0x02 ∧ field 24 0 (0x08000001 : Word) ≠ 0) ∧
    (field 31 26 (0x0D000000 : Word) = 0x03 ∧ bit 24 (0x0D000000 : Word) = true) ∧
    (field 31 26 (0x11000000 : Word) = 0x04 ∧ bit 24 (0x11000000 : Word) = true) ∧
    (field 31 26 (0x10000002 : Word) = 0x04 ∧ field 7 1 (0x10000002 : Word) ≠ 0) ∧
    (field 31 26 (0x1D000000 : Word) = 0x07 ∧ bit 24 (0x1D000000 : Word) = true) ∧
    (field 31 26 (0x1C010000 : Word) = 0x07 ∧ field 23 16 (0x1C010000 : Word) ≠ 0) ∧
    (field 31 26 (0x21000000 : Word) = 0x08 ∧ field 24 0 (0x21000000 : Word) ≠ 0) ∧
    (field 31 26 (0x40000001 : Word) = 0x10 ∧ field 24 0 (0x40000001 : Word) ≠ 0) ∧
    (field 31 26 (0x45000000 : Word) = 0x11 ∧ field 24 0 (0x45000000 : Word) ≠ 0) ∧
    (field 31 26 (0x4A000000 : Word) = 0x12 ∧ field 25 0 (0x4A000000 : Word) ≠ 0) ∧
    (field 31 26 (0x4C000001 : Word) = 0x13 ∧ field 25 0 (0x4C000001 : Word) ≠ 0) := by decide

/-- ResetChClearsItsGroups: a RAM of a chosen group and its last byte; a byte that is in none. -/
theorem witness_ResetCh :
    (0x80 : Nat).testBit (maskBit .OUT) = true ∧ Ram.OUT.contains 1 0x82FFF = true ∧
    ¬∃ r, (0x80 : Nat).testBit (maskBit r) = true ∧ r.contains 1 0x83000 = true := by
  refine ⟨by decide, by decide, ?_⟩
  rintro ⟨r, h⟩
  revert h
  cases r <;> decide

/-- SpliceXBuildsSynthesisInput, TailsCrossTheFrameBoundary: the operands at the end of the range, and just past it; a small
frame, so that ten overhang slots are restored. -/
theorem witness_SpliceX :
    32 ≤ 32 ∧ 32 + 32 ≤ 64 ∧ (32 < 33 ∨ 64 < 33 + 0) ∧ (32 < 32 ∨ 64 < 32 + 33) ∧
      9 < 40 - frameSlots (setup [(0x14, 1)]).regs ∧ 7 < 40 - frameSlots State.reset.regs ∧
      31 < frameSlots State.reset.regs ∧ 25 + 6 < frameSlots State.reset.regs := by decide

/-- SnapshotCommandsAreIdempotent: a canonical memory that is not empty. -/
theorem witness_SnapshotCommands : (setup [(0x46000, 0x3F800000)]).mem.wf ∧ (setup [(0x46000, 0x3F800000)]).mem ≠ [] := by
  decide +kernel

/-- EnvMulScalesHighBand, EnvMacAddsComponent: the whole block, its last element, and the first blocks out of range. -/
theorem witness_EnvBlock :
    0 + 40 ≤ 40 ∧ 63 + 1 ≤ 64 ∧ (0 ≤ 39 ∧ 39 < 0 + 40) ∧ (63 ≤ 63 ∧ 63 < 63 + 1) ∧ (40 < 39 + 2 ∨ 64 < 0 + 0) ∧
      (40 < 0 + 0 ∨ 64 < 63 + 2) := by decide

/-- DeqEnvWritesPowers, DeqEnvCplSplitsEnergy: the largest legal grid for both channels with `CPL = 1`, each illegal grid, and
`CPL = 0`. -/
theorem witness_DeqEnv :
    gridState.regs.le 0 ≤ 5 ∧ (∀ l < gridState.regs.le 0, gridState.regs.nb 0 l ≤ 64) ∧
    gridState.regs.le 1 ≤ 5 ∧ (∀ l < gridState.regs.le 1, gridState.regs.nb 1 l ≤ 64) ∧
    (4 < gridState.regs.le 0 ∧ 63 < gridState.regs.nb 0 4) ∧ bit 2 gridState.regs.cfg = true ∧
    5 < (setup [(0x14, 4), (0x18, 6)]).regs.le 0 ∧
    (∃ l < (setup [(0x14, 4), (0x18, 5), (0x24, 65)]).regs.le 0, 64 < (setup [(0x14, 4), (0x18, 5), (0x24, 65)]).regs.nb 0 l) ∧
    bit 2 State.reset.regs.cfg = false := by
  refine ⟨by decide, by decide, by decide, by decide, by decide, by decide, by decide, ⟨4, by decide, by decide⟩, by decide⟩

/-- DeqNoiseWritesPowers, DeqNoiseCplSplitsEnergy: the largest legal grid, and each illegal one. -/
theorem witness_DeqNoise :
    gridState.regs.lq 0 ≤ 2 ∧ gridState.regs.nqb 0 ≤ 8 ∧ gridState.regs.lq 1 ≤ 2 ∧ gridState.regs.nqb 1 ≤ 8 ∧
    (1 < gridState.regs.lq 0 ∧ 7 < gridState.regs.nqb 0) ∧
    2 < (setup [(0x14, 4), (0x18, 0x30)]).regs.lq 0 ∧ 8 < (setup [(0x14, 4), (0x18, 0x900)]).regs.nqb 0 := by decide

/-- QmfAnaCompletes, QmfAnaComputesSlot, ShiftAndAnalysisCommute, QmfSynCompletes, QmfSynComputesSlot64, FilterbankCommandsSplit: the last slot of either
frame length, the first out of range, an empty range at the end of the frame. -/
theorem witness_QmfRange :
    32 ≤ 32 ∧ 31 + 1 ≤ frameSlots State.reset.regs ∧ 29 + 1 ≤ frameSlots (setup [(0x14, 1)]).regs ∧
    32 + 0 ≤ frameSlots State.reset.regs ∧ 0 + (31 + 1) ≤ frameSlots State.reset.regs ∧
    (32 < 33 ∨ frameSlots State.reset.regs < 0 + 1) ∧ frameSlots (setup [(0x14, 1)]).regs < 30 + 1 ∧
    bit 1 State.reset.regs.cfg = false := by decide

/-- QmfSynComputesSlot32: the downsampled bank. -/
theorem witness_QmfSyn32 :
    bit 1 (setup [(0x14, 2)]).regs.cfg = true ∧ 31 + 1 ≤ frameSlots (setup [(0x14, 2)]).regs := by decide

/-- SilenceStaysSilentInAnalysis: the state after reset, with its zero input, history and window. -/
theorem witness_SilenceInAnalysis :
    0 + 1 ≤ frameSlots State.reset.regs ∧
    (∀ n, 32 * 0 ≤ n → n < 32 * (0 + 1) → State.reset.mem.real .IN 0 0 n = 0) ∧
    (∀ n < 320, State.reset.mem.real .ADL 0 0 n = 0) ∧
    (∀ n < 320, IsFinite32 (State.reset.mem.readWord (0x01000 + 4 * (2 * n))) ∧
      bit 31 (State.reset.mem.readWord (0x01000 + 4 * (2 * n))) = false) := by
  have zero (a : Nat) : State.reset.mem.readWord a = 0 := rfl
  refine ⟨by decide, fun n _ _ => rfl, fun n _ => rfl, fun n _ => ?_⟩
  rw [zero]
  exact ⟨(by decide : field 30 23 (0 : Word) ≠ 255), by decide⟩

/-- SilenceStaysSilentInSynthesis: the state after reset, whose scales are finite and positive. -/
theorem witness_SilenceInSynthesis :
    0 + 32 ≤ frameSlots State.reset.regs ∧
    (∀ l, 0 ≤ l → l < 0 + 32 → ∀ k < 64, State.reset.mem.cplx .X 0 l k = ⟨0, 0⟩) ∧
    (∀ n < 1280, State.reset.mem.real .SDL 0 0 n = 0) ∧
    IsFinite32 State.reset.regs.ssc64 ∧ bit 31 State.reset.regs.ssc64 = false ∧ IsFinite32 State.reset.regs.ssc32 ∧
    bit 31 State.reset.regs.ssc32 = false ∧
    (∀ n < 640, IsFinite32 (State.reset.mem.readWord (0x01000 + 4 * n)) ∧
      bit 31 (State.reset.mem.readWord (0x01000 + 4 * n)) = false) := by
  have zero (a : Nat) : State.reset.mem.readWord a = 0 := rfl
  refine ⟨by decide, fun _ _ _ _ _ => rfl, fun _ _ => rfl, ?_, by decide, ?_, by decide, fun n _ => ?_⟩
  · exact (by decide : field 30 23 (0x3C800000 : Word) ≠ 255)
  · exact (by decide : field 30 23 (0x3D000000 : Word) ≠ 255)
  · rw [zero]
    exact ⟨(by decide : field 30 23 (0 : Word) ≠ 255), by decide⟩

/-- CommandsWriteOnlyTheirRams: a command that changes a byte. -/
theorem witness_CommandsWriteOnlyTheirRams :
    ∃ t, exec (.resetCh 0 1) (setup [(0x43000, 7)]) = .next t ∧
      t.mem.readByte 0x43000 ≠ (setup [(0x43000, 7)]).mem.readByte 0x43000 := by
  refine ⟨_, rfl, ?_⟩
  decide +kernel

/-- CommandsReadOnlyTheirChannel: two states that differ in the other channel only. -/
theorem witness_CommandsReadOnlyTheirChannel :
    soleChannel (.deqEnv 0) = some 0 ∧ State.reset.regs = (setup [(0x80000, 7)]).regs ∧
    State.reset.mem ≠ (setup [(0x80000, 7)]).mem ∧
    ∀ a, InWindow 0 a ∨ InCram a → State.reset.mem.readByte a = (setup [(0x80000, 7)]).mem.readByte a := by
  refine ⟨rfl, by decide +kernel, by decide +kernel, fun a ha => ?_⟩
  have hm : (setup [(0x80000, 7)]).mem = [(0x80000, 7)] := by decide +kernel
  have hne : (0x80000 : Nat) ≠ a := by
    rintro rfl
    rcases ha with ⟨-, h⟩ | ⟨-, h⟩ <;> simp at h
  rw [hm]
  simp [State.reset, Memory.readByte, hne]

/-- ChannelsCommute: one command on each channel. -/
theorem witness_ChannelsCommute :
    soleChannel (.qmfAna 0 32 0 32) = some 0 ∧ soleChannel (.savePrev 1) = some 1 ∧ (0 : Ch) ≠ 1 := by decide

/-- NanResultsAreCanonical, SpecialValuesOfArithmetic: a signalling NaN, the infinities, finite words. -/
theorem witness_Arithmetic :
    IsNan32 0x7FA00001 ∧ IsNan32 (neg32 0x7FA00001) ∧ IsNan32 (div32 0 0) ∧ ¬IsNan32 0x80000000 ∧
    IsInf32 0x7F800000 ∧ IsInf32 0xFF800000 ∧ (0x7F800000 : Word) ≠ 0xFF800000 ∧ IsFinite32 0x7F7FFFFF ∧
    IsFinite32 0x00000001 ∧ IsFinite32 0x80000000 := by
  unfold IsNan32 IsInf32 IsFinite32; decide

/-- The clauses on the value of a word: a zero of either sign, and the smallest subnormal, which is no zero. -/
theorem witness_Values :
    value32 0x00000000 = 0 ∧ value32 0x80000000 = 0 ∧ value32 0x00000001 ≠ 0 ∧ value32 0x00000000 + value32 0x80000000 = 0 := by
  have h0 : value32 0x00000000 = 0 := by simp [value32, field, bit]
  have h1 : value32 0x80000000 = 0 := by simp [value32, field, bit]
  have h2 : value32 0x00000001 ≠ 0 := by simp [value32, field, bit]
  exact ⟨h0, h1, h2, by rw [h0, h1, add_zero]⟩

end Sys2Proof.Tests
end

section
/-! PROOFS. `rne32` is the rounding of 00_scope.md R10, for an exact magnitude and for one known only to lie strictly between
two neighbours, and what R14 and R15 say of `sum32` and `pow2h`. A magnitude is written `t · 2^q`, where `2^q` is the quantum
of the result, so rounding it to binary32 is rounding the real `t` to an integer. -/

namespace Sys2Proof.Machine

/-! ### Rounding a real to an integer -/

/-- The natural number `s` is `t` rounded to nearest, ties to even. -/
def RoundsTo (t : ℝ) (s : ℕ) : Prop := |(s : ℝ) - t| < 1 / 2 ∨ |(s : ℝ) - t| = 1 / 2 ∧ Even s

theorem roundsTo_natCast (s : ℕ) : RoundsTo s s := .inl (by norm_num)

/-- `RoundsTo` without a division. -/
theorem roundsTo_div_iff {x D : ℝ} (hD : 0 < D) (s : ℕ) :
    RoundsTo (x / D) s ↔ 2 * |s * D - x| < D ∨ 2 * |s * D - x| = D ∧ Even s := by
  have h : |(s : ℝ) - x / D| = |s * D - x| / D := by
    rw [← abs_of_pos hD, ← abs_div, abs_of_pos hD, sub_div, mul_div_cancel_right₀ _ hD.ne']
  rw [RoundsTo, h, div_lt_div_iff₀ hD two_pos, div_eq_div_iff hD.ne' two_ne_zero, one_mul, mul_comm]

namespace RoundsTo

variable {t : ℝ} {s : ℕ}

theorem abs_le_half (h : RoundsTo t s) : |(s : ℝ) - t| ≤ 1 / 2 := h.elim le_of_lt fun h => h.1.le

/-- Every other integer is at least half a unit away from `t`. -/
theorem half_le_abs (h : RoundsTo t s) {k : ℤ} (hk : k ≠ s) : 1 / 2 ≤ |(k : ℝ) - t| := by
  have hone : (1 : ℝ) ≤ |(k : ℝ) - s| := by exact_mod_cast Int.one_le_abs (sub_ne_zero.mpr hk)
  have htri := abs_sub_le (k : ℝ) t s
  rw [abs_sub_comm t] at htri
  linarith [h.abs_le_half]

theorem nearest (h : RoundsTo t s) (k : ℤ) : |(s : ℝ) - t| ≤ |(k : ℝ) - t| := by
  by_cases hk : k = s
  · simp [hk]
  · exact h.abs_le_half.trans (h.half_le_abs hk)

theorem even_of_tie (h : RoundsTo t s) {k : ℤ} (hk : k ≠ s) (htie : |(k : ℝ) - t| = |(s : ℝ) - t|) : Even s :=
  h.elim (fun hlt => absurd (htie ▸ h.half_le_abs hk) hlt.not_ge) And.right

/-- An even integer is reached from half a unit below it on. -/
theorem le_iff_of_even (h : RoundsTo t s) {n : ℕ} (hn : Even n) : n ≤ s ↔ (n : ℝ) - 1 / 2 ≤ t := by
  constructor
  · intro hle
    have : (n : ℝ) ≤ s := by exact_mod_cast hle
    linarith [(abs_le.mp h.abs_le_half).2]
  · intro hle
    by_contra! hlt
    have hs : (s : ℝ) + 1 ≤ n := by exact_mod_cast hlt
    have htie : |(s : ℝ) - t| = 1 / 2 := by
      have := abs_le.mp h.abs_le_half
      rw [abs_of_nonpos] <;> linarith
    have hsn : (s : ℝ) + 1 = n := by linarith [(abs_le.mp h.abs_le_half).1]
    have heven := (h.resolve_left htie.not_lt).2
    have : s + 1 = n := by exact_mod_cast hsn
    exact Nat.not_even_iff_odd.mpr heven.add_one (this ▸ hn)

theorem le_of_le (h : RoundsTo t s) {n : ℕ} (hn : t ≤ n) : s ≤ n := by
  by_contra! hlt
  have hs : (n : ℝ) + 1 ≤ s := by exact_mod_cast hlt
  linarith [(abs_le.mp h.abs_le_half).2]

end RoundsTo

/-- The real `x` that `m` and `sticky` stand for in `roundShift` and `rne32`. -/
def Truncates (m : ℕ) (sticky : Bool) (x : ℝ) : Prop :=
  if sticky then (m : ℝ) < x ∧ x < m + 1 else x = m

section
variable {m : ℕ} {x : ℝ}

@[simp] theorem truncates_false : Truncates m false x ↔ x = m := .rfl

@[simp] theorem truncates_true : Truncates m true x ↔ (m : ℝ) < x ∧ x < m + 1 := .rfl

theorem Truncates.le {sticky : Bool} (h : Truncates m sticky x) : (m : ℝ) ≤ x := by
  cases sticky with
  | false => exact (truncates_false.mp h).ge
  | true => exact (truncates_true.mp h).1.le

theorem Truncates.lt {sticky : Bool} (h : Truncates m sticky x) : x < m + 1 := by
  cases sticky with
  | false => linarith [truncates_false.mp h]
  | true => exact (truncates_true.mp h).2

end

/-- `roundShift` rounds the quotient to nearest, ties to even. With a remainder `r` of `m` by `2P`, a tie is `r = P` with
nothing lost below; an odd quotient and a lost part both push it up. -/
theorem roundShift_roundsTo {m sh : ℕ} {sticky : Bool} {x : ℝ} (hx : Truncates m sticky x) (hsh : 1 ≤ sh) :
    RoundsTo (x / 2 ^ sh) (roundShift m sh sticky) := by
  obtain ⟨P, hP, hPR⟩ : ∃ P : ℕ, 2 ^ sh = 2 * P ∧ (2 : ℝ) ^ sh = 2 * P := by
    obtain ⟨k, rfl⟩ := Nat.exists_eq_add_of_le' hsh
    exact ⟨2 ^ k, pow_succ' 2 k, by push_cast; exact pow_succ' 2 k⟩
  have hpos : (0 : ℝ) < 2 ^ sh := by positivity
  have hmod := Nat.mod_lt m (Nat.two_pow_pos sh)
  have hm : (m : ℝ) = 2 ^ sh * (m / 2 ^ sh : ℕ) + (m % 2 ^ sh : ℕ) := by
    exact_mod_cast (Nat.div_add_mod m (2 ^ sh)).symm
  have hle := hx.le
  have hlt := hx.lt
  rw [roundsTo_div_iff hpos]
  unfold roundShift
  generalize m / 2 ^ sh = hi at *
  generalize m % 2 ^ sh = r at *
  rw [hP] at hmod ⊢
  rw [hPR] at hm ⊢
  dsimp only
  split
  next hup =>
    have hr : (r : ℝ) + 1 ≤ 2 * P := by exact_mod_cast hmod
    rw [Nat.cast_add_one, abs_of_nonneg (by linarith)]
    rcases hup with hr | ⟨hr, hodd⟩
    · have : (P : ℝ) < r := by exact_mod_cast (by omega : P < r)
      left; linarith
    · have hrP : (r : ℝ) = P := by exact_mod_cast (by omega : r = P)
      cases sticky with
      | true => left; linarith [(truncates_true.mp hx).1]
      | false =>
        refine .inr ⟨by linarith [truncates_false.mp hx], ?_⟩
        exact (Nat.odd_iff.mpr (by simpa using hodd)).add_one
  next hdown =>
    simp only [not_or, not_and] at hdown
    obtain ⟨hrP, htie⟩ := hdown
    have hr : (r : ℝ) ≤ P := by exact_mod_cast (by omega : r ≤ P)
    rw [abs_of_nonpos (by linarith)]
    rcases lt_or_eq_of_le (show r ≤ P by omega) with hr | rfl
    · have : (r : ℝ) + 1 ≤ P := by exact_mod_cast hr
      left; linarith
    · obtain ⟨hst, heven⟩ := htie rfl
      have hxm : x = m := by simpa [hst] using hx
      exact .inr ⟨by linarith, Nat.even_iff.mpr (by omega)⟩

/-! ### The form of a rounded magnitude -/

/-- The magnitude `t · 2^q` rounds to `s · 2^q`: `2^q` is the quantum of the result, so `t` has 24 bits before the point, or
fewer in the subnormal range, and `s` is `t` rounded. -/
structure RoundsAt (t : ℝ) (s : ℕ) (q : ℤ) : Prop where
  quantum : -149 ≤ q
  normal : q = -149 ∨ 2 ^ 23 ≤ t
  nonneg : 0 ≤ t
  lt : t < 2 ^ 24
  rounds : RoundsTo t s

/-- A magnitude below half of the smallest subnormal rounds to zero. -/
theorem roundsAt_zero {t : ℝ} (h0 : 0 ≤ t) (ht : t < 1 / 2) : RoundsAt t 0 (-149) where
  quantum := le_rfl
  normal := .inl rfl
  nonneg := h0
  lt := by linarith
  rounds := .inl (by rw [Nat.cast_zero, zero_sub, abs_neg, abs_of_nonneg h0]; exact ht)

theorem zeroF_eq_packMagnitude (neg : Bool) : zeroF neg = packMagnitude neg 0 (-149) := by
  simp [packMagnitude, zeroF]

section
variable {m : ℕ} {sticky : Bool} {x : ℝ} (hx : Truncates m sticky x)
include hx

theorem Truncates.nonneg : 0 ≤ x := (Nat.cast_nonneg m).trans hx.le

theorem Truncates.two_zpow_le (hm : m ≠ 0) (e : ℤ) : (2 : ℝ) ^ (m.log2 + e) ≤ x * 2 ^ e := by
  have : (2 : ℝ) ^ m.log2 ≤ x := le_trans (by exact_mod_cast Nat.log2_self_le hm) hx.le
  rw [zpow_add₀ two_ne_zero, zpow_natCast]
  gcongr

theorem Truncates.lt_two_zpow (e : ℤ) : x * 2 ^ e < (2 : ℝ) ^ (m.log2 + e + 1) := by
  have : x < 2 ^ (m.log2 + 1) := hx.lt.trans_le (by exact_mod_cast Nat.lt_log2_self)
  rw [add_right_comm, zpow_add₀ two_ne_zero, ← Nat.cast_add_one, zpow_natCast]
  gcongr

/-- The quantum of R10: 24 significant bits, but never below `2^-149`. -/
theorem Truncates.roundsAt (h0 : m ≠ 0) {e q : ℤ} (hq : q = max ((m.log2 : ℤ) + e - 23) (-149)) {s : ℕ}
    (hs : RoundsTo (x * 2 ^ (e - q)) s) : RoundsAt (x * 2 ^ (e - q)) s q where
  quantum := by omega
  normal := by
    refine or_iff_not_imp_left.mpr fun hq' => ?_
    calc (2 : ℝ) ^ 23 = 2 ^ (m.log2 + (e - q)) := by rw [show m.log2 + (e - q) = (23 : ℕ) by omega, zpow_natCast]
      _ ≤ _ := hx.two_zpow_le h0 _
  nonneg := mul_nonneg hx.nonneg (by positivity)
  lt := calc x * 2 ^ (e - q) < (2 : ℝ) ^ (m.log2 + (e - q) + 1) := hx.lt_two_zpow _
    _ ≤ 2 ^ (24 : ℤ) := zpow_le_zpow_right₀ one_le_two (by omega)
    _ = 2 ^ 24 := by norm_num
  rounds := hs

/-- A numerator of at most 24 bits is exact, as `rne32` asks of its callers. -/
theorem Truncates.eq_natCast (hm : sticky = true → 2 ^ 24 ≤ m) (hlt : m < 2 ^ 24) : x = m := by
  cases sticky with
  | false => exact truncates_false.mp hx
  | true => exact absurd (hm rfl) hlt.not_ge

/-- `rne32` packs a rounded magnitude. -/
theorem Truncates.rne32_roundsAt (neg : Bool) (e : ℤ) (hm : sticky = true → 2 ^ 24 ≤ m) :
    ∃ t s q, x * 2 ^ e = t * 2 ^ q ∧ RoundsAt t s q ∧ rne32 neg m e sticky = packMagnitude neg s q := by
  have hscale (q : ℤ) : x * 2 ^ e = x * 2 ^ (e - q) * 2 ^ q := by
    rw [mul_assoc, ← zpow_add₀ two_ne_zero, sub_add_cancel]
  unfold rne32
  split
  next h0 =>
    have hx0 : x = 0 := by rw [hx.eq_natCast hm (by simp [h0]), h0, Nat.cast_zero]
    exact ⟨0, 0, -149, by simp [hx0], roundsAt_zero le_rfl (by norm_num), zeroF_eq_packMagnitude neg⟩
  next h0 =>
    dsimp only
    split
    next htiny =>
      have hhalf : x * 2 ^ (e - -149) < 1 / 2 :=
        calc x * 2 ^ (e - -149) < (2 : ℝ) ^ (m.log2 + (e - -149) + 1) := hx.lt_two_zpow _
          _ ≤ 2 ^ (-1 : ℤ) := zpow_le_zpow_right₀ one_le_two (by omega)
          _ = 1 / 2 := by norm_num
      exact ⟨_, 0, -149, hscale (-149), roundsAt_zero (mul_nonneg hx.nonneg (by positivity)) hhalf,
        zeroF_eq_packMagnitude neg⟩
    next =>
      generalize hq : max ((m.log2 : ℤ) + e - 23) (-149) = q
      split
      next hqe =>
        have hxm : x = m := hx.eq_natCast hm ((Nat.log2_lt h0).mp (by omega))
        refine ⟨_, _, q, hscale q, hx.roundsAt h0 hq.symm ?_, rfl⟩
        convert roundsTo_natCast (m * 2 ^ (e - q).toNat)
        rw [hxm, Nat.cast_mul, Nat.cast_pow, Nat.cast_ofNat, ← zpow_natCast, Int.toNat_of_nonneg (by omega)]
      next hqe =>
        refine ⟨_, _, q, hscale q, hx.roundsAt h0 hq.symm ?_, rfl⟩
        convert roundShift_roundsTo hx (sh := (q - e).toNat) (by omega) using 1
        rw [← zpow_natCast, Int.toNat_of_nonneg (by omega), div_eq_mul_inv, ← zpow_neg, neg_sub]

end

/-! ### Words by sign and magnitude bits -/

/-- The word with this sign and these 31 bits below it. -/
def signedWord (neg : Bool) (b : ℕ) : Word := BitVec.ofNat 32 (signBit neg + b)

/-- `±1` by the sign bit. -/
def signFactor (neg : Bool) : ℝ := if neg then -1 else 1

@[simp] theorem signFactor_false : signFactor false = 1 := rfl

@[simp] theorem signFactor_true : signFactor true = -1 := rfl

section
variable (neg : Bool) {b : ℕ}

theorem field_exponent_signedWord (hb : b < 2 ^ 31) : field 30 23 (signedWord neg b) = b / 2 ^ 23 := by
  cases neg <;> simp [field, signedWord, signBit] <;> omega

theorem field_fraction_signedWord (b : ℕ) : field 22 0 (signedWord neg b) = b % 2 ^ 23 := by
  cases neg <;> simp [field, signedWord, signBit]; omega

theorem bit_sign_signedWord (hb : b < 2 ^ 31) : bit 31 (signedWord neg b) = neg := by
  cases neg <;> simp [bit, field, signedWord, signBit] <;> omega

theorem bit_zero_signedWord (b : ℕ) : bit 0 (signedWord neg b) = decide (b % 2 = 1) := by
  cases neg <;> simp [bit, field, signedWord, signBit]; omega

end

/-- The integer significand of a finite word, with the hidden bit of a normal one. -/
def significand (w : Word) : ℕ := if field 30 23 w = 0 then field 22 0 w else 2 ^ 23 + field 22 0 w

/-- The exponent of the unit of the significand of a finite word. -/
def unitExponent (w : Word) : ℤ := (max 1 (field 30 23 w) : ℕ) - 150

theorem value32_cast (w : Word) :
    (value32 w : ℝ) = signFactor (bit 31 w) * (significand w * 2 ^ unitExponent w) := by
  have hsign : ((if bit 31 w then -1 else 1 : ℚ) : ℝ) = signFactor (bit 31 w) := by
    cases bit 31 w <;> simp
  rw [value32, Rat.cast_mul, hsign, significand, unitExponent]
  congr 1
  split
  next h =>
    rw [h, Rat.cast_div, div_eq_mul_inv]
    norm_num
  next h =>
    rw [max_eq_right (by omega), zpow_sub₀ two_ne_zero, ← mul_div_assoc]
    push_cast
    norm_cast

theorem significand_lt (w : Word) : significand w < 2 ^ 24 := by
  have hf : field 22 0 w < 2 ^ 23 := Nat.mod_lt _ (by norm_num)
  unfold significand
  split <;> omega

theorem le_unitExponent (w : Word) : -149 ≤ unitExponent w := by unfold unitExponent; omega

/-- The value of the bits that `packMagnitude` assembles, a carry out of the fraction included. -/
theorem value32_signedWord (neg : Bool) {s a : ℕ} (hs : s ≤ 2 ^ 24) (hn : a = 0 ∨ 2 ^ 23 ≤ s)
    (hb : a * 2 ^ 23 + s < 255 * 2 ^ 23) :
    (value32 (signedWord neg (a * 2 ^ 23 + s)) : ℝ) = signFactor neg * (s * 2 ^ ((a : ℤ) - 149)) := by
  have hb' : a * 2 ^ 23 + s < 2 ^ 31 := by omega
  rw [value32_cast, bit_sign_signedWord neg hb', significand, unitExponent, field_exponent_signedWord neg hb',
    field_fraction_signedWord]
  congr 1
  rcases (by omega : s < 2 ^ 23 ∨ 2 ^ 23 ≤ s ∧ s < 2 ^ 24 ∨ s = 2 ^ 24) with hlt | ⟨hle, hlt⟩ | rfl
  · obtain rfl : a = 0 := by omega
    rw [if_pos (by omega), max_eq_left (by omega), zero_mul, zero_add, Nat.mod_eq_of_lt hlt]
    norm_num
  · have hex : (a * 2 ^ 23 + s) / 2 ^ 23 = a + 1 := by omega
    have hfr : 2 ^ 23 + (a * 2 ^ 23 + s) % 2 ^ 23 = s := by omega
    rw [hex, hfr, if_neg a.succ_ne_zero, max_eq_right (by omega)]
    congr 2
    push_cast; ring
  · have hex : (a * 2 ^ 23 + 2 ^ 24) / 2 ^ 23 = a + 2 := by omega
    have hfr : (a * 2 ^ 23 + 2 ^ 24) % 2 ^ 23 = 0 := by omega
    rw [hex, hfr, if_neg (by omega), max_eq_right (by omega), show ((a + 2 : ℕ) : ℤ) - 150 = 1 + (a - 149) by push_cast; ring,
      zpow_add₀ two_ne_zero]
    push_cast; ring

/-! ### A packed rounded magnitude is correctly rounded -/

namespace RoundsAt

variable {t : ℝ} {s : ℕ} {q : ℤ} (h : RoundsAt t s q)
include h

theorem le_two_pow : s ≤ 2 ^ 24 := h.rounds.le_of_le (by exact_mod_cast h.lt.le)

theorem subnormal_or_le : (q + 149).toNat = 0 ∨ 2 ^ 23 ≤ s := by
  refine h.normal.imp (by omega) fun ht => ?_
  exact (h.rounds.le_iff_of_even (by decide)).mpr (by push_cast; linarith)

/-- The bits reach those of infinity exactly from `2^128 − 2^103` on. -/
theorem overflow_iff : 255 * 2 ^ 23 ≤ (q + 149).toNat * 2 ^ 23 + s ↔ (2 : ℝ) ^ 128 - 2 ^ 103 ≤ t * 2 ^ q := by
  have hq := h.quantum
  have hs := h.le_two_pow
  have hn := h.subnormal_or_le
  rcases lt_trichotomy q 104 with hlt | rfl | hgt
  · refine iff_of_false (by omega) (not_le.mpr ?_)
    calc t * 2 ^ q < 2 ^ 24 * 2 ^ (103 : ℤ) :=
          mul_lt_mul h.lt (zpow_le_zpow_right₀ one_le_two (by omega)) (by positivity) (by positivity)
      _ ≤ 2 ^ 128 - 2 ^ 103 := by norm_num
  · have hbits : 255 * 2 ^ 23 ≤ ((104 : ℤ) + 149).toNat * 2 ^ 23 + s ↔ 2 ^ 24 ≤ s := by omega
    rw [hbits, h.rounds.le_iff_of_even (by decide), show (104 : ℤ) = (104 : ℕ) by rfl, zpow_natCast]
    push_cast
    constructor <;> intro hle <;> linarith
  · refine iff_of_true (by omega) ?_
    calc (2 : ℝ) ^ 128 - 2 ^ 103 ≤ 2 ^ 23 * 2 ^ (105 : ℤ) := by norm_num
      _ ≤ t * 2 ^ q := mul_le_mul (h.normal.resolve_left (by omega)) (zpow_le_zpow_right₀ one_le_two (by omega))
          (by positivity) h.nonneg

/-- The candidates: a binary32 magnitude is an integer number of quanta, or it has a finer unit and lies below the range of
`t`. -/
theorem scaled_cases {k E : ℤ} (hk : |k| < 2 ^ 24) (hE : -149 ≤ E) :
    ∃ z : ℝ, (k : ℝ) * 2 ^ E = z * 2 ^ q ∧ ((∃ j : ℤ, z = j) ∨ z < 2 ^ 23 ∧ 2 ^ 23 ≤ t) := by
  refine ⟨k * 2 ^ (E - q), by rw [mul_assoc, ← zpow_add₀ two_ne_zero, sub_add_cancel], ?_⟩
  rcases le_or_gt q E with hle | hlt
  · refine .inl ⟨k * 2 ^ (E - q).toNat, ?_⟩
    rw [Int.cast_mul, Int.cast_pow, Int.cast_ofNat, ← zpow_natCast, Int.toNat_of_nonneg (by omega)]
  · refine .inr ⟨?_, h.normal.resolve_left (by omega)⟩
    have hk' : (k : ℝ) < 2 ^ 24 := by exact_mod_cast (abs_lt.mp hk).2
    calc (k : ℝ) * 2 ^ (E - q) < 2 ^ 24 * 2 ^ (E - q) := by gcongr
      _ ≤ 2 ^ 24 * 2 ^ (-1 : ℤ) := by gcongr <;> [norm_num; omega]
      _ = 2 ^ 23 := by norm_num

/-- No candidate is nearer to `t` than `s`, and `s` is even if another one is as near. -/
theorem nearest {z : ℝ} (hz : (∃ j : ℤ, z = j) ∨ z < 2 ^ 23 ∧ 2 ^ 23 ≤ t) :
    |(s : ℝ) - t| ≤ |z - t| ∧ (z ≠ s → |z - t| = |(s : ℝ) - t| → Even s) := by
  rcases hz with ⟨j, rfl⟩ | ⟨hz, ht⟩
  · exact ⟨h.rounds.nearest j, fun hne => h.rounds.even_of_tie (by exact_mod_cast hne)⟩
  · have hlt : |(s : ℝ) - t| < |z - t| :=
      calc |(s : ℝ) - t| ≤ |2 ^ 23 - t| := by convert h.rounds.nearest (2 ^ 23) using 3; norm_num
        _ = t - 2 ^ 23 := by rw [abs_sub_comm, abs_of_nonneg (by linarith)]
        _ < t - z := by linarith
        _ = |z - t| := by rw [abs_sub_comm, abs_of_pos (by linarith)]
    exact ⟨hlt.le, fun _ heq => absurd heq hlt.ne'⟩

end RoundsAt

theorem abs_signFactor (neg : Bool) : |signFactor neg| = 1 := by cases neg <;> simp

/-- Two values of one sign are as far apart as their multiples of the unit `2^q`. -/
theorem abs_sub_scaled (neg : Bool) (z t : ℝ) (q : ℤ) :
    |signFactor neg * (z * 2 ^ q) - signFactor neg * (t * 2 ^ q)| = |z - t| * 2 ^ q := by
  rw [← mul_sub, ← sub_mul, abs_mul, abs_signFactor, one_mul, abs_mul, abs_of_pos (by positivity : (0 : ℝ) < 2 ^ q)]

/-- A word's value seen from a sign: `±k · 2^E` for an integer `k` of at most 24 bits. -/
theorem value32_eq_signFactor_mul (neg : Bool) (w : Word) :
    ∃ k E : ℤ, (value32 w : ℝ) = signFactor neg * (k * 2 ^ E) ∧ |k| < 2 ^ 24 ∧ -149 ≤ E := by
  have hs := significand_lt w
  refine ⟨if neg = bit 31 w then significand w else -significand w, unitExponent w, ?_, ?_, le_unitExponent w⟩
  · rw [value32_cast]
    cases neg <;> cases bit 31 w <;> simp
  · split <;> [skip; rw [abs_neg]] <;> rw [Nat.abs_cast] <;> omega

/-- The bits of a packed magnitude, infinity included. -/
theorem packMagnitude_eq_signedWord (neg : Bool) (s : ℕ) (q : ℤ) :
    packMagnitude neg s q = signedWord neg (min (255 * 2 ^ 23) ((q + 149).toNat * 2 ^ 23 + s)) := by
  unfold packMagnitude
  dsimp only
  split
  next h => rw [min_eq_left h]; rfl
  next h => rw [min_eq_right (by omega)]; rfl

theorem packMagnitude_of_finite (neg : Bool) {s : ℕ} {q : ℤ} (hfin : (q + 149).toNat * 2 ^ 23 + s < 255 * 2 ^ 23) :
    packMagnitude neg s q = signedWord neg ((q + 149).toNat * 2 ^ 23 + s) := by
  rw [packMagnitude_eq_signedWord, min_eq_right hfin.le]

theorem bit_sign_packMagnitude (neg : Bool) (s : ℕ) (q : ℤ) : bit 31 (packMagnitude neg s q) = neg := by
  rw [packMagnitude_eq_signedWord, bit_sign_signedWord _ (by omega)]

theorem not_isNan32_packMagnitude (neg : Bool) (s : ℕ) (q : ℤ) : ¬IsNan32 (packMagnitude neg s q) := by
  rw [packMagnitude_eq_signedWord, IsNan32, field_exponent_signedWord _ (by omega), field_fraction_signedWord]
  omega

theorem rne32_eq_packMagnitude (neg : Bool) (m : ℕ) (e : ℤ) (sticky : Bool) :
    ∃ s q, rne32 neg m e sticky = packMagnitude neg s q := by
  unfold rne32
  split
  · exact ⟨_, _, zeroF_eq_packMagnitude neg⟩
  · dsimp only
    split
    · exact ⟨_, _, zeroF_eq_packMagnitude neg⟩
    · split <;> exact ⟨_, _, rfl⟩

theorem bit_sign_rne32 (neg : Bool) (m : ℕ) (e : ℤ) (sticky : Bool) : bit 31 (rne32 neg m e sticky) = neg := by
  obtain ⟨s, q, h⟩ := rne32_eq_packMagnitude neg m e sticky
  rw [h, bit_sign_packMagnitude]

theorem not_isNan32_rne32 (neg : Bool) (m : ℕ) (e : ℤ) (sticky : Bool) : ¬IsNan32 (rne32 neg m e sticky) := by
  obtain ⟨s, q, h⟩ := rne32_eq_packMagnitude neg m e sticky
  exact h ▸ not_isNan32_packMagnitude neg s q

theorem eq_false_of_signFactor_mul_pos {neg : Bool} {x : ℝ} (hx : 0 ≤ x) (h : 0 < signFactor neg * x) : neg = false := by
  cases neg with
  | false => rfl
  | true => rw [signFactor_true] at h; linarith

theorem eq_true_of_signFactor_mul_neg {neg : Bool} {x : ℝ} (hx : 0 ≤ x) (h : signFactor neg * x < 0) : neg = true := by
  cases neg with
  | false => rw [signFactor_false] at h; linarith
  | true => rfl

namespace RoundsAt

variable {t : ℝ} {s : ℕ} {q : ℤ} (h : RoundsAt t s q) (neg : Bool)
include h

theorem packMagnitude_of_overflow (hbig : (2 : ℝ) ^ 128 - 2 ^ 103 ≤ t * 2 ^ q) : packMagnitude neg s q = infF neg := by
  rw [packMagnitude, if_pos (h.overflow_iff.mpr hbig)]

section
variable (hfin : (q + 149).toNat * 2 ^ 23 + s < 255 * 2 ^ 23)
include hfin

theorem value32_packMagnitude : (value32 (packMagnitude neg s q) : ℝ) = signFactor neg * (s * 2 ^ q) := by
  rw [packMagnitude_of_finite neg hfin, value32_signedWord neg h.le_two_pow h.subnormal_or_le hfin]
  have : (((q + 149).toNat : ℕ) : ℤ) - 149 = q := by have := h.quantum; omega
  rw [this]

/-- No word is nearer to the exact value than the packed one, and a tie leaves an even last bit. -/
theorem packMagnitude_nearest (v : Word) :
    |(value32 (packMagnitude neg s q) : ℝ) - signFactor neg * (t * 2 ^ q)| ≤ |value32 v - signFactor neg * (t * 2 ^ q)| ∧
    (value32 v ≠ value32 (packMagnitude neg s q) →
      |(value32 v : ℝ) - signFactor neg * (t * 2 ^ q)| =
        |(value32 (packMagnitude neg s q) : ℝ) - signFactor neg * (t * 2 ^ q)| →
      bit 0 (packMagnitude neg s q) = false) := by
  obtain ⟨k, E, hv, hk, hE⟩ := value32_eq_signFactor_mul neg v
  obtain ⟨z, hz, hcases⟩ := h.scaled_cases hk hE
  obtain ⟨hle, heven⟩ := h.nearest hcases
  have hvalue := h.value32_packMagnitude neg hfin
  rw [hz] at hv
  rw [hv, hvalue, abs_sub_scaled, abs_sub_scaled]
  refine ⟨by gcongr, fun hne htie => ?_⟩
  have hzs : z ≠ s := by
    rintro rfl
    exact hne (Rat.cast_injective (α := ℝ) (hv.trans hvalue.symm))
  have hs := Nat.even_iff.mp (heven hzs (mul_right_cancel₀ (by positivity) htie))
  rw [packMagnitude_of_finite neg hfin, bit_zero_signedWord]
  exact decide_eq_false (by omega)

end

theorem isRne32 : IsRne32 (signFactor neg * (t * 2 ^ q)) (packMagnitude neg s q) := by
  have hx : 0 ≤ t * 2 ^ q := mul_nonneg h.nonneg (by positivity)
  have hlimit : (0 : ℝ) < 2 ^ 128 - 2 ^ 103 := by norm_num
  refine ⟨fun hr => ?_, fun hr => ?_, fun hr => ?_⟩
  · obtain rfl := eq_false_of_signFactor_mul_pos hx (hlimit.trans_le hr)
    exact h.packMagnitude_of_overflow false (by simpa using hr)
  · obtain rfl := eq_true_of_signFactor_mul_neg hx (hr.trans_lt (neg_lt_zero.mpr hlimit))
    exact h.packMagnitude_of_overflow true (by simpa using neg_le_neg hr)
  · rw [abs_mul, abs_signFactor, one_mul, abs_of_nonneg hx, ← not_le, ← h.overflow_iff, not_le] at hr
    refine ⟨?_, fun hpos => ?_, fun hneg => ?_, fun v _ => (h.packMagnitude_nearest neg hr v).1,
      fun v _ => (h.packMagnitude_nearest neg hr v).2⟩
    · rw [IsFinite32, packMagnitude_of_finite neg hr, field_exponent_signedWord _ (by omega)]
      omega
    · rw [bit_sign_packMagnitude, eq_false_of_signFactor_mul_pos hx hpos]
    · rw [bit_sign_packMagnitude, eq_true_of_signFactor_mul_neg hx hneg]

end RoundsAt

/-- `rne32` is the rounding of 00_scope.md R10, for each numerator that it may be given. -/
theorem Truncates.isRne32_rne32 {m : ℕ} {sticky : Bool} {x : ℝ} (hx : Truncates m sticky x) (neg : Bool) (e : ℤ)
    (hm : sticky = true → 2 ^ 24 ≤ m) : IsRne32 (signFactor neg * (x * 2 ^ e)) (rne32 neg m e sticky) := by
  obtain ⟨t, s, q, hscale, hround, hpack⟩ := hx.rne32_roundsAt neg e hm
  rw [hscale, hpack]
  exact hround.isRne32 neg

/-! ### Powers of two by half steps -/

/-- `√2 · 2^64` lies strictly above `sqrt2Scaled`, by less than 1. -/
theorem truncates_sqrt2Scaled : Truncates sqrt2Scaled true (√2 * 2 ^ 64) := by
  have hsq : √2 * 2 ^ 64 = √(2 * (2 ^ 64) ^ 2) := by
    rw [Real.sqrt_mul zero_le_two, Real.sqrt_sq (by positivity)]
  rw [hsq]
  constructor
  · exact Real.lt_sqrt_of_sq_lt (by norm_num [sqrt2Scaled])
  · exact (Real.sqrt_lt' (by positivity)).mpr (by norm_num [sqrt2Scaled])

theorem two_rpow_half_even (k : ℤ) : (2 : ℝ) ^ (((2 * k : ℤ) : ℝ) / 2) = 2 ^ k := by
  rw [Int.cast_mul, Int.cast_ofNat, mul_div_cancel_left₀ _ two_ne_zero, Real.rpow_intCast]

theorem two_rpow_half_odd (k : ℤ) : (2 : ℝ) ^ (((2 * k + 1 : ℤ) : ℝ) / 2) = √2 * 2 ^ 64 * 2 ^ (k - 64) := by
  have hexp : ((2 * k + 1 : ℤ) : ℝ) / 2 = k + 1 / 2 := by push_cast; ring
  rw [hexp, Real.rpow_add two_pos, Real.rpow_intCast, ← Real.sqrt_eq_rpow, mul_assoc, ← zpow_natCast 2 64,
    ← zpow_add₀ two_ne_zero, mul_comm]
  norm_num

theorem pow2h_even (k : ℤ) : pow2h (2 * k) = rne32 false 1 k false := by
  rw [pow2h, if_pos (by omega), Int.mul_ediv_cancel_left _ two_ne_zero]

theorem pow2h_odd (k : ℤ) : pow2h (2 * k + 1) = rne32 false sqrt2Scaled (k - 64) true := by
  rw [pow2h, if_neg (by omega), show (2 * k + 1) / 2 = k by omega]

/-- Settles O56: an even `p` rounds an exact power of two, an odd `p` a truncated multiple of `√2`, and `rne32` rounds both. -/
theorem powersAreCorrectlyRounded : Obligations.PowersAreCorrectlyRounded := by
  intro p
  obtain ⟨k, rfl | rfl⟩ := Int.even_or_odd' p
  · rw [two_rpow_half_even, pow2h_even]
    refine ⟨?_, bit_sign_rne32 .., not_isNan32_rne32 _ _ _ _⟩
    have hone : Truncates 1 false 1 := by simp
    simpa using hone.isRne32_rne32 false k (by simp)
  · rw [two_rpow_half_odd, pow2h_odd]
    refine ⟨?_, bit_sign_rne32 .., not_isNan32_rne32 _ _ _ _⟩
    simpa only [signFactor_false, one_mul] using
      truncates_sqrt2Scaled.isRne32_rne32 false (k - 64) fun _ => by norm_num [sqrt2Scaled]

/-! ### Sums -/

/-- Settles O55: a fold over a list with one more term ends with the step on that term. -/
theorem sumIsLeftFold : Obligations.SumIsLeftFold := by
  refine ⟨rfl, fun t => rfl, fun ts t hne => ?_⟩
  cases ts with
  | nil => exact absurd rfl hne
  | cons u us => exact List.foldl_concat add32 u t us

end Sys2Proof.Machine
end

section
/-! PROOFS. `CMD` on the bus (10_state.md R30): what a read of it answers, and what a write to it does. -/

namespace Sys2Proof.Machine

/-- A read of `CMD` answers with the word and issues nothing. -/
@[simp] theorem State.access_read_cmd (s : State) : s.access (.read 0x0000C 4) = (.data s.regs.cmd, s) := rfl

/-- A write to `CMD` issues the word. -/
@[simp] theorem State.access_write_cmd (s : State) (data : Word) :
    s.access (.write 0x0000C 4 data) = (.done, s.issue data (Config.tCmd data)) := rfl

theorem State.issue_regs (s : State) (w : Word) (k : Nat) :
    (s.issue w k).regs = { s.regs with cmd := w, status := s.regs.status ||| busyMask } := rfl

/-- Settles O21: the state after the write is the old one with the word issued. -/
theorem cmdWriteIssuesCommand : Obligations.CmdWriteIssuesCommand := by
  refine ⟨rfl, rfl, fun s data => ⟨s.issue data (Config.tCmd data), Config.tCmd data, ?_⟩⟩
  have readBack := (s.issue data (Config.tCmd data)).access_read_cmd
  rw [State.issue_cmd] at readBack
  exact ⟨s.access_write_cmd data, State.issue_pending .., State.issue_regs .., State.issue_mem .., State.issue_held ..,
    State.issue_host .., State.issue_resp .., readBack⟩

end Sys2Proof.Machine
end

section
/-! PROOFS. The address map (20_memory.md R61, 10_state.md R39, R40) as ranges, and which accesses the bus serves
(20_memory.md R62 to R65). -/

namespace Sys2Proof.Machine

/-! ### The address map -/

theorem mem_allRams (r : Ram) : r ∈ allRams := by cases r <;> decide

theorem Ram.contains_iff (r : Ram) (c : Ch) (a : Nat) :
    r.contains c a = true ↔ r.base c ≤ a ∧ a < r.base c + r.bytes := by
  simp [Ram.contains]

theorem inCram_iff (a : Nat) : inCram a = true ↔ 0x01000 ≤ a ∧ a < 0x01A00 := by
  rw [inCram, Bool.and_eq_true, decide_eq_true_iff, decide_eq_true_iff]
  rfl

theorem mappedRam_iff (a : Nat) :
    mappedRam a = true ↔ inCram a = true ∨ (∃ r : Ram, r.contains 0 a = true) ∨ ∃ r : Ram, r.contains 1 a = true := by
  simp [mappedRam, mem_allRams, exists_or]

/-- Every RAM ends inside its channel window. -/
theorem Ram.off_add_bytes_le (r : Ram) : r.off + r.bytes ≤ chanSize := by cases r <;> decide

/-- The lines of 10_state.md R40 are the ranges of the RAMs. -/
theorem offsetMapped_iff (o : Nat) : OffsetMapped o ↔ ∃ r : Ram, r.off ≤ o ∧ o < r.off + r.bytes := by
  constructor
  · intro h
    have inSome : ∃ r ∈ allRams, r.off ≤ o ∧ o < r.off + r.bytes := by
      simp only [allRams, List.exists_mem_cons_iff, Ram.off, Ram.bytes, Ram.parts, Ram.rows, Ram.cols]
      unfold OffsetMapped at h
      omega
    obtain ⟨r, -, hr⟩ := inSome
    exact ⟨r, hr⟩
  · rintro ⟨r, hlo, hhi⟩
    unfold OffsetMapped
    cases r <;> simp only [Ram.off, Ram.bytes, Ram.parts, Ram.rows, Ram.cols] at hlo hhi <;> omega

/-- An address is in a RAM of a channel exactly when it lies in the channel's window at a mapped offset. -/
theorem exists_contains_iff (c : Ch) (a : Nat) :
    (∃ r : Ram, r.contains c a = true) ↔
      chanBase c ≤ a ∧ a < chanBase c + chanSize ∧ OffsetMapped (a - chanBase c) := by
  simp only [Ram.contains_iff, offsetMapped_iff, Ram.base]
  constructor
  · rintro ⟨r, hlo, hhi⟩
    have := r.off_add_bytes_le
    exact ⟨by omega, by omega, r, by omega, by omega⟩
  · rintro ⟨hbase, -, r, hlo, hhi⟩
    exact ⟨r, by omega, by omega⟩

/-- The map of the spec's tables is the model's: the register block and the mapped RAMs. -/
theorem addressExists_iff (a : Nat) : AddressExists a ↔ a < regEnd ∨ mappedRam a = true := by
  rw [mappedRam_iff, inCram_iff, exists_contains_iff, exists_contains_iff]
  rfl

/-! ### The accesses the bus serves -/

theorem accessLegal_iff (addr size : Nat) :
    accessLegal addr size = true ↔ size = 4 ∧ addr % 4 = 0 ∧ AddressExists addr := by
  simp [accessLegal, addressExists_iff, and_assoc]

section Access
variable (s : State) {addr : BitVec 20} {size : Nat} (data : Word)

theorem State.access_read_of_legal (h : accessLegal addr.toNat size = true) :
    s.access (.read addr size) =
      (.data (if addr.toNat < regEnd then s.readReg addr.toNat else s.mem.readWord addr.toNat), s) := if_pos h

theorem State.access_read_of_not_legal (h : ¬accessLegal addr.toNat size = true) :
    s.access (.read addr size) = (.busError, s) := if_neg h

theorem State.access_write_of_legal (h : accessLegal addr.toNat size = true) :
    s.access (.write addr size data) =
      (.done, if addr.toNat < regEnd then s.writeReg addr.toNat data
        else { s with mem := s.mem.writeWords addr.toNat [data] }) := if_pos h

theorem State.access_write_of_not_legal (h : ¬accessLegal addr.toNat size = true) :
    s.access (.write addr size data) = (.busError, s) := if_neg h

theorem State.access_read_busError_iff :
    (s.access (.read addr size)).1 = .busError ↔ ¬accessLegal addr.toNat size = true := by
  by_cases h : accessLegal addr.toNat size = true
  · simp [s.access_read_of_legal h, h]
  · simp [s.access_read_of_not_legal h, h]

theorem State.access_write_busError_iff :
    (s.access (.write addr size data)).1 = .busError ↔ ¬accessLegal addr.toNat size = true := by
  by_cases h : accessLegal addr.toNat size = true
  · simp [s.access_write_of_legal data h, h]
  · simp [s.access_write_of_not_legal data h, h]

end Access

/-! ### The reserved register offsets -/

theorem State.readReg_reserved (s : State) {off : Nat} (h : 0x040 ≤ off) : s.readReg off = 0 := by
  unfold State.readReg
  split
  case h_17 => rfl
  all_goals omega

theorem State.writeReg_reserved (s : State) {off : Nat} (data : Word) (h : 0x040 ≤ off) : s.writeReg off data = s := by
  unfold State.writeReg
  split
  case h_15 => rfl
  all_goals omega

/-- Settles O17: the bus serves exactly the legal accesses, and a legal access is one aligned word of the map. -/
theorem busErrorsExactly : Obligations.BusErrorsExactly := by
  intro s addr size data
  rw [State.access_read_busError_iff, State.access_write_busError_iff, accessLegal_iff]
  refine ⟨.rfl, .rfl, fun hlo hhi halign => ?_⟩
  have hreg : addr.toNat < regEnd := Nat.lt_succ_of_le hhi
  have hlegal : accessLegal addr.toNat 4 = true := (accessLegal_iff _ _).mpr ⟨rfl, halign, .inl hreg⟩
  rw [s.access_read_of_legal hlegal, s.access_write_of_legal data hlegal, if_pos hreg, if_pos hreg,
    s.readReg_reserved hlo, s.writeReg_reserved data hlo]
  exact ⟨rfl, rfl⟩

/-- Settles O18: a read never changes the state, and a write that is refused does not. -/
theorem readsAndBusErrorsChangeNothing : Obligations.ReadsAndBusErrorsChangeNothing := by
  intro s a
  constructor
  · intro hrefused
    cases a with
    | read addr size => exact s.access_read addr size
    | write addr size data =>
      rw [s.access_write_of_not_legal data ((s.access_write_busError_iff data).mp hrefused)]
  · rintro addr size rfl
    exact s.access_read addr size

end Sys2Proof.Machine
end

section
/-! PROOFS. Opcodes (30_encoding.md R85, R86): which `OP` fields the decoder refuses and how a command with one ends, and
the encoding examples of R92. -/

namespace Sys2Proof.Machine

/-! ### The opcode of a word -/

theorem field_lt (hi lo : Nat) (w : Word) : field hi lo w < 2 ^ (hi + 1 - lo) := Nat.mod_lt _ (by positivity)

theorem mem_allOpcodes (o : Opcode) : o ∈ allOpcodes := by cases o <;> decide

theorem opcodeOf_eq_none_iff (n : Nat) : opcodeOf n = none ↔ ¬∃ o : Opcode, o.code = n := by
  simp [opcodeOf, mem_allOpcodes]

/-- The gaps between the illegal ranges of R86 are the codes of the map of R85. -/
theorem legalOp_iff_exists_code (w : Word) : LegalOp w ↔ ∃ o : Opcode, o.code = field 31 26 w := by
  constructor
  · intro h
    have hlt : field 31 26 w < 64 := field_lt 31 26 w
    have inMap : ∃ o ∈ allOpcodes, o.code = field 31 26 w := by
      simp only [allOpcodes, List.exists_mem_cons_iff, Opcode.code]
      unfold LegalOp at h
      omega
    obtain ⟨o, -, ho⟩ := inMap
    exact ⟨o, ho⟩
  · rintro ⟨o, ho⟩
    rw [LegalOp, ← ho]
    cases o <;> decide

theorem opcodeOf_eq_none_iff_not_legalOp (w : Word) : opcodeOf (field 31 26 w) = none ↔ ¬LegalOp w := by
  rw [opcodeOf_eq_none_iff, legalOp_iff_exists_code]

theorem decode_illegalOp_iff (w : Word) : decode w = .error .illegalOp ↔ ¬LegalOp w := by
  rw [← opcodeOf_eq_none_iff_not_legalOp, decode]
  cases opcodeOf (field 31 26 w) with
  | none => simp
  | some o => cases h : reservedClear o w <;> simp [h]

/-! ### The end of a command with an error -/

/-- The masks of Machine/Flags.lean are those of 60_exceptions.md R184, written as numbers in `statusWithError`. -/
theorem statusAfterErr_eq_statusWithError (e : CmdError) (st : Word) :
    statusAfterErr e st = statusWithError (errorCode e) st := by
  have shiftCode : BitVec.ofNat 32 (errorCode e) <<< 8 = BitVec.ofNat 32 (errorCode e * 256) := by cases e <;> decide
  rw [statusAfterErr, shiftCode]
  rfl

theorem State.endErr_eq_endedErr (s : State) (e : CmdError) : s.endErr e = endedErr (errorCode e) s := by
  rw [State.endErr, Regs.endErr, statusAfterErr_eq_statusWithError, endedErr]

/-- A pending word that does not decode ends its command with the decoder's error. -/
theorem step_of_decode_error {s : State} {w : Word} {e : CmdError} (hp : s.pending = some ⟨w, 0⟩)
    (hd : decode w = .error e) : step s = .next (endedErr (errorCode e) s) := by
  rw [step_of_ready hp, runWord_of_error hd, State.endErr_eq_endedErr]

/-- Settles O4: the decoder refuses a word as illegal exactly when its `OP` field is no code of the map of R85. -/
theorem illegalOpcodesExactly : Obligations.IllegalOpcodesExactly := by
  refine ⟨decode_illegalOp_iff, fun s w hp hw => ?_⟩
  rw [step_of_decode_error hp ((decode_illegalOp_iff w).mpr hw), errorCode]

/-! ### The examples of R92 -/

/-- Settles O1: the table column by column, its text, its word and the decoding of the word; every row is closed. -/
theorem specExamplesEncodeAndDecode : Obligations.SpecExamplesEncodeAndDecode := by
  refine ⟨?_, rfl, by decide, by decide⟩
  simp only [forall_and]
  refine ⟨?_, ?_, ?_⟩
  · decide
  · decide
  · decide

end Sys2Proof.Machine
end

section
/-! PROOFS. The map of 10_state.md R40, R41 gives every element its own bytes: RAMs and the slots of a RAM do not overlap. A
loop of a command that stores one row a turn is then determined row by row. -/

namespace Sys2Proof.Machine

/-! ### Rows do not overlap -/

/-- The `n` elements from band `k` of slot `i` are elements of the RAM. -/
def Ram.Fits (r : Ram) (i k n : Nat) : Prop := i < r.rows ∧ k + n ≤ r.cols

theorem Ram.off_disjoint {r q : Ram} (h : r ≠ q) : r.off + r.bytes ≤ q.off ∨ q.off + q.bytes ≤ r.off := by
  have inMap : ∀ r ∈ allRams, ∀ q ∈ allRams, r ≠ q → r.off + r.bytes ≤ q.off ∨ q.off + q.bytes ≤ r.off := by decide
  exact inMap r (mem_allRams r) q (mem_allRams q) h

/-- A byte lies in at most one RAM of one channel. -/
theorem Ram.eq_of_contains {r q : Ram} {c d : Ch} {a : Nat} (hr : r.contains c a = true) (hq : q.contains d a = true) :
    r = q ∧ c = d := by
  rw [Ram.contains_iff] at hr hq
  simp only [Ram.base, chanBase] at hr hq
  have hrEnd := r.off_add_bytes_le
  have hqEnd := q.off_add_bytes_le
  simp only [chanSize] at hrEnd hqEnd
  have hcd : c = d := Fin.ext (by omega)
  subst hcd
  refine ⟨by_contra fun hne => ?_, rfl⟩
  have := Ram.off_disjoint hne
  omega

/-- A run of elements of slot `i` ends before a later slot begins. -/
theorem Ram.addr_add_le (r : Ram) (c : Ch) {i j k n : Nat} (hij : i < j) (hn : k + n ≤ r.cols) :
    r.addr c i k + 4 * (r.parts * n) ≤ r.addr c j 0 := by
  have hslot : i * r.cols + (k + n) ≤ j * r.cols := calc
    i * r.cols + (k + n) ≤ (i + 1) * r.cols := by rw [Nat.add_one_mul]; omega
    _ ≤ j * r.cols := Nat.mul_le_mul_right _ hij
  have hwords := Nat.mul_le_mul_left r.parts hslot
  simp only [Ram.addr, Nat.mul_add] at hwords ⊢
  omega

theorem InRow.contains {r : Ram} {c : Ch} {i k n a : Nat} (h : InRow r c i k n a) (hfit : r.Fits i k n) :
    r.contains c a = true := by
  rw [Ram.contains_iff]
  obtain ⟨hlo, hhi⟩ := h
  have hend := r.addr_add_le c hfit.1 hfit.2
  rw [show r.addr c r.rows 0 = r.base c + r.bytes from rfl] at hend
  exact ⟨(Nat.le_add_right _ _).trans hlo, by omega⟩

theorem InRow.not_of_lt {r : Ram} {c : Ch} {i j k k' n n' a : Nat} (h : InRow r c i k n a) (hij : i < j)
    (hn : k + n ≤ r.cols) : ¬InRow r c j k' n' a := by
  rintro ⟨hlo, -⟩
  have hend := r.addr_add_le c hij hn
  have hband := r.addr_succ c j 0 k'
  rw [Nat.zero_add] at hband
  have := h.2
  omega

/-- A byte lies in one slot of one RAM of one channel. -/
theorem InRow.eq_of_inRow {r q : Ram} {c d : Ch} {i j k k' n n' a : Nat} (hr : InRow r c i k n a)
    (hq : InRow q d j k' n' a) (hrFit : r.Fits i k n) (hqFit : q.Fits j k' n') : r = q ∧ c = d ∧ i = j := by
  obtain ⟨rfl, rfl⟩ := Ram.eq_of_contains (hr.contains hrFit) (hq.contains hqFit)
  rcases Nat.lt_trichotomy i j with hlt | heq | hgt
  · exact absurd hq (hr.not_of_lt hlt hrFit.2)
  · exact ⟨rfl, rfl, heq⟩
  · exact absurd hr (hq.not_of_lt hgt hqFit.2)

/-! ### Rows of real elements -/

/-- A real element is read from its own bytes. -/
theorem Memory.real_congr {m m' : Memory} {r : Ram} {c : Ch} {i k : Nat} (hr : r.parts = 1)
    (h : ∀ a, InRow r c i k 1 a → m.readByte a = m'.readByte a) : m.real r c i k = m'.real r c i k :=
  Memory.readWord_congr fun j hj => h _ ⟨Nat.le_add_right _ _, by rw [hr]; omega⟩

theorem Memory.realRow_eq_map (m : Memory) {r : Ram} (c : Ch) (i n : Nat) (hr : r.parts = 1) :
    m.realRow r c i 0 n = (List.range n).map (m.real r c i) := by
  rw [Memory.realRow, Memory.readWords_eq_map]
  refine List.map_congr_left fun k _ => ?_
  rw [Memory.real, ← Nat.zero_add k, Ram.addr_succ, hr, Nat.one_mul, Nat.zero_add]

theorem Memory.real_setRow_map (m : Memory) {r : Ram} (c : Ch) (i : Nat) {n k : Nat} (g : Nat → Word) (hr : r.parts = 1)
    (hk : k < n) : (m.setRow r c i 0 ((List.range n).map g)).real r c i k = g k := by
  have hread := m.real_setRow r c i 0 ((List.range n).map g) hr (j := k) (by simpa using hk)
  rw [Nat.zero_add] at hread
  rw [hread, List.getD_eq_getElem _ _ (by simpa using hk), List.getElem_map, List.getElem_range]

theorem Memory.readByte_setRow_map {m : Memory} {r : Ram} {c : Ch} {i n a : Nat} {g : Nat → Word} (hr : r.parts = 1)
    (h : ¬InRow r c i 0 n a) : (m.setRow r c i 0 ((List.range n).map g)).readByte a = m.readByte a :=
  Memory.readByte_setRow_outside (by simpa [InRow, hr] using h)

/-! ### Loops over the rows of a grid -/

/-- Two different RAMs of real elements with the same slots and bands, as an index RAM and its result RAM (10_state.md R53). -/
structure Ram.SameShape (src dst : Ram) : Prop where
  ne : src ≠ dst
  srcParts : src.parts = 1
  dstParts : dst.parts = 1
  rows : src.rows = dst.rows
  cols : src.cols = dst.cols

theorem Ram.SameShape.fits {src dst : Ram} (hs : src.SameShape dst) {i k n : Nat} (h : dst.Fits i k n) :
    src.Fits i k n := by
  rw [Ram.Fits, hs.rows, hs.cols]
  exact h

theorem Ram.Fits.element {r : Ram} {i n k : Nat} (h : r.Fits i 0 n) (hk : k < n) : r.Fits i k 1 :=
  ⟨h.1, by have := h.2; omega⟩

/-- Turn `l` of a loop stores `n l` elements of slot `l` of `dst` in each channel of `D`, each computed by `val` from the
elements of `src` at the same place in the channels, and no other byte. -/
structure WritesRows (src dst : Ram) (D : Ch → Prop) (n : Nat → Nat) (val : (Ch → Word) → Ch → Word)
    (f : Memory → Nat → Memory) : Prop where
  value : ∀ m l, dst.Fits l 0 (n l) → ∀ k < n l, ∀ d, D d → (f m l).real dst d l k = val (fun e => m.real src e l k) d
  frame : ∀ m l a, (∀ d, D d → ¬InRow dst d l 0 (n l) a) → (f m l).readByte a = m.readByte a

section
variable {src dst : Ram} {D : Ch → Prop} {n : Nat → Nat} {val : (Ch → Word) → Ch → Word} {f : Memory → Nat → Memory}
  (hf : WritesRows src dst D n val f)
include hf

theorem WritesRows.readByte_foldl {L a : Nat} (h : ∀ l < L, ∀ d, D d → ¬InRow dst d l 0 (n l) a) (m : Memory) :
    ((List.range L).foldl f m).readByte a = m.readByte a :=
  Memory.readByte_foldl (fun m l hl => hf.frame m l a (h l (List.mem_range.mp hl))) m

/-- Every element that the loop stores is computed from the memory before the loop: no turn writes what a turn reads, and
no later turn writes the slot again. -/
theorem WritesRows.real_foldl (hs : src.SameShape dst) {L : Nat} (hfit : ∀ l < L, dst.Fits l 0 (n l)) (m : Memory)
    {l k : Nat} {d : Ch} (hl : l < L) (hk : k < n l) (hd : D d) :
    ((List.range L).foldl f m).real dst d l k = val (fun e => m.real src e l k) d := by
  induction L with
  | zero => omega
  | succ L ih =>
    have hlFit := (hfit l hl).element hk
    rw [List.range_succ, List.foldl_append, List.foldl_cons, List.foldl_nil]
    by_cases hlL : l = L
    · subst hlL
      rw [hf.value _ _ (hfit l hl) k hk d hd]
      congr 1
      funext e
      refine Memory.real_congr hs.srcParts fun a ha => hf.readByte_foldl (fun i hi d _ hrow => ?_) m
      exact hs.ne (ha.eq_of_inRow hrow (hs.fits hlFit) (hfit i (by omega))).1
    · rw [← ih (fun i hi => hfit i (by omega)) (by omega)]
      refine Memory.real_congr hs.dstParts fun a ha => hf.frame _ _ a fun d' _ hrow => hlL ?_
      exact (ha.eq_of_inRow hrow hlFit (hfit L (by omega))).2.2

end

end Sys2Proof.Machine
end

section
/-! PROOFS. The ends of a command in the terms of Safety.lean (60_exceptions.md R184, R186), the reserved bits of a word with
a known opcode (R182), and the grid checks of R183. -/

namespace Sys2Proof.Machine

/-- A command that passes its checks ends without error in the sense of R186. -/
theorem State.endedOk_endOk (s : State) (m : Memory) : EndedOk s (s.endOk m) := ⟨rfl, rfl, rfl, rfl, rfl⟩

/-- A command with one check, by its outcome. -/
theorem State.command_failing (s : State) (e : CmdError) (passes : Bool) (f : Memory → Memory) :
    s.command (failing e passes) f =
      if passes = true then .next (s.endOk (f s.mem)) else .next (endedErr (errorCode e) s) := by
  rw [← State.endErr_eq_endedErr]
  cases passes <;> rfl

theorem opcodeOf_code (o : Opcode) : opcodeOf o.code = some o := by cases o <;> rfl

theorem decode_eq_reserved {w : Word} (o : Opcode) (hop : field 31 26 w = o.code) (h : reservedClear o w = false) :
    decode w = .error .reserved := by
  simp [decode, hop, opcodeOf_code, h]

theorem envGridLegal_iff (r : Regs) (c : Ch) : envGridLegal r c = true ↔ EnvGridLegal r c := by
  simp [envGridLegal, EnvGridLegal]

theorem noiseGridLegal_iff (r : Regs) (c : Ch) : noiseGridLegal r c = true ↔ NoiseGridLegal r c := by
  simp [noiseGridLegal, NoiseGridLegal]

theorem not_envGridLegal {r : Regs} {c : Ch} (h : 5 < r.le c ∨ ∃ l < r.le c, 64 < r.nb c l) :
    ¬envGridLegal r c = true := by
  rw [envGridLegal_iff]
  rintro ⟨hle, hnb⟩
  rcases h with h | ⟨l, hl, h⟩
  · omega
  · exact absurd (hnb l hl) (by omega)

theorem not_noiseGridLegal {r : Regs} {c : Ch} (h : 2 < r.lq c ∨ 8 < r.nqb c) : ¬noiseGridLegal r c = true := by
  rw [noiseGridLegal_iff]
  rintro ⟨hlq, hnqb⟩
  omega

end Sys2Proof.Machine
end

section
/-! PROOFS. The dequantization commands (40_dequant.md R100 to R112): each is a loop over the rows of its grid, and what it
stores is the element by element value of the rules. -/

namespace Sys2Proof.Machine

/-! ### The loops -/

/-- The loop of a command on one channel (40_dequant.md R102, R105). -/
def deqGrid (src dst : Ram) (c : Ch) (scale off : Int) (n : Nat → Nat) (L : Nat) (m : Memory) : Memory :=
  (List.range L).foldl (fun m l => deqRow src dst c scale off l (n l) m) m

/-- The loop of a coupled command (40_dequant.md R108, R111). -/
def deqPairGrid (src dst : Ram) (scale off pan panScale : Int) (n : Nat → Nat) (L : Nat) (m : Memory) : Memory :=
  (List.range L).foldl (fun m l => deqPairRow src dst scale off pan panScale l (n l) m) m

/-- A member of a coupled pair, by its channel, from the indices of both channels (40_dequant.md R109). -/
def pairMember (scale off pan panScale : Int) (x : Ch → Word) (d : Ch) : Word :=
  if d = 0 then pairFirst (deqPower scale off (x 0)) (panPower pan panScale (x 1))
  else pairSecond (deqPower scale off (x 0)) (panPower pan panScale (x 1))

theorem exec_deqEnv (c : Ch) (s : State) :
    exec (.deqEnv c) s = s.command (failing .grid (envGridLegal s.regs c))
      (deqGrid .EQ .EO c (s.regs.ah c) s.regs.envOff (s.regs.nb c) (s.regs.le c)) := rfl

theorem exec_deqNoise (c : Ch) (s : State) :
    exec (.deqNoise c) s = s.command (failing .grid (noiseGridLegal s.regs c))
      (deqGrid .QQ .QO c s.regs.ns s.regs.noiseOff (fun _ => s.regs.nqb c) (s.regs.lq c)) := rfl

theorem exec_deqEnvCpl (s : State) :
    exec .deqEnvCpl s = s.command (firstError [failing .config s.regs.cpl, failing .grid (envGridLegal s.regs 0)])
      (deqPairGrid .EQ .EO (s.regs.ah 0) s.regs.cplEoff s.regs.panE (s.regs.ah 1) (s.regs.nb 0) (s.regs.le 0)) := rfl

theorem exec_deqNoiseCpl (s : State) :
    exec .deqNoiseCpl s = s.command (firstError [failing .config s.regs.cpl, failing .grid (noiseGridLegal s.regs 0)])
      (deqPairGrid .QQ .QO s.regs.ns s.regs.cplNoff s.regs.panN 2 (fun _ => s.regs.nqb 0) (s.regs.lq 0)) := rfl

/-! ### One row -/

theorem sameShape_EQ_EO : Ram.SameShape .EQ .EO := ⟨by decide, rfl, rfl, rfl, rfl⟩

theorem sameShape_QQ_QO : Ram.SameShape .QQ .QO := ⟨by decide, rfl, rfl, rfl, rfl⟩

section
variable {src dst : Ram} (hs : src.SameShape dst)
include hs

theorem deqRow_eq_setRow_map (c : Ch) (scale off : Int) (l n : Nat) (m : Memory) :
    deqRow src dst c scale off l n m =
      m.setRow dst c l 0 ((List.range n).map fun k => deqPower scale off (m.real src c l k)) := by
  rw [deqRow, Memory.realRow_eq_map _ _ _ _ hs.srcParts, List.map_map]
  rfl

theorem deqPairRow_eq_setRow_map (scale off pan panScale : Int) (l n : Nat) (m : Memory) :
    deqPairRow src dst scale off pan panScale l n m =
      (m.setRow dst 0 l 0 ((List.range n).map fun k => pairMember scale off pan panScale (fun e => m.real src e l k) 0)).setRow
        dst 1 l 0 ((List.range n).map fun k => pairMember scale off pan panScale (fun e => m.real src e l k) 1) := by
  simp only [deqPairRow, Memory.realRow_eq_map _ _ _ _ hs.srcParts, List.map_map, List.zipWith_map, List.zipWith_self]
  rfl

theorem writesRows_deqRow (c : Ch) (scale off : Int) (n : Nat → Nat) :
    WritesRows src dst (· = c) n (fun x d => deqPower scale off (x d))
      (fun m l => deqRow src dst c scale off l (n l) m) where
  value := by
    rintro m l - k hk d rfl
    rw [deqRow_eq_setRow_map hs, Memory.real_setRow_map _ _ _ _ hs.dstParts hk]
  frame m l a h := by
    rw [deqRow_eq_setRow_map hs, Memory.readByte_setRow_map hs.dstParts (h c rfl)]

/-- The second store of a coupled row, in channel 1, leaves the first, in channel 0. -/
theorem writesRows_deqPairRow (scale off pan panScale : Int) (n : Nat → Nat) :
    WritesRows src dst (fun _ => True) n (pairMember scale off pan panScale)
      (fun m l => deqPairRow src dst scale off pan panScale l (n l) m) where
  value m l hfit k hk d _ := by
    rw [deqPairRow_eq_setRow_map hs]
    match d with
    | 0 =>
      have hkeep : ∀ a, InRow dst 0 l k 1 a → ¬InRow dst 1 l 0 (n l) a := fun a ha hrow =>
        absurd (ha.eq_of_inRow hrow (hfit.element hk) hfit).2.1 (by decide)
      rw [Memory.real_congr hs.dstParts fun a ha => Memory.readByte_setRow_map hs.dstParts (hkeep a ha),
        Memory.real_setRow_map _ _ _ _ hs.dstParts hk]
    | 1 => rw [Memory.real_setRow_map _ _ _ _ hs.dstParts hk]
  frame m l a h := by
    rw [deqPairRow_eq_setRow_map hs, Memory.readByte_setRow_map hs.dstParts (h 1 trivial),
      Memory.readByte_setRow_map hs.dstParts (h 0 trivial)]

/-! ### The grid -/

section Grid
variable {n : Nat → Nat} {L : Nat}

theorem real_deqGrid (c : Ch) (scale off : Int) (hfit : ∀ l < L, dst.Fits l 0 (n l)) (m : Memory) {l k : Nat} (hl : l < L)
    (hk : k < n l) :
    (deqGrid src dst c scale off n L m).real dst c l k = deqPower scale off (m.real src c l k) :=
  (writesRows_deqRow hs c scale off n).real_foldl hs hfit m hl hk rfl

theorem readByte_deqGrid (c : Ch) (scale off : Int) (m : Memory) {a : Nat}
    (h : ¬∃ l < L, InRow dst c l 0 (n l) a) : (deqGrid src dst c scale off n L m).readByte a = m.readByte a := by
  refine (writesRows_deqRow hs c scale off n).readByte_foldl ?_ m
  rintro l hl d rfl hrow
  exact h ⟨l, hl, hrow⟩

theorem real_deqPairGrid (scale off pan panScale : Int) (hfit : ∀ l < L, dst.Fits l 0 (n l)) (m : Memory) {l k : Nat}
    (hl : l < L) (hk : k < n l) (d : Ch) :
    (deqPairGrid src dst scale off pan panScale n L m).real dst d l k =
      pairMember scale off pan panScale (fun e => m.real src e l k) d :=
  (writesRows_deqPairRow hs scale off pan panScale n).real_foldl hs hfit m hl hk trivial

theorem readByte_deqPairGrid (scale off pan panScale : Int) (m : Memory) {a : Nat}
    (h : ¬∃ l < L, InRow dst 0 l 0 (n l) a ∨ InRow dst 1 l 0 (n l) a) :
    (deqPairGrid src dst scale off pan panScale n L m).readByte a = m.readByte a := by
  refine (writesRows_deqPairRow hs scale off pan panScale n).readByte_foldl ?_ m
  intro l hl d _ hrow
  match d with
  | 0 => exact h ⟨l, hl, .inl hrow⟩
  | 1 => exact h ⟨l, hl, .inr hrow⟩

end Grid

end

theorem fits_EO {r : Regs} {c : Ch} (h : EnvGridLegal r c) : ∀ l < r.le c, Ram.EO.Fits l 0 (r.nb c l) := fun l hl =>
  ⟨hl.trans_le h.1, (Nat.zero_add _).trans_le (h.2 l hl)⟩

theorem fits_QO {r : Regs} {c : Ch} (h : NoiseGridLegal r c) : ∀ l < r.lq c, Ram.QO.Fits l 0 (r.nqb c) := fun _ hl =>
  ⟨hl.trans_le h.1, (Nat.zero_add _).trans_le h.2⟩

/-! ### The statements -/

/-- Settles O34: the loop over the envelopes of the grid stores `POW2H` of every index in it. -/
theorem deqEnvWritesPowers : Obligations.DeqEnvWritesPowers := by
  refine ⟨fun s c hle hnb => ?_, fun s c hbad => ?_, fun w hop hres => ?_⟩
  · have hlegal : EnvGridLegal s.regs c := ⟨hle, hnb⟩
    rw [exec_deqEnv, State.command_failing, if_pos ((envGridLegal_iff _ _).mpr hlegal)]
    exact ⟨_, rfl, s.endedOk_endOk _,
      fun l hl k hk => real_deqGrid sameShape_EQ_EO c _ _ (fits_EO hlegal) s.mem hl hk,
      fun a ha => readByte_deqGrid sameShape_EQ_EO c _ _ s.mem ha⟩
  · rw [exec_deqEnv, State.command_failing, if_neg (not_envGridLegal hbad), errorCode]
  · exact decode_eq_reserved .deqEnv hop (by simpa [reservedClear, reservedFields] using hres)

/-- Settles O35: the loop over the noise floors of the grid stores `POW2H` of every index in it. -/
theorem deqNoiseWritesPowers : Obligations.DeqNoiseWritesPowers := by
  refine ⟨fun s c hlq hnqb => ?_, fun s c hbad => ?_, fun w hop hres => ?_⟩
  · have hlegal : NoiseGridLegal s.regs c := ⟨hlq, hnqb⟩
    rw [exec_deqNoise, State.command_failing, if_pos ((noiseGridLegal_iff _ _).mpr hlegal)]
    exact ⟨_, rfl, s.endedOk_endOk _,
      fun l hl k hk => real_deqGrid sameShape_QQ_QO c _ _ (fits_QO hlegal) s.mem hl hk,
      fun a ha => readByte_deqGrid sameShape_QQ_QO c _ _ s.mem ha⟩
  · rw [exec_deqNoise, State.command_failing, if_neg (not_noiseGridLegal hbad), errorCode]
  · exact decode_eq_reserved .deqNoise hop (by simpa [reservedClear, reservedFields] using hres)

/-! ### The checks of the coupled commands -/

/-- `CONFIG` comes before `GRID` (60_exceptions.md R185). -/
theorem command_of_uncoupled {s : State} (hcpl : bit 2 s.regs.cfg = false) (passes : Bool) (f : Memory → Memory) :
    s.command (firstError [failing .config s.regs.cpl, failing .grid passes]) f = .next (endedErr 3 s) := by
  rw [Regs.cpl, hcpl, show firstError [failing .config false, failing .grid passes] = failing .config false from rfl,
    State.command_failing, if_neg Bool.false_ne_true, errorCode]

/-- With `CPL = 1` only `GRID` is left to check. -/
theorem command_of_coupled {s : State} (hcpl : bit 2 s.regs.cfg = true) (passes : Bool) (f : Memory → Memory) :
    s.command (firstError [failing .config s.regs.cpl, failing .grid passes]) f =
      if passes = true then .next (s.endOk (f s.mem)) else .next (endedErr 5 s) := by
  have honly : firstError [failing .config true, failing .grid passes] = failing .grid passes := by cases passes <;> rfl
  rw [Regs.cpl, hcpl, honly, State.command_failing, errorCode]

/-- Settles O36: both channels get their member of the pair computed from the indices before the command. -/
theorem deqEnvCplSplitsEnergy : Obligations.DeqEnvCplSplitsEnergy := by
  refine ⟨fun s hcpl hle hnb => ?_, fun s hcpl => ?_, fun s hcpl hbad => ?_, fun w hop hres => ?_⟩
  · have hlegal : EnvGridLegal s.regs 0 := ⟨hle, hnb⟩
    rw [exec_deqEnvCpl, command_of_coupled hcpl, if_pos ((envGridLegal_iff _ _).mpr hlegal)]
    refine ⟨_, rfl, s.endedOk_endOk _, fun l hl k hk => ⟨_, _, rfl, rfl, ?_⟩,
      fun a ha => readByte_deqPairGrid sameShape_EQ_EO _ _ _ _ s.mem ha⟩
    have hval := real_deqPairGrid sameShape_EQ_EO (s.regs.ah 0) s.regs.cplEoff s.regs.panE (s.regs.ah 1)
      (fits_EO hlegal) s.mem hl hk
    rw [State.endOk_mem, hval 0, hval 1]
    exact ⟨rfl, rfl⟩
  · rw [exec_deqEnvCpl, command_of_uncoupled hcpl]
  · rw [exec_deqEnvCpl, command_of_coupled hcpl, if_neg (not_envGridLegal hbad)]
  · exact decode_eq_reserved .deqEnvCpl hop (by simpa [reservedClear, reservedFields] using hres)

/-- Settles O37: as for the envelope, with the noise grid and the balance scale 2. -/
theorem deqNoiseCplSplitsEnergy : Obligations.DeqNoiseCplSplitsEnergy := by
  refine ⟨fun s hcpl hlq hnqb => ?_, fun s hcpl => ?_, fun s hcpl hbad => ?_, fun w hop hres => ?_⟩
  · have hlegal : NoiseGridLegal s.regs 0 := ⟨hlq, hnqb⟩
    rw [exec_deqNoiseCpl, command_of_coupled hcpl, if_pos ((noiseGridLegal_iff _ _).mpr hlegal)]
    refine ⟨_, rfl, s.endedOk_endOk _, fun l hl k hk => ⟨_, _, rfl, rfl, ?_⟩,
      fun a ha => readByte_deqPairGrid sameShape_QQ_QO _ _ _ _ s.mem ha⟩
    have hval := real_deqPairGrid sameShape_QQ_QO s.regs.ns s.regs.cplNoff s.regs.panN 2
      (fits_QO hlegal) s.mem hl hk
    rw [State.endOk_mem, hval 0, hval 1]
    exact ⟨rfl, rfl⟩
  · rw [exec_deqNoiseCpl, command_of_uncoupled hcpl]
  · rw [exec_deqNoiseCpl, command_of_coupled hcpl, if_neg (not_noiseGridLegal hbad)]
  · exact decode_eq_reserved .deqNoiseCpl hop (by simpa [reservedClear, reservedFields] using hres)

end Sys2Proof.Machine
end

section
/-! PROOFS. The envelope-adjustment multipliers (41_env_adjust.md R119 to R122): a command is a loop over the slots of its
block, turn `j` reads elements of slot `j` only and stores slot `j` of `Y`, so every element is computed from the memory before
the command. -/

namespace Sys2Proof.Machine

/-! ### Rows of complex elements -/

/-- A complex element is read from its own bytes. -/
theorem Memory.cplx_congr {m m' : Memory} {r : Ram} {c : Ch} {i k : Nat} (hr : r.parts = 2)
    (h : ∀ a, InRow r c i k 1 a → m.readByte a = m'.readByte a) : m.cplx r c i k = m'.cplx r c i k := by
  have hbyte : ∀ b < 8, m.readByte (r.addr c i k + b) = m'.readByte (r.addr c i k + b) := fun b hb =>
    h _ ⟨Nat.le_add_right _ _, by rw [hr]; omega⟩
  have hre : m.readWord (r.addr c i k) = m'.readWord (r.addr c i k) := Memory.readWord_congr fun b hb => hbyte b (by omega)
  have him : m.readWord (r.addr c i k + 4) = m'.readWord (r.addr c i k + 4) := Memory.readWord_congr fun b hb => by
    rw [Nat.add_assoc, hbyte (4 + b) (by omega)]
  rw [Memory.cplx, Memory.cplx, hre, him]

/-- A real row from any band is its elements. -/
theorem Memory.realRow_eq_map_real (m : Memory) {r : Ram} (c : Ch) (i k n : Nat) (hr : r.parts = 1) :
    m.realRow r c i k n = (List.range n).map fun b => m.real r c i (k + b) := by
  rw [Memory.realRow, Memory.readWords_eq_map]
  refine List.map_congr_left fun b _ => ?_
  rw [Memory.real, Ram.addr_succ, hr, Nat.one_mul]

/-- Element `k + b` of a stored row of complex elements. -/
theorem Memory.cplx_setRow_unpair (m : Memory) {r : Ram} (c : Ch) (i k : Nat) {n b : Nat} (g : Nat → Cplx)
    (hr : r.parts = 2) (hb : b < n) :
    (m.setRow r c i k (unpair ((List.range n).map g))).cplx r c i (k + b) = g b := by
  have hlen : b < ((List.range n).map g).length := by simpa using hb
  obtain ⟨hre, him⟩ := unpair_getD _ ⟨0, 0⟩ hlen
  rw [Memory.cplx_setRow _ _ _ _ _ _ hr (by rw [unpair_length]; omega), hre, him, List.getD_eq_getElem _ _ hlen,
    List.getElem_map, List.getElem_range]

theorem Memory.readByte_setRow_unpair {m : Memory} {r : Ram} {c : Ch} {i k n a : Nat} {g : Nat → Cplx} (hr : r.parts = 2)
    (h : ¬InRow r c i k n a) : (m.setRow r c i k (unpair ((List.range n).map g))).readByte a = m.readByte a :=
  Memory.readByte_setRow_outside (by simpa [InRow, hr] using h)

/-! ### A loop over a block of `Y` -/

/-- The loop of a command that sets `Y[c][j][k]` to `val m j k` over its block (41_env_adjust.md R119). -/
def setBlock (c : Ch) (j0 nj m0 nm : Nat) (val : Memory → Nat → Nat → Cplx) : Memory → Memory :=
  overSlots c j0 nj m0 fun j m => unpair ((List.range nm).map fun b => val m j (m0 + b))

/-- `val m j k` reads only elements `[j][k]` of RAMs that have `Y`'s slots and bands. -/
def ReadsOwnElement (val : Memory → Nat → Nat → Cplx) : Prop :=
  ∀ (m m' : Memory) (j k : Nat),
    (∀ r c a, r.rows = 40 → r.cols = 64 → InRow r c j k 1 a → m.readByte a = m'.readByte a) → val m j k = val m' j k

section SetBlock
variable (c : Ch) (j0 : Nat) {nj m0 nm : Nat} (val : Memory → Nat → Nat → Cplx) (m : Memory)

theorem setBlock_succ (nj m0 nm : Nat) :
    setBlock c j0 (nj + 1) m0 nm val m =
      (setBlock c j0 nj m0 nm val m).setRow .Y c (j0 + nj) m0
        (unpair ((List.range nm).map fun b => val (setBlock c j0 nj m0 nm val m) (j0 + nj) (m0 + b))) := by
  simp only [setBlock, overSlots, List.range_succ, List.foldl_append, List.foldl_cons, List.foldl_nil]

theorem readByte_setBlock {a : Nat} (h : ∀ j, j0 ≤ j → j < j0 + nj → ¬InRow .Y c j m0 nm a) :
    (setBlock c j0 nj m0 nm val m).readByte a = m.readByte a :=
  Memory.readByte_foldl (fun _ i hi => Memory.readByte_setRow_unpair rfl
    (h (j0 + i) (Nat.le_add_right _ _) (Nat.add_lt_add_left (List.mem_range.mp hi) _))) m

/-- Every element of the block is computed from the memory before the loop: the turns before slot `j` change no byte of an
element of slot `j`, in `Y` or elsewhere, and no later turn writes slot `j` again. -/
theorem cplx_setBlock (hval : ReadsOwnElement val) (hj : j0 + nj ≤ 40) (hm : m0 + nm ≤ 64) {j k : Nat} (hj0 : j0 ≤ j)
    (hjn : j < j0 + nj) (hm0 : m0 ≤ k) (hmn : k < m0 + nm) :
    (setBlock c j0 nj m0 nm val m).cplx .Y c j k = val m j k := by
  have hrow : ∀ i < 40, Ram.Y.Fits i m0 nm := fun i hi => ⟨hi, hm⟩
  induction nj with
  | zero => omega
  | succ nj ih =>
    rw [setBlock_succ]
    by_cases hlast : j = j0 + nj
    · obtain ⟨b, rfl⟩ := Nat.exists_eq_add_of_le hm0
      rw [hlast, Memory.cplx_setRow_unpair _ _ _ _ _ rfl (by omega)]
      refine hval _ _ _ _ fun r d a hrows hcols ha => readByte_setBlock c j0 val m fun i _ hi hrowI => ?_
      have hfit : r.Fits (j0 + nj) (m0 + b) 1 := ⟨by omega, by omega⟩
      have hsame : j0 + nj = i := (ha.eq_of_inRow hrowI hfit (hrow i (by omega))).2.2
      omega
    · rw [← ih (by omega) (by omega)]
      refine Memory.cplx_congr rfl fun a ha => Memory.readByte_setRow_unpair rfl fun hrowLast => hlast ?_
      have hfit : Ram.Y.Fits j k 1 := ⟨show j < 40 by omega, show k + 1 ≤ 64 by omega⟩
      exact (ha.eq_of_inRow hrowLast hfit (hrow _ (by omega))).2.2

end SetBlock

/-- A command on a block in range: every element of the block gets its value, and no other byte changes. -/
theorem command_setBlock_of_inRange {val : Memory → Nat → Nat → Cplx} (hval : ReadsOwnElement val) (s : State) (c : Ch)
    {j0 nj m0 nm : Nat} (hj : j0 + nj ≤ 40) (hm : m0 + nm ≤ 64) :
    ∃ t, s.command (failing .range (blockInRange j0 nj m0 nm)) (setBlock c j0 nj m0 nm val) = .next t ∧ EndedOk s t ∧
      (∀ j, j0 ≤ j → j < j0 + nj → ∀ k, m0 ≤ k → k < m0 + nm → t.mem.cplx .Y c j k = val s.mem j k) ∧
      SameOutside (fun a => ∃ j, j0 ≤ j ∧ j < j0 + nj ∧ InRow .Y c j m0 nm a) s t := by
  rw [State.command_failing, if_pos (by simp [blockInRange, hj, hm])]
  exact ⟨_, rfl, s.endedOk_endOk _,
    fun j hj0 hjn k hm0 hmn => cplx_setBlock c j0 val s.mem hval hj hm hj0 hjn hm0 hmn,
    fun a ha => readByte_setBlock c j0 val s.mem fun j hj0 hjn hrow => ha ⟨j, hj0, hjn, hrow⟩⟩

/-- A command on a block out of range ends with `RANGE` (60_exceptions.md R183). -/
theorem command_of_blockOutOfRange (s : State) {j0 nj m0 nm : Nat} (h : 40 < j0 + nj ∨ 64 < m0 + nm)
    (f : Memory → Memory) :
    s.command (failing .range (blockInRange j0 nj m0 nm)) f = .next (endedErr 4 s) := by
  rw [State.command_failing, if_neg (by simp only [blockInRange, Bool.and_eq_true, decide_eq_true_eq]; omega), errorCode]

/-! ### The two commands -/

/-- An element of `G · XH` (41_env_adjust.md R120). -/
def mulElement (c : Ch) (m : Memory) (j k : Nat) : Cplx := scaleCplx (m.real .G c j k) (m.cplx .XH c j k)

/-- An element of `Y + A · Z` (41_env_adjust.md R122). -/
def macElement (c : Ch) (m : Memory) (j k : Nat) : Cplx :=
  addCplx (m.cplx .Y c j k) (scaleCplx (m.real .A c j k) (m.cplx .Z c j k))

theorem readsOwnElement_mulElement (c : Ch) : ReadsOwnElement (mulElement c) := fun m m' j k h => by
  rw [mulElement, mulElement, Memory.real_congr (r := .G) rfl fun a => h _ c a rfl rfl,
    Memory.cplx_congr (r := .XH) rfl fun a => h _ c a rfl rfl]

theorem readsOwnElement_macElement (c : Ch) : ReadsOwnElement (macElement c) := fun m m' j k h => by
  rw [macElement, macElement, Memory.cplx_congr (r := .Y) rfl fun a => h _ c a rfl rfl,
    Memory.real_congr (r := .A) rfl fun a => h _ c a rfl rfl, Memory.cplx_congr (r := .Z) rfl fun a => h _ c a rfl rfl]

theorem mulRow_eq_unpair_map (c : Ch) (j m0 nm : Nat) (m : Memory) :
    mulRow c j m0 nm m = unpair ((List.range nm).map fun b => mulElement c m j (m0 + b)) := by
  simp only [mulRow, Memory.realRow_eq_map_real _ _ _ _ _ (show Ram.G.parts = 1 from rfl),
    Memory.cplxRow_eq_map _ _ _ _ _ _ (show Ram.XH.parts = 2 from rfl), List.zipWith_map, List.zipWith_self, mulElement]

theorem macRow_eq_unpair_map (c : Ch) (j m0 nm : Nat) (m : Memory) :
    macRow c j m0 nm m = unpair ((List.range nm).map fun b => macElement c m j (m0 + b)) := by
  simp only [macRow, Memory.realRow_eq_map_real _ _ _ _ _ (show Ram.A.parts = 1 from rfl),
    Memory.cplxRow_eq_map _ _ _ _ _ _ (show Ram.Z.parts = 2 from rfl),
    Memory.cplxRow_eq_map _ _ _ _ _ _ (show Ram.Y.parts = 2 from rfl), List.zipWith_map, List.zipWith_self, macElement]

theorem exec_envMul (c : Ch) (j0 nj m0 nm : Nat) (s : State) :
    exec (.envMul c j0 nj m0 nm) s =
      s.command (failing .range (blockInRange j0 nj m0 nm)) (setBlock c j0 nj m0 nm (mulElement c)) := by
  simp only [setBlock, ← mulRow_eq_unpair_map]
  rfl

theorem exec_envMac (c : Ch) (j0 nj m0 nm : Nat) (s : State) :
    exec (.envMac c j0 nj m0 nm) s =
      s.command (failing .range (blockInRange j0 nj m0 nm)) (setBlock c j0 nj m0 nm (macElement c)) := by
  simp only [setBlock, ← macRow_eq_unpair_map]
  rfl

/-- Settles O32: `ENV_MUL` is the block loop of `G · XH`. -/
theorem envMulScalesHighBand : Obligations.EnvMulScalesHighBand := by
  refine ⟨fun s c j0 nj m0 nm hj hm => ?_, fun s c j0 nj m0 nm hbad => ?_⟩
  · rw [exec_envMul]
    exact command_setBlock_of_inRange (readsOwnElement_mulElement c) s c hj hm
  · rw [exec_envMul, command_of_blockOutOfRange s hbad]

/-- Settles O33: `ENV_MAC` is the block loop of `Y + A · Z`, the old `Y` included in what a turn reads of its own slot. -/
theorem envMacAddsComponent : Obligations.EnvMacAddsComponent := by
  refine ⟨fun s c j0 nj m0 nm hj hm => ?_, fun s c j0 nj m0 nm hbad => ?_⟩
  · rw [exec_envMac]
    exact command_setBlock_of_inRange (readsOwnElement_macElement c) s c hj hm
  · rw [exec_envMac, command_of_blockOutOfRange s hbad]

end Sys2Proof.Machine
end

section
/-! PROOFS. Loops that store whole slots of a RAM of complex elements, each element computed from other RAMs only: what the loop
stores is determined by the memory before it. The copies of 42_pipeline.md are such loops. -/

namespace Sys2Proof.Machine

/-! ### Rows of words as rows of elements -/

@[simp] theorem unpair_append (ys zs : List Cplx) : unpair (ys ++ zs) = unpair ys ++ unpair zs := List.flatMap_append

theorem unpair_map_range (f : Nat → Word) (n : Nat) :
    unpair ((List.range n).map fun k => ⟨f (2 * k), f (2 * k + 1)⟩) = (List.range (2 * n)).map f := by
  induction n with
  | zero => rfl
  | succ n ih =>
    rw [List.range_succ, List.map_append, unpair_append, ih, Nat.mul_succ, List.range_succ, List.range_succ,
      List.append_assoc, List.map_append]
    rfl

/-- The words that a copy moves are the elements of the row (00_scope.md R12). -/
theorem Memory.cplxWords_eq_unpair_map (m : Memory) {r : Ram} (c : Ch) (i k n : Nat) (hr : r.parts = 2) :
    m.cplxWords r c i k n = unpair ((List.range n).map fun b => m.cplx r c i (k + b)) := by
  rw [Memory.cplxWords, Memory.readWords_eq_map, ← unpair_map_range fun w => m.readWord (r.addr c i k + 4 * w)]
  refine congrArg unpair (List.map_congr_left fun b _ => ?_)
  rw [Memory.cplx, Ram.addr_succ, hr, Nat.mul_succ 4 (2 * b), Nat.add_assoc]

theorem Memory.cplxWords_zero (m : Memory) {r : Ram} (c : Ch) (i n : Nat) (hr : r.parts = 2) :
    m.cplxWords r c i 0 n = unpair ((List.range n).map (m.cplx r c i)) := by
  rw [m.cplxWords_eq_unpair_map c i 0 n hr]
  simp only [Nat.zero_add]

theorem zeroCplxWords_eq_unpair_map (n : Nat) :
    zeroCplxWords n = unpair ((List.range n).map fun _ => (⟨0, 0⟩ : Cplx)) := by
  rw [unpair_map_range fun _ => 0, zeroCplxWords, List.map_const', List.length_range]

/-! ### Loops over whole slots -/

/-- Set element `[c][l][k]` to `val m l k` in the first `L` slots of a RAM of complex elements, one whole slot a turn. -/
def setSlots (dst : Ram) (c : Ch) (L : Nat) (val : Memory → Nat → Nat → Cplx) (m : Memory) : Memory :=
  (List.range L).foldl (fun m l => m.setRow dst c l 0 (unpair ((List.range dst.cols).map (val m l)))) m

/-- `f` reads only complex elements of the channel's other RAMs. -/
def ReadsOtherRams (dst : Ram) (c : Ch) (f : Memory → Cplx) : Prop :=
  ∀ m m' : Memory, (∀ q i k, q ≠ dst → q.parts = 2 → q.Fits i k 1 → m.cplx q c i k = m'.cplx q c i k) → f m = f m'

theorem readsOtherRams_cplx {dst q : Ram} (c : Ch) {i k : Nat} (hne : q ≠ dst) (hq : q.parts = 2) (hfit : q.Fits i k 1) :
    ReadsOtherRams dst c fun m => m.cplx q c i k := fun _ _ h => h q i k hne hq hfit

theorem readsOtherRams_const (dst : Ram) (c : Ch) (z : Cplx) : ReadsOtherRams dst c fun _ => z := fun _ _ _ => rfl

theorem Ram.fits_slot {r : Ram} {L l : Nat} (hL : L ≤ r.rows) (hl : l < L) : r.Fits l 0 r.cols :=
  ⟨hl.trans_le hL, (Nat.zero_add _).le⟩

section SetSlots
variable {dst : Ram} (c : Ch) {L : Nat} (val : Memory → Nat → Nat → Cplx) (m : Memory)

theorem setSlots_succ (L : Nat) :
    setSlots dst c (L + 1) val m =
      (setSlots dst c L val m).setRow dst c L 0
        (unpair ((List.range dst.cols).map (val (setSlots dst c L val m) L))) := by
  simp only [setSlots, List.range_succ, List.foldl_append, List.foldl_cons, List.foldl_nil]

variable (hdst : dst.parts = 2)
include hdst

theorem readByte_setSlots {a : Nat} (h : ∀ l < L, ¬InRow dst c l 0 dst.cols a) :
    (setSlots dst c L val m).readByte a = m.readByte a :=
  Memory.readByte_foldl (fun _ l hl => Memory.readByte_setRow_unpair hdst (h l (List.mem_range.mp hl))) m

theorem cplx_setSlots_of_ne (hL : L ≤ dst.rows) {q : Ram} {i k : Nat} (hne : q ≠ dst) (hq : q.parts = 2)
    (hfit : q.Fits i k 1) : (setSlots dst c L val m).cplx q c i k = m.cplx q c i k :=
  Memory.cplx_congr hq fun _ ha => readByte_setSlots c val m hdst fun _ hl hrow =>
    hne (ha.eq_of_inRow hrow hfit (Ram.fits_slot hL hl)).1

theorem ReadsOtherRams.apply_setSlots (hL : L ≤ dst.rows) {f : Memory → Cplx} (hf : ReadsOtherRams dst c f) :
    f (setSlots dst c L val m) = f m :=
  hf _ _ fun _ _ _ hne hq hfit => cplx_setSlots_of_ne c val m hdst hL hne hq hfit

/-- Every element is computed from the memory before the loop: no turn writes a RAM that a turn reads, and no later turn
writes the slot again. -/
theorem cplx_setSlots (hL : L ≤ dst.rows) {l k : Nat} (hl : l < L) (hk : k < dst.cols)
    (hval : ReadsOtherRams dst c fun m => val m l k) : (setSlots dst c L val m).cplx dst c l k = val m l k := by
  induction L with
  | zero => omega
  | succ L ih =>
    rw [setSlots_succ]
    by_cases hlast : l = L
    · subst hlast
      have hread := (setSlots dst c l val m).cplx_setRow_unpair c l 0 (val (setSlots dst c l val m) l) hdst hk
      rw [Nat.zero_add] at hread
      rw [hread]
      exact hval.apply_setSlots c val m hdst (by omega)
    · rw [← ih (by omega) (by omega)]
      refine Memory.cplx_congr hdst fun a ha => Memory.readByte_setRow_unpair hdst fun hrow => hlast ?_
      exact (ha.eq_of_inRow hrow ((Ram.fits_slot hL hl).element hk) (Ram.fits_slot hL L.lt_succ_self)).2.2

end SetSlots

end Sys2Proof.Machine
end

section
/-! PROOFS. The commands of 42_pipeline.md: `NOP` changes no memory, `RESET_CH` clears the RAMs of its groups, and the other three
are loops over whole slots. -/

namespace Sys2Proof.Machine

/-! ### Reserved bits -/

/-- A word with a set bit in a reserved field of its command is refused (60_exceptions.md R182). -/
theorem decode_eq_reserved_of_field {w : Word} (o : Opcode) (hop : field 31 26 w = o.code) {hi lo : Nat}
    (hmem : (hi, lo) ∈ reservedFields o) (h : field hi lo w ≠ 0) : decode w = .error .reserved :=
  decode_eq_reserved o hop (List.all_eq_false.mpr ⟨(hi, lo), hmem, by simpa using h⟩)

theorem field_ne_zero_of_bit {i : Nat} {w : Word} (h : bit i w = true) : field i i w ≠ 0 := by
  rw [bit, decide_eq_true_iff] at h
  omega

/-! ### `NOP` -/

theorem exec_nop (s : State) : exec .nop s = .next (s.endOk s.mem) := rfl

/-- Settles O25: `NOP` ends without error and has no effect on memory. -/
theorem nopOnlyCompletes : Obligations.NopOnlyCompletes := by
  refine ⟨fun s => ⟨_, exec_nop s, s.endedOk_endOk _, s.endOk_mem _⟩, fun w hop hres => ?_⟩
  exact decode_eq_reserved_of_field .nop hop (List.mem_singleton_self _) hres

/-! ### `RESET_CH` -/

theorem exec_resetCh (c : Ch) (mask : Nat) (s : State) :
    exec (.resetCh c mask) s = .next (s.endOk (clearRams c (resetRams mask) s.mem)) := rfl

/-- The groups of the model are those of `maskBit` (42_pipeline.md R131). -/
theorem mem_resetGroup_iff (r : Ram) {b : Nat} (hb : b < 8) : r ∈ resetGroup b ↔ maskBit r = b := by
  have table : ∀ b < 8, ∀ r ∈ allRams, r ∈ resetGroup b ↔ maskBit r = b := by decide
  exact table b hb r (mem_allRams r)

theorem mem_resetRams_iff (r : Ram) (mask : Nat) : r ∈ resetRams mask ↔ mask.testBit (maskBit r) = true := by
  simp only [resetRams, List.mem_flatMap, List.mem_range]
  constructor
  · rintro ⟨b, hb, hr⟩
    split at hr
    · rwa [(mem_resetGroup_iff r hb).mp hr]
    · exact absurd hr List.not_mem_nil
  · intro hbit
    have hlt : maskBit r < 8 := by cases r <;> decide
    exact ⟨maskBit r, hlt, by rw [if_pos hbit, mem_resetGroup_iff r hlt]⟩

/-- A byte read after some RAMs were cleared: zero in them, what was there elsewhere. -/
theorem readByte_clearRams (c : Ch) (rs : List Ram) (m : Memory) (a : Nat) :
    (clearRams c rs m).readByte a = if ∃ r ∈ rs, r.contains c a = true then 0 else m.readByte a := by
  induction rs generalizing m with
  | nil => simp [clearRams]
  | cons r rs ih =>
    have hclear : (m.clear (r.base c) r.bytes).readByte a = if r.contains c a = true then 0 else m.readByte a := by
      simp only [Memory.readByte_clear, Ram.contains_iff]
    rw [show clearRams c (r :: rs) m = clearRams c rs (m.clear (r.base c) r.bytes) from rfl, ih, hclear]
    by_cases hr : r.contains c a = true <;> simp [hr]

/-- Settles O26: the RAMs cleared are those whose group's bit is 1, and a byte reads zero exactly where one was cleared. -/
theorem resetChClearsItsGroups : Obligations.ResetChClearsItsGroups := by
  refine ⟨fun s c mask => ⟨_, exec_resetCh c mask s, s.endedOk_endOk _, fun r a hbit hin => ?_, fun a hout => ?_⟩,
    fun w hop hres => ?_⟩
  · rw [State.endOk_mem, readByte_clearRams, if_pos ⟨r, (mem_resetRams_iff r mask).mpr hbit, hin⟩]
  · rw [State.endOk_mem, readByte_clearRams, if_neg]
    rintro ⟨r, hr, hin⟩
    exact hout ⟨r, (mem_resetRams_iff r mask).mp hr, hin⟩
  · rcases hres with hbit | hfa | hfb
    · exact decode_eq_reserved_of_field .resetCh hop (by decide) (field_ne_zero_of_bit hbit)
    · exact decode_eq_reserved_of_field .resetCh hop (by decide) hfa
    · exact decode_eq_reserved_of_field .resetCh hop (by decide) hfb

/-! ### `SHIFT_LOW` -/

theorem exec_shiftLow (c : Ch) (s : State) :
    exec (.shiftLow c) s = .next (s.endOk (setSlots .W c 8 (fun m j k => m.cplx .WP c j k) s.mem)) := by
  rw [show exec (.shiftLow c) s = .next (s.endOk (shiftLow c s.mem)) from rfl]
  simp only [shiftLow, Memory.cplxWords_zero _ _ _ _ (show Ram.WP.parts = 2 from rfl)]
  rfl

/-- Settles O27: `SHIFT_LOW` is the loop that copies `WP` over the first 8 slots of `W`. -/
theorem shiftLowCopiesSnapshot : Obligations.ShiftLowCopiesSnapshot := by
  refine ⟨fun s c => ⟨_, exec_shiftLow c s, s.endedOk_endOk _, fun j hj k hk => ?_, fun a hout => ?_⟩, fun w hop hres => ?_⟩
  · exact cplx_setSlots c _ s.mem rfl (by decide) hj hk (readsOtherRams_cplx c (by decide) rfl ⟨hj, hk⟩)
  · exact readByte_setSlots c _ s.mem rfl fun j hj hrow => hout ⟨j, hj, hrow⟩
  · exact decode_eq_reserved_of_field .shiftLow hop (List.mem_singleton_self _) hres

/-! ### The frame length -/

theorem frameSlots_eq (r : Regs) : frameSlots r = 30 ∨ frameSlots r = 32 := by
  rw [frameSlots]
  split
  · exact .inl rfl
  · exact .inr rfl

/-! ### `SAVE_PREV` -/

/-- Element `[j][k]` of the overhang of `Y` in a frame of `n` slots, zero past it (42_pipeline.md R138). -/
def overhangElement (c : Ch) (n : Nat) (m : Memory) (j k : Nat) : Cplx :=
  if j < 40 - n then m.cplx .Y c (n + j) k else ⟨0, 0⟩

theorem readsOtherRams_overhangElement {dst : Ram} (hdst : .Y ≠ dst) (c : Ch) (n j : Nat) {k : Nat} (hk : k < 64) :
    ReadsOtherRams dst c fun m => overhangElement c n m j k := by
  by_cases hj : j < 40 - n
  · simp only [overhangElement, if_pos hj]
    exact readsOtherRams_cplx c hdst rfl ⟨show n + j < 40 by omega, hk⟩
  · simp only [overhangElement, if_neg hj]
    exact readsOtherRams_const _ _ _

theorem saveW_eq_setSlots (c : Ch) (n : Nat) :
    saveW c n = setSlots .WP c 8 fun m j k => m.cplx .W c (n + j) k := by
  funext m
  simp only [saveW, Memory.cplxWords_zero _ _ _ _ (show Ram.W.parts = 2 from rfl)]
  rfl

theorem saveY_eq_setSlots (c : Ch) (n : Nat) : saveY c n = setSlots .YP c 10 (overhangElement c n) := by
  have hrow : ∀ m j, (if j < 40 - n then m.cplxWords .Y c (n + j) 0 64 else zeroCplxWords 64) =
      unpair ((List.range 64).map (overhangElement c n m j)) := fun m j => by
    unfold overhangElement
    split
    · exact m.cplxWords_zero _ _ _ rfl
    · exact zeroCplxWords_eq_unpair_map 64
  funext m
  simp only [saveY, hrow]
  rfl

theorem exec_savePrev (c : Ch) (s : State) :
    exec (.savePrev c) s = .next (s.endOk (setSlots .YP c 10 (overhangElement c (frameSlots s.regs))
      (setSlots .WP c 8 (fun m j k => m.cplx .W c (frameSlots s.regs + j) k) s.mem))) := by
  rw [← saveW_eq_setSlots, ← saveY_eq_setSlots]
  rfl

/-- Settles O29: the loop over `WP` reads `W`, the loop over `YP` reads `Y`, and neither writes what the other one stores. -/
theorem savePrevSnapshotsTails : Obligations.SavePrevSnapshotsTails := by
  refine ⟨fun s c => ⟨_, exec_savePrev c s, s.endedOk_endOk _, fun j hj k hk => ?_, fun j hj k hk => ?_, fun a hout => ?_⟩,
    fun w hop hres => ?_⟩
  · have hslot : frameSlots s.regs + j < 40 := by have := frameSlots_eq s.regs; omega
    rw [State.endOk_mem, cplx_setSlots_of_ne c _ _ rfl (by decide) (by decide) rfl ⟨hj, hk⟩]
    exact cplx_setSlots c _ s.mem rfl (by decide) hj hk (readsOtherRams_cplx c (by decide) rfl ⟨hslot, hk⟩)
  · rw [State.endOk_mem,
      cplx_setSlots c _ _ rfl (by decide) hj hk (readsOtherRams_overhangElement (by decide) c _ j hk)]
    exact (readsOtherRams_overhangElement (by decide) c _ j hk).apply_setSlots c _ s.mem rfl (by decide)
  · rw [State.endOk_mem, readByte_setSlots c _ _ rfl fun j hj hrow => hout (.inr ⟨j, hj, hrow⟩),
      readByte_setSlots c _ _ rfl fun j hj hrow => hout (.inl ⟨j, hj, hrow⟩)]
  · exact decode_eq_reserved_of_field .savePrev hop (List.mem_singleton_self _) hres

/-! ### `SPLICE_X` -/

/-- The slots of `Y` that are restored in a frame of `n` slots (42_pipeline.md R136). -/
def restoredSlots (r : Bool) (n : Nat) : Nat := if r then 40 - n else 0

theorem restoredSlots_le (r : Bool) (n : Nat) : restoredSlots r n ≤ 40 := by
  rw [restoredSlots]
  split <;> omega

theorem lt_restoredSlots_iff (r : Bool) (n j : Nat) : j < restoredSlots r n ↔ r = true ∧ j < 40 - n := by
  cases r <;> simp [restoredSlots]

/-- Element `[l][k]` of the synthesis input (42_pipeline.md R136). -/
def spliceElement (c : Ch) (kx mb : Nat) (m : Memory) (l k : Nat) : Cplx :=
  if k < kx then m.cplx .W c (l + 2) k else if k < kx + mb then m.cplx .Y c (l + 2) k else ⟨0, 0⟩

theorem readsOtherRams_spliceElement (c : Ch) {kx l k : Nat} (mb : Nat) (hkx : kx ≤ 32) (hl : l + 2 < 40) (hk : k < 64) :
    ReadsOtherRams .X c fun m => spliceElement c kx mb m l k := by
  by_cases hlow : k < kx
  · simp only [spliceElement, if_pos hlow]
    exact readsOtherRams_cplx c (by decide) rfl ⟨hl, show k < 32 by omega⟩
  · by_cases hhigh : k < kx + mb
    · simp only [spliceElement, if_neg hlow, if_pos hhigh]
      exact readsOtherRams_cplx c (by decide) rfl ⟨hl, hk⟩
    · simp only [spliceElement, if_neg hlow, if_neg hhigh]
      exact readsOtherRams_const _ _ _

theorem spliceRow_eq_unpair_map (c : Ch) {kx mb : Nat} (hmb : kx + mb ≤ 64) (l : Nat) (m : Memory) :
    spliceRow c kx mb l m = unpair ((List.range 64).map (spliceElement c kx mb m l)) := by
  have hlow : (List.range kx).map (spliceElement c kx mb m l) = (List.range kx).map (m.cplx .W c (l + 2)) :=
    List.map_congr_left fun b hb => if_pos (List.mem_range.mp hb)
  have hhigh : (List.range mb).map (fun b => spliceElement c kx mb m l (kx + b)) =
      (List.range mb).map fun b => m.cplx .Y c (l + 2) (kx + b) := List.map_congr_left fun b hb => by
    rw [spliceElement, if_neg (by omega), if_pos (Nat.add_lt_add_left (List.mem_range.mp hb) kx)]
  have hrest : (List.range (64 - kx - mb)).map (fun b => spliceElement c kx mb m l (kx + mb + b)) =
      (List.range (64 - kx - mb)).map fun _ => (⟨0, 0⟩ : Cplx) := List.map_congr_left fun b _ => by
    rw [spliceElement, if_neg (by omega), if_neg (by omega)]
  have hsplit : List.range 64 = List.range (kx + mb + (64 - kx - mb)) := congrArg List.range (by omega)
  rw [spliceRow, m.cplxWords_zero _ _ _ rfl, m.cplxWords_eq_unpair_map _ _ _ _ rfl, zeroCplxWords_eq_unpair_map,
    ← unpair_append, ← unpair_append, ← hlow, ← hhigh, ← hrest, hsplit]
  simp only [List.range_add, List.map_append, List.map_map]
  rfl

theorem buildX_eq_setSlots (c : Ch) {kx mb : Nat} (hmb : kx + mb ≤ 64) (n : Nat) :
    buildX c kx mb n = setSlots .X c n (spliceElement c kx mb) := by
  funext m
  simp only [buildX, spliceRow_eq_unpair_map c hmb]
  rfl

theorem restoreY_eq_setSlots (c : Ch) (r : Bool) (n : Nat) (m : Memory) :
    (if r then restoreY c n m else m) = setSlots .Y c (restoredSlots r n) (fun m j k => m.cplx .YP c j k) m := by
  cases r with
  | false => rfl
  | true =>
    simp only [if_pos, restoreY, Memory.cplxWords_zero _ _ _ _ (show Ram.YP.parts = 2 from rfl)]
    rfl

theorem exec_spliceX (c : Ch) (kx mb : Nat) (r : Bool) (s : State) :
    exec (.spliceX c kx mb r) s = s.command (failing .range (spliceInRange kx mb)) fun m =>
      buildX c kx mb (frameSlots s.regs) (if r then restoreY c (frameSlots s.regs) m else m) := rfl

theorem exec_spliceX_of_inRange (c : Ch) {kx mb : Nat} (r : Bool) (s : State) (hkx : kx ≤ 32) (hmb : kx + mb ≤ 64) :
    exec (.spliceX c kx mb r) s = .next (s.endOk (setSlots .X c (frameSlots s.regs) (spliceElement c kx mb)
      (setSlots .Y c (restoredSlots r (frameSlots s.regs)) (fun m j k => m.cplx .YP c j k) s.mem))) := by
  rw [exec_spliceX, State.command_failing, if_pos (by simp [spliceInRange, hkx, hmb]), restoreY_eq_setSlots,
    buildX_eq_setSlots c hmb]

theorem exec_spliceX_of_outOfRange (c : Ch) {kx mb : Nat} (r : Bool) (s : State) (h : 32 < kx ∨ 64 < kx + mb) :
    exec (.spliceX c kx mb r) s = .next (endedErr 4 s) := by
  rw [exec_spliceX, State.command_failing,
    if_neg (by simp only [spliceInRange, Bool.and_eq_true, decide_eq_true_eq]; omega), errorCode]

/-- Settles O28: the loop over `X` reads the memory in which the loop over `Y` has restored the overhang; `W` and `YP` are as
before the command in it, and `Y` is as after the command. -/
theorem spliceXBuildsSynthesisInput : Obligations.SpliceXBuildsSynthesisInput := by
  refine ⟨fun s c kx mb r hkx hmb => ?_, fun s c kx mb r hbad => exec_spliceX_of_outOfRange c r s hbad,
    fun w hop hres => ?_⟩
  · have hn := frameSlots_eq s.regs
    have hX : frameSlots s.regs ≤ Ram.X.rows := show frameSlots s.regs ≤ 32 by omega
    have hY : restoredSlots r (frameSlots s.regs) ≤ Ram.Y.rows := restoredSlots_le r _
    refine ⟨_, exec_spliceX_of_inRange c r s hkx hmb, s.endedOk_endOk _, fun hr j hj k hk => ?_, fun l hl k hk => ?_,
      fun a hout => ?_⟩
    · subst hr
      rw [State.endOk_mem, cplx_setSlots_of_ne c _ _ rfl hX (by decide) rfl ⟨show j < 40 by omega, hk⟩]
      exact cplx_setSlots c _ s.mem rfl hY hj hk
        (readsOtherRams_cplx c (by decide) rfl ⟨show j < 10 by omega, hk⟩)
    · have hslot : l + 2 < 40 := by omega
      rw [State.endOk_mem, cplx_setSlots c _ _ rfl hX hl hk (readsOtherRams_spliceElement c mb hkx hslot hk),
        cplx_setSlots_of_ne c _ _ rfl hX (by decide) rfl ⟨hslot, hk⟩, spliceElement]
      by_cases hlow : k < kx
      · rw [if_pos hlow, if_pos hlow]
        exact cplx_setSlots_of_ne c _ s.mem rfl hY (by decide) rfl ⟨hslot, show k < 32 by omega⟩
      · rw [if_neg hlow, if_neg hlow]
    · rw [State.endOk_mem, readByte_setSlots c _ _ rfl fun l hl hrow => hout (.inl ⟨l, hl, hrow⟩)]
      refine readByte_setSlots c _ s.mem rfl fun j hj hrow => hout (.inr ?_)
      obtain ⟨hr, hj⟩ := (lt_restoredSlots_iff r _ j).mp hj
      exact ⟨hr, j, hj, hrow⟩
  · rcases hres with hbit | hfc
    · exact decode_eq_reserved_of_field .spliceX hop (by decide) (field_ne_zero_of_bit hbit)
    · exact decode_eq_reserved_of_field .spliceX hop (by decide) hfc

end Sys2Proof.Machine
end

section
/-! PROOFS. The synthesis filterbank (43_qmf.md R160 to R163): one slot of a bank of `b` bands, `b` being 64 or 32. The delay line,
the gather and the overlap-added samples are rows of words, each given by a function of the index. -/

namespace Sys2Proof.Machine

/-! ### Rows of words given by a function of the index -/

section
variable (f g : Nat → Word)

theorem map_range_add (n k : Nat) :
    (List.range (n + k)).map f = (List.range n).map f ++ (List.range k).map fun j => f (n + j) := by
  rw [List.range_add, List.map_append, List.map_map]
  rfl

theorem take_map_range {n k : Nat} (h : n ≤ k) : ((List.range k).map f).take n = (List.range n).map f := by
  rw [← List.map_take, List.take_range, min_eq_left h]

theorem take_drop_map_range {a n k : Nat} (h : a + n ≤ k) :
    (((List.range k).map f).drop a).take n = (List.range n).map fun j => f (a + j) := by
  obtain ⟨r, rfl⟩ := Nat.exists_eq_add_of_le ((Nat.le_add_right a n).trans h)
  rw [map_range_add, List.drop_left' (by simp), take_map_range _ (by omega)]

theorem flatMap_map_range (n k : Nat) :
    ((List.range k).flatMap fun i => (List.range n).map fun j => f (n * i + j)) = (List.range (n * k)).map f := by
  induction k with
  | zero => rfl
  | succ k ih =>
    rw [List.range_succ, List.flatMap_append, ih, List.flatMap_singleton, Nat.mul_succ, map_range_add]

theorem zipWith_mul32_map_range (n : Nat) :
    List.zipWith mul32 ((List.range n).map f) ((List.range n).map g) = (List.range n).map fun i => mul32 (f i) (g i) := by
  rw [List.zipWith_map, List.zipWith_self]

theorem evens_map_range (n : Nat) : evens ((List.range (2 * n)).map f) = (List.range n).map fun i => f (2 * i) := by
  induction n generalizing f with
  | zero => rfl
  | succ n ih =>
    rw [Nat.mul_succ, Nat.add_comm, map_range_add, Nat.add_comm, map_range_add]
    exact congrArg (f 0 :: ·) ((ih _).trans (List.map_congr_left fun i _ => congrArg f (by omega)))

theorem rowsOf_map_range (n k : Nat) :
    rowsOf n k ((List.range (n * k)).map f) = (List.range k).map fun i => (List.range n).map fun j => f (n * i + j) := by
  refine List.map_congr_left fun i hi => take_drop_map_range f ?_
  have hrow := Nat.mul_le_mul_left n (List.mem_range.mp hi)
  rwa [Nat.mul_succ] at hrow

end

/-! ### `SUM32` down the columns -/

theorem foldl_zipWith_add32 {ι : Type} (is : List ι) (w : ι → Nat → Word) (g : Nat → Word) (n : Nat) :
    (is.map fun i => (List.range n).map (w i)).foldl (List.zipWith add32) ((List.range n).map g) =
      (List.range n).map fun j => (is.map fun i => w i j).foldl add32 (g j) := by
  induction is generalizing g with
  | nil => rfl
  | cons i is ih =>
    rw [List.map_cons, List.foldl_cons, List.zipWith_map, List.zipWith_self, ih]
    rfl

theorem sumRows_map_range (w : Nat → Nat → Word) (n k : Nat) :
    sumRows ((List.range (k + 1)).map fun i => (List.range n).map (w i)) =
      (List.range n).map fun j => sum32 ((List.range (k + 1)).map fun i => w i j) := by
  simp only [List.range_succ_eq_map, List.map_cons, sumRows, sum32, foldl_zipWith_add32]

/-- Rows of `n` words summed down the columns. -/
theorem sumRows_rowsOf_map_range (w : Nat → Word) (n k : Nat) :
    sumRows (rowsOf n (k + 1) ((List.range (n * (k + 1))).map w)) =
      (List.range n).map fun j => sum32 ((List.range (k + 1)).map fun i => w (n * i + j)) := by
  rw [rowsOf_map_range, sumRows_map_range fun i j => w (n * i + j)]

/-! ### The parts of a slot -/

theorem Memory.readBlock_eq_map (m : Memory) (a rows n : Nat) :
    m.readBlock a rows n = (List.range (n * rows)).map fun i => m.readWord (a + 4 * i) := by
  rw [Memory.readBlock_eq_readWords, Memory.readWords_eq_map]

/-- Coefficient `n` of the window (43_qmf.md R157). -/
theorem window_eq_map (m : Memory) : window m = (List.range 640).map fun n => m.readWord (0x01000 + 4 * n) :=
  m.readBlock_eq_map _ _ _

theorem evens_window_eq_map (m : Memory) :
    evens (window m) = (List.range 320).map fun n => m.readWord (0x01000 + 4 * (2 * n)) := by
  rw [window_eq_map, evens_map_range _ 320]

theorem synTerms_map_range (x : Nat → Cplx) (b : Nat) (tc ts : Nat → Word) :
    synTerms ((List.range b).map x) tc ts =
      (List.range b).flatMap fun k => [mul32 (x k).re (tc k), neg32 (mul32 (x k).im (ts k))] := by
  have hzip : ((List.range b).map x).zipIdx = (List.range b).map fun k => (x k, k) :=
    List.ext_getElem (by simp) fun i _ _ => by simp
  rw [synTerms, hzip, List.flatMap_map]

/-- Where value `n` of the gather of a `b`-band bank stands in the delay line. -/
def gatherIndex (b n : Nat) : Nat := 4 * b * (n / (2 * b)) + n % (2 * b) + if n % (2 * b) < b then 0 else 2 * b

theorem gatherIndex_first (i : Nat) {b j : Nat} (hj : j < b) : gatherIndex b (2 * b * i + j) = 4 * b * i + j := by
  have hj' : j < 2 * b := by omega
  rw [gatherIndex, Nat.mul_add_div (by omega), Nat.mul_add_mod, Nat.div_eq_of_lt hj', Nat.mod_eq_of_lt hj', if_pos hj,
    Nat.add_zero, Nat.add_zero]

theorem gatherIndex_second (i : Nat) {b j : Nat} (hj : j < b) :
    gatherIndex b (2 * b * i + b + j) = 4 * b * i + 3 * b + j := by
  have hj' : b + j < 2 * b := by omega
  rw [Nat.add_assoc, gatherIndex, Nat.mul_add_div (by omega), Nat.mul_add_mod, Nat.div_eq_of_lt hj', Nat.mod_eq_of_lt hj',
    if_neg (by omega), Nat.add_zero]
  omega

theorem synGather_map_range (b : Nat) (v : Nat → Word) :
    synGather b ((List.range (20 * b)).map v) = (List.range (10 * b)).map fun n => v (gatherIndex b n) := by
  have hchunk : ∀ i ∈ List.range 5, (((List.range (20 * b)).map v).drop (4 * b * i)).take b ++
      (((List.range (20 * b)).map v).drop (4 * b * i + 3 * b)).take b =
        (List.range (2 * b)).map fun j => v (gatherIndex b (2 * b * i + j)) := fun i hi => by
    have hend := Nat.mul_le_mul_left (4 * b) (List.mem_range.mp hi)
    rw [Nat.mul_succ] at hend
    rw [take_drop_map_range v (by omega), take_drop_map_range v (by omega), Nat.two_mul, map_range_add]
    congr 1 <;> refine List.map_congr_left fun j hj => congrArg v ?_
    · rw [← Nat.two_mul, gatherIndex_first i (List.mem_range.mp hj)]
    · rw [← Nat.two_mul, ← Nat.add_assoc, gatherIndex_second i (List.mem_range.mp hj)]
  rw [synGather, List.flatMap_congr hchunk, flatMap_map_range fun n => v (gatherIndex b n)]
  congr 2
  omega

/-! ### One slot -/

/-- The delay line of a `b`-band bank after slot `l`: `2b` new values, then the old line shifted (43_qmf.md R160, R163). -/
def synLine (b : Nat) (tc ts : Nat → Nat → Word) (ssc : Word) (c : Ch) (l : Nat) (m : Memory) (n : Nat) : Word :=
  if n < 2 * b then
    mul32 (sum32 ((List.range b).flatMap fun k =>
      [mul32 (m.cplx .X c l k).re (tc k n), neg32 (mul32 (m.cplx .X c l k).im (ts k n))])) ssc
  else m.real .SDL c 0 (n - 2 * b)

/-- Sample `j` that a `b`-band bank puts out, from its delay line and its window (43_qmf.md R160, R163). -/
def synSample (b : Nat) (v coef : Nat → Word) (j : Nat) : Word :=
  sum32 ((List.range 10).map fun i => mul32 (v (gatherIndex b (b * i + j))) (coef (b * i + j)))

theorem synOut_map_range (b : Nat) (v coef : Nat → Word) :
    synOut b ((List.range (20 * b)).map v) ((List.range (10 * b)).map coef) = (List.range b).map (synSample b v coef) := by
  rw [synOut, synGather_map_range, zipWith_mul32_map_range, Nat.mul_comm 10 b, sumRows_rowsOf_map_range]
  rfl

section
variable (b : Nat) (tc ts : Nat → Nat → Word) (ssc : Word) (coef : Nat → Word) (c : Ch) (l : Nat) (m : Memory)

theorem synLine_eq_append :
    (List.range (20 * b)).map (synLine b tc ts ssc c l m) =
      (List.range (2 * b)).map (synValue (m.cplxRow .X c l 0 b) tc ts ssc) ++
        (m.readBlock (Ram.addr .SDL c 0 0) 20 b).take (18 * b) := by
  have hold : m.readBlock (Ram.addr .SDL c 0 0) 20 b = (List.range (b * 20)).map (m.real .SDL c 0) :=
    (m.readBlock_eq_readWords _ _ _).trans (m.realRow_eq_map c 0 _ rfl)
  have hlen : 20 * b = 2 * b + 18 * b := by omega
  rw [hlen, map_range_add, hold, take_map_range _ (by omega)]
  congr 1 <;> refine List.map_congr_left fun n hn => ?_
  · rw [synLine, if_pos (List.mem_range.mp hn), synValue, Memory.cplxRow_eq_map _ _ _ _ _ _ rfl, synTerms_map_range]
    simp only [Nat.zero_add]
  · rw [synLine, if_neg (by omega), Nat.add_sub_cancel_left]

theorem synSlot_eq_setRow :
    synSlot b tc ts ssc ((List.range (10 * b)).map coef) c l m =
      (m.setRow .SDL c 0 0 ((List.range (20 * b)).map (synLine b tc ts ssc c l m))).setRow .OUT c 0 (b * l)
        ((List.range b).map (synSample b (synLine b tc ts ssc c l m) coef)) := by
  rw [synSlot, ← synLine_eq_append, synOut_map_range]

/-- A slot of samples is clear of `SDL`. -/
theorem real_SDL_synSlot (hout : b * l + b ≤ 2048) {n : Nat} (hn : n < 1280) :
    (synSlot b tc ts ssc ((List.range (10 * b)).map coef) c l m).real .SDL c 0 n =
      (m.setRow .SDL c 0 0 ((List.range (20 * b)).map (synLine b tc ts ssc c l m))).real .SDL c 0 n := by
  rw [synSlot_eq_setRow]
  refine Memory.real_congr rfl fun a ha => Memory.readByte_setRow_outside fun hrow => ?_
  have hrowOut : InRow .OUT c 0 (b * l) b a := by simpa [InRow, Ram.parts] using hrow
  have hsame := ha.eq_of_inRow hrowOut ⟨Nat.one_pos, hn⟩ ⟨Nat.one_pos, hout⟩
  exact absurd hsame.1 (by decide)

theorem real_SDL_synSlot_of_lt (hout : b * l + b ≤ 2048) (hline : 20 * b ≤ 1280) {n : Nat} (hn : n < 20 * b) :
    (synSlot b tc ts ssc ((List.range (10 * b)).map coef) c l m).real .SDL c 0 n = synLine b tc ts ssc c l m n := by
  rw [real_SDL_synSlot b tc ts ssc coef c l m hout (by omega), Memory.real_setRow_map _ _ _ _ rfl hn]

theorem real_SDL_synSlot_of_le (hout : b * l + b ≤ 2048) {n : Nat} (hle : 20 * b ≤ n) (hn : n < 1280) :
    (synSlot b tc ts ssc ((List.range (10 * b)).map coef) c l m).real .SDL c 0 n = m.real .SDL c 0 n := by
  rw [real_SDL_synSlot b tc ts ssc coef c l m hout hn]
  refine Memory.readWord_setRow_outside (.inr ?_)
  rw [List.length_map, List.length_range, ← Nat.zero_add n, Ram.addr_succ, Ram.parts]
  omega

theorem real_OUT_synSlot {j : Nat} (hj : j < b) :
    (synSlot b tc ts ssc ((List.range (10 * b)).map coef) c l m).real .OUT c 0 (b * l + j) =
      synSample b (synLine b tc ts ssc c l m) coef j := by
  have hlen : j < ((List.range b).map (synSample b (synLine b tc ts ssc c l m) coef)).length := by simpa using hj
  rw [synSlot_eq_setRow, Memory.real_setRow _ _ _ _ _ _ rfl hlen, List.getD_eq_getElem _ _ hlen, List.getElem_map,
    List.getElem_range]

end

/-! ### The command over one slot -/

/-- `QMF_SYN` over one slot of the frame runs the bank that `CFG.DS` selects once (43_qmf.md R161, R162). -/
theorem exec_qmfSyn_one (s : State) (c : Ch) {l : Nat} (hl : l + 1 ≤ frameSlots s.regs) :
    exec (.qmfSyn c l 1) s = .next (s.endOk
      (if bit 1 s.regs.cfg then syn32Slot s.regs c l s.mem else syn64Slot s.regs c l s.mem)) := by
  have hexec : exec (.qmfSyn c l 1) s =
      s.command (failing .range (synInRange s.regs l 1)) (synSlots s.regs c l 1) := rfl
  have hrange : synInRange s.regs l 1 = true := decide_eq_true hl
  rw [hexec, State.command_failing, if_pos hrange]
  rfl

theorem syn64Slot_eq (r : Regs) (c : Ch) (l : Nat) (m : Memory) :
    syn64Slot r c l m = synSlot 64 tsc64 tss64 r.ssc64
      ((List.range 640).map fun n => m.readWord (0x01000 + 4 * n)) c l m := by
  rw [syn64Slot, window_eq_map]

theorem syn32Slot_eq (r : Regs) (c : Ch) (l : Nat) (m : Memory) :
    syn32Slot r c l m = synSlot 32 tsc32 tss32 r.ssc32
      ((List.range 320).map fun n => m.readWord (0x01000 + 4 * (2 * n))) c l m := by
  rw [syn32Slot, evens_window_eq_map]

/-- Settles O41: the slot of the bank of 64 bands, whose delay line is the whole of `SDL`. -/
theorem qmfSynComputesSlot64 : Obligations.QmfSynComputesSlot64 := by
  intro s c l hds hl
  have hout : 64 * l + 64 ≤ 2048 := by have := frameSlots_eq s.regs; omega
  have hexec := exec_qmfSyn_one s c hl
  rw [hds, if_neg Bool.false_ne_true, syn64Slot_eq] at hexec
  let v := synLine 64 tsc64 tss64 s.regs.ssc64 c l s.mem
  refine ⟨_, hexec, v, fun n => v (gatherIndex 64 n), _, fun n hn => if_pos hn, fun n hn _ => if_neg (by omega),
    fun i _ j hj => ⟨?_, ?_⟩, fun n _ => rfl, fun n hn => ?_, fun j hj => ?_⟩
  · exact congrArg v (gatherIndex_first i hj)
  · exact congrArg v (gatherIndex_second i hj)
  · exact real_SDL_synSlot_of_lt 64 _ _ _ _ c l s.mem hout le_rfl hn
  · exact real_OUT_synSlot 64 _ _ _ _ c l s.mem hj

/-- Settles O42: the slot of the bank of 32 bands, whose delay line is the lower half of `SDL`. -/
theorem qmfSynComputesSlot32 : Obligations.QmfSynComputesSlot32 := by
  intro s c l hds hl
  have hout : 32 * l + 32 ≤ 2048 := by have := frameSlots_eq s.regs; omega
  have hexec := exec_qmfSyn_one s c hl
  rw [hds, if_pos rfl, syn32Slot_eq] at hexec
  let v := synLine 32 tsc32 tss32 s.regs.ssc32 c l s.mem
  refine ⟨_, hexec, v, fun n => v (gatherIndex 32 n), _, fun n hn => if_pos hn, fun n hn _ => if_neg (by omega),
    fun i _ j hj => ⟨?_, ?_⟩, fun n _ => rfl, fun n hn => ?_, fun n hle hn => ?_, fun j hj => ?_⟩
  · exact congrArg v (gatherIndex_first i hj)
  · exact congrArg v (gatherIndex_second i hj)
  · exact real_SDL_synSlot_of_lt 32 _ _ _ _ c l s.mem hout (by decide) hn
  · exact real_SDL_synSlot_of_le 32 _ _ _ _ c l s.mem hout hle hn
  · exact real_OUT_synSlot 32 _ _ _ _ c l s.mem hj

end Sys2Proof.Machine
end

section
/-! PROOFS. The parts of a finite word, and reals that round to a normal word from inside its range: with such a real its negative
rounds to the negated word, and its double to the doubled one. -/

namespace Sys2Proof.Machine

/-! ### The fields of a finite word -/

theorem field_xor (hi lo : Nat) (v w : Word) : field hi lo (v ^^^ w) = field hi lo v ^^^ field hi lo w := by
  simp only [field, BitVec.toNat_xor, Nat.xor_div_two_pow, Nat.xor_mod_two_pow]

theorem field_exponent_xor_sign (w : Word) : field 30 23 (w ^^^ 0x80000000) = field 30 23 w := by
  rw [field_xor]
  exact Nat.xor_zero _

theorem field_fraction_xor_sign (w : Word) : field 22 0 (w ^^^ 0x80000000) = field 22 0 w := by
  rw [field_xor]
  exact Nat.xor_zero _

theorem field_sign_eq (w : Word) : field 31 31 w = 0 ∨ field 31 31 w = 1 := by have := field_lt 31 31 w; omega

theorem bit_sign_xor_sign (w : Word) : bit 31 (w ^^^ 0x80000000) = !bit 31 w := by
  have hone : field 31 31 (0x80000000 : Word) = 1 := rfl
  rw [bit, bit, field_xor, hone]
  rcases field_sign_eq w with h | h <;> rw [h] <;> rfl

theorem unpack_of_isFinite32 {w : Word} (h : IsFinite32 w) :
    unpack w = .fin (bit 31 w) (significand w) (unitExponent w) := by
  rw [IsFinite32] at h
  unfold unpack significand unitExponent
  dsimp only
  rw [if_neg h]
  split
  next h0 => rw [h0]; rfl
  next h0 => rw [max_eq_right (by omega)]

theorem eq_signedWord (w : Word) : w = signedWord (bit 31 w) (field 30 23 w * 2 ^ 23 + field 22 0 w) := by
  have hw := w.isLt
  have hsign : signBit (bit 31 w) = 2 ^ 31 * field 31 31 w := by
    rw [bit]
    rcases field_sign_eq w with h | h <;> rw [h] <;> rfl
  refine BitVec.eq_of_toNat_eq ?_
  rw [signedWord, hsign, BitVec.toNat_ofNat]
  simp only [field]
  omega

/-- A finite word is what `packMagnitude` assembles from its parts. -/
theorem packMagnitude_of_isFinite32 {w : Word} (h : IsFinite32 w) :
    packMagnitude (bit 31 w) (significand w) (unitExponent w) = w := by
  have hbits : (unitExponent w + 149).toNat * 2 ^ 23 + significand w = field 30 23 w * 2 ^ 23 + field 22 0 w := by
    unfold unitExponent significand
    split <;> omega
  have hexp := field_lt 30 23 w
  have hfrac := field_lt 22 0 w
  rw [IsFinite32] at h
  rw [packMagnitude_of_finite _ (by omega), hbits, ← eq_signedWord]

theorem neg32_of_isFinite32 {w : Word} (h : IsFinite32 w) : neg32 w = w ^^^ 0x80000000 := by
  rw [neg32, unpack_of_isFinite32 h]

theorem value32_xor_sign (w : Word) : value32 (w ^^^ 0x80000000) = -value32 w := by
  have hsign : ∀ b : Bool, (if !b then -1 else 1 : ℚ) = -(if b then -1 else 1) := by decide
  rw [value32, value32, field_exponent_xor_sign, field_fraction_xor_sign, bit_sign_xor_sign, hsign, neg_mul]

theorem value32_of_normal {w : Word} (hsign : bit 31 w = false) (hnormal : 1 ≤ field 30 23 w) :
    (value32 w : ℝ) = significand w * 2 ^ unitExponent w ∧ (2 : ℝ) ^ unitExponent w = 2 ^ field 30 23 w / 2 ^ 150 := by
  constructor
  · rw [value32_cast, hsign, signFactor_false, one_mul]
  · rw [unitExponent, max_eq_right hnormal, zpow_sub₀ two_ne_zero, zpow_natCast]
    norm_cast

/-! ### Rounding inside the range of a normal word -/

/-- The real `x` lies less than half a unit of the last place from the word `w`, which is normal, no power of two, and below 2 in
magnitude, so that its double is finite. -/
structure RoundsInside (x : ℝ) (w : Word) : Prop where
  normal : 1 ≤ field 30 23 w
  lt_two : field 30 23 w ≤ 127
  inside : field 22 0 w ≠ 0
  close : |(value32 w : ℝ) - x| < 2 ^ unitExponent w / 2

section
variable {x : ℝ} {w : Word}

theorem RoundsInside.neg (h : RoundsInside x w) : RoundsInside (-x) (neg32 w) := by
  obtain ⟨hnormal, hle, hinside, hclose⟩ := h
  have hfin : IsFinite32 w := by rw [IsFinite32]; omega
  rw [neg32_of_isFinite32 hfin]
  refine ⟨?_, ?_, ?_, ?_⟩
  · rwa [field_exponent_xor_sign]
  · rwa [field_exponent_xor_sign]
  · rwa [field_fraction_xor_sign]
  · rwa [value32_xor_sign, unitExponent, field_exponent_xor_sign, ← unitExponent, Rat.cast_neg, neg_sub_neg, abs_sub_comm]

variable (h : RoundsInside x w)
include h

theorem RoundsInside.isFinite32 : IsFinite32 w := by
  have := h.lt_two
  rw [IsFinite32]
  omega

theorem RoundsInside.significand_bounds : 2 ^ 23 < significand w ∧ significand w < 2 ^ 24 := by
  refine ⟨?_, significand_lt w⟩
  have hnormal := h.normal
  have hinside := h.inside
  rw [significand, if_neg (by omega)]
  omega

/-- The magnitude of `x` in units of the last place of `w` rounds to the significand of `w`; a larger unit gives the same
rounding. -/
theorem RoundsInside.exists_roundsAt :
    ∃ t, x = signFactor (bit 31 w) * (t * 2 ^ unitExponent w) ∧ ∀ q, -149 ≤ q → RoundsAt t (significand w) q := by
  obtain ⟨hlo, hhi⟩ := h.significand_bounds
  have hunit : (0 : ℝ) < 2 ^ unitExponent w := by positivity
  have hscale : x = signFactor (bit 31 w) * (signFactor (bit 31 w) * x / 2 ^ unitExponent w * 2 ^ unitExponent w) := by
    rw [div_mul_cancel₀ _ hunit.ne']
    cases bit 31 w <;> simp
  have hclose := h.close
  refine ⟨_, hscale, fun q hq => ?_⟩
  generalize signFactor (bit 31 w) * x / 2 ^ unitExponent w = t at hscale
  rw [value32_cast, hscale, abs_sub_scaled, div_eq_mul_inv, mul_comm, mul_lt_mul_iff_right₀ hunit] at hclose
  have hlo' : (2 : ℝ) ^ 23 + 1 ≤ significand w := by exact_mod_cast hlo
  have hhi' : (significand w : ℝ) + 1 ≤ 2 ^ 24 := by exact_mod_cast hhi
  have hbounds := abs_lt.mp hclose
  exact ⟨hq, .inr (by linarith), by linarith, by linarith, .inl (by rwa [one_div])⟩

theorem RoundsInside.isRne32 : IsRne32 x w := by
  obtain ⟨t, hx, hround⟩ := h.exists_roundsAt
  have hpack := (hround _ (le_unitExponent w)).isRne32 (bit 31 w)
  rwa [← hx, packMagnitude_of_isFinite32 h.isFinite32] at hpack

/-- Doubling a normal word is exact (43_qmf.md R156). -/
theorem RoundsInside.mul32_two : mul32 twoF w = packMagnitude (bit 31 w) (significand w) (unitExponent w + 1) := by
  obtain ⟨hlo, hhi⟩ := h.significand_bounds
  have hunit := le_unitExponent w
  have htwo : unpack twoF = .fin false (2 ^ 23) (-22) := by decide
  have hlog : (2 ^ 23 * significand w).log2 = 46 := (Nat.log2_eq_iff (by omega)).mpr (by omega)
  have hround : roundShift (2 ^ 23 * significand w) 23 false = significand w := by
    unfold roundShift
    dsimp only
    rw [if_neg (by omega)]
    omega
  have hq : max ((46 : ℕ) + (-22 + unitExponent w) - 23) (-149) = unitExponent w + 1 := by omega
  have hshift : (unitExponent w + 1 - (-22 + unitExponent w)).toNat = 23 := by omega
  rw [mul32, htwo, unpack_of_isFinite32 h.isFinite32]
  dsimp only
  rw [rne32, if_neg (by omega), hlog]
  dsimp only
  rw [if_neg (by omega), hq, if_neg (by omega), hshift, hround, Bool.false_xor]

theorem RoundsInside.isRne32_two_mul : IsRne32 (2 * x) (mul32 twoF w) := by
  obtain ⟨t, hx, hround⟩ := h.exists_roundsAt
  have hpack := (hround (unitExponent w + 1) (by have := le_unitExponent w; omega)).isRne32 (bit 31 w)
  rw [h.mul32_two]
  convert hpack using 1
  rw [hx, zpow_add_one₀ two_ne_zero]
  ring

end

end Sys2Proof.Machine
end

section
/-! PROOFS. The twiddle ROMs (43_qmf.md R156): the powers of a Gaussian integer near the circle enclose `sin(π·k/256)` for the quarter
wave, and the symmetries of the sine carry the enclosure to every angle of the ROMs. -/

namespace Sys2Proof.Machine

/-! ### An enclosure of `sin(π·k/256)` -/

/-- The real part of a Gaussian integer next to `2^56 · exp(iπ/256)`, inside the circle of radius `2^56`. -/
def unitRe : ℤ := 72052168233621210

/-- The imaginary part of that Gaussian integer. -/
def unitIm : ℤ := 884257524013296

/-- The real and the imaginary part of the `k`-th power of the Gaussian integer. -/
def unitPower : ℕ → ℤ × ℤ
  | 0 => (1, 0)
  | k + 1 =>
    let p := unitPower k
    (p.1 * unitRe - p.2 * unitIm, p.1 * unitIm + p.2 * unitRe)

theorem unitPower_cast (k : ℕ) :
    ((unitPower k).1 + (unitPower k).2 * Complex.I : ℂ) = (unitRe + unitIm * Complex.I) ^ k := by
  induction k with
  | zero => simp [unitPower]
  | succ k ih =>
    rw [pow_succ, ← ih, unitPower]
    push_cast
    linear_combination (-(unitPower k).2 * unitIm : ℂ) * Complex.I_sq

/-- Powers of two points of the unit disc part at most linearly. -/
theorem norm_pow_sub_pow_le {z a : ℂ} (hz : ‖z‖ ≤ 1) (ha : ‖a‖ ≤ 1) (k : ℕ) : ‖z ^ k - a ^ k‖ ≤ k * ‖z - a‖ := by
  induction k with
  | zero => simp
  | succ k ih =>
    calc ‖z ^ (k + 1) - a ^ (k + 1)‖ = ‖z ^ k * (z - a) + (z ^ k - a ^ k) * a‖ := by ring_nf
      _ ≤ ‖z‖ ^ k * ‖z - a‖ + ‖z ^ k - a ^ k‖ * ‖a‖ := by
        rw [← norm_pow, ← norm_mul, ← norm_mul]
        exact norm_add_le _ _
      _ ≤ 1 * ‖z - a‖ + k * ‖z - a‖ * 1 := by
        gcongr
        exact pow_le_one₀ (norm_nonneg z) hz
      _ = (k + 1 : ℕ) * ‖z - a‖ := by push_cast; ring

/-- `π/256`, with 20 decimal places of `π`. -/
def angleApprox : ℚ := 3.14159265358979323846 / 256

theorem abs_angle_sub_angleApprox_le : |Real.pi / 256 - angleApprox| ≤ 1 / 2 ^ 70 := by
  have hlo := Real.pi_gt_d20
  have hhi := Real.pi_lt_d20
  rw [angleApprox, abs_le]
  push_cast
  constructor <;> linarith

/-- The exponential series at `x·i` up to the power 7. -/
theorem sum_exp_series_mul_I (x : ℂ) :
    ∑ m ∈ Finset.range 8, (x * Complex.I) ^ m / m.factorial =
      (1 - x ^ 2 / 2 + x ^ 4 / 24 - x ^ 6 / 720) + (x - x ^ 3 / 6 + x ^ 5 / 120 - x ^ 7 / 5040) * Complex.I := by
  have hI (n : ℕ) : Complex.I ^ (n + 2) = -Complex.I ^ n := by rw [pow_add, Complex.I_sq, mul_neg_one]
  simp only [Finset.sum_range_succ, Finset.sum_range_zero, Nat.factorial, mul_pow, hI]
  push_cast
  ring

theorem norm_ratCast_add_mul_I_le {a b : ℚ} {r : ℝ} (ha : |(a : ℝ)| ≤ r) (hb : |(b : ℝ)| ≤ r) :
    ‖(a + b * Complex.I : ℂ)‖ ≤ 2 * r := by
  calc ‖(a + b * Complex.I : ℂ)‖ ≤ ‖(a : ℂ)‖ + ‖(b * Complex.I : ℂ)‖ := norm_add_le _ _
    _ = |(a : ℝ)| + |(b : ℝ)| := by
      rw [norm_mul, Complex.norm_I, mul_one, Complex.norm_ratCast, Complex.norm_ratCast]
    _ ≤ 2 * r := by linarith

/-- The point of the circle at `angleApprox`, by its Taylor polynomial. -/
theorem norm_exp_angleApprox_sub_le :
    ‖Complex.exp (angleApprox * Complex.I) - (unitRe + unitIm * Complex.I) / 2 ^ 56‖ ≤ 3 / 2 ^ 56 := by
  have hnorm : ‖(angleApprox * Complex.I : ℂ)‖ = angleApprox := by
    rw [norm_mul, Complex.norm_I, mul_one, Complex.norm_ratCast, angleApprox]
    norm_num
  have hle : ‖(angleApprox * Complex.I : ℂ)‖ ≤ 1 := by
    rw [hnorm, angleApprox]
    norm_num
  have htaylor := Complex.exp_bound hle (n := 8) (by norm_num)
  have htail : (angleApprox : ℝ) ^ 8 * ((Nat.succ 8 : ℕ) * ((Nat.factorial 8 : ℕ) * (8 : ℕ) : ℝ)⁻¹) ≤ 1 / 2 ^ 56 := by
    norm_num [angleApprox, Nat.factorial]
  have hre : |((1 - angleApprox ^ 2 / 2 + angleApprox ^ 4 / 24 - angleApprox ^ 6 / 720 - unitRe / 2 ^ 56 : ℚ) : ℝ)| ≤
      1 / 2 ^ 56 := by
    norm_num [angleApprox, unitRe, abs_le]
  have him : |((angleApprox - angleApprox ^ 3 / 6 + angleApprox ^ 5 / 120 - angleApprox ^ 7 / 5040 -
      unitIm / 2 ^ 56 : ℚ) : ℝ)| ≤ 1 / 2 ^ 56 := by
    norm_num [angleApprox, unitIm, abs_le]
  rw [hnorm, sum_exp_series_mul_I] at htaylor
  calc _ ≤ _ := norm_sub_le_norm_sub_add_norm_sub _ _ _
    _ ≤ 1 / 2 ^ 56 + 2 * (1 / 2 ^ 56) := by
      refine add_le_add (htaylor.trans htail) ((congrArg norm ?_).trans_le (norm_ratCast_add_mul_I_le hre him))
      push_cast
      ring
    _ = 3 / 2 ^ 56 := by norm_num

/-- Points of the circle are no farther apart than their angles. -/
theorem norm_exp_mul_I_sub_le (x y : ℝ) : ‖Complex.exp (x * Complex.I) - Complex.exp (y * Complex.I)‖ ≤ |x - y| := by
  have hfactor : Complex.exp (x * Complex.I) - Complex.exp (y * Complex.I) =
      Complex.exp (y * Complex.I) * (Complex.exp (Complex.I * (x - y : ℝ)) - 1) := by
    rw [mul_sub_one, ← Complex.exp_add]
    push_cast
    ring_nf
  rw [hfactor, norm_mul, Complex.norm_exp_ofReal_mul_I, one_mul]
  exact Real.norm_exp_I_mul_ofReal_sub_one_le

theorem norm_exp_angle_sub_le :
    ‖Complex.exp ((Real.pi / 256 : ℝ) * Complex.I) - (unitRe + unitIm * Complex.I) / 2 ^ 56‖ ≤ 1 / 2 ^ 54 := by
  have hangle := (norm_exp_mul_I_sub_le (Real.pi / 256) angleApprox).trans abs_angle_sub_angleApprox_le
  rw [Complex.ofReal_ratCast] at hangle
  calc _ ≤ _ := norm_sub_le_norm_sub_add_norm_sub _ _ _
    _ ≤ 1 / 2 ^ 70 + 3 / 2 ^ 56 := add_le_add hangle norm_exp_angleApprox_sub_le
    _ ≤ 1 / 2 ^ 54 := by norm_num

theorem norm_unit_le_one : ‖((unitRe + unitIm * Complex.I) / 2 ^ 56 : ℂ)‖ ≤ 1 := by
  have hsq : (unitRe ^ 2 + unitIm ^ 2 : ℝ) ≤ (2 ^ 56) ^ 2 := by norm_num [unitRe, unitIm]
  have hnorm := Complex.norm_add_mul_I unitRe unitIm
  rw [Complex.ofReal_intCast, Complex.ofReal_intCast] at hnorm
  rw [norm_div, hnorm, norm_pow, Complex.norm_ofNat, div_le_one (by positivity)]
  exact Real.sqrt_le_iff.mpr ⟨by positivity, hsq⟩

/-- The sine of `π·k/256`, from the imaginary part of the `k`-th power. -/
theorem abs_sin_sub_unitPower_le (k : ℕ) :
    |Real.sin (Real.pi * k / 256) - (unitPower k).2 / 2 ^ (56 * k)| ≤ k / 2 ^ 54 := by
  have hnorm : ‖Complex.exp ((Real.pi / 256 : ℝ) * Complex.I)‖ = 1 := Complex.norm_exp_ofReal_mul_I _
  have hpow := (norm_pow_sub_pow_le hnorm.le norm_unit_le_one k).trans
    (mul_le_mul_of_nonneg_left norm_exp_angle_sub_le k.cast_nonneg)
  have hexp : Complex.exp ((Real.pi / 256 : ℝ) * Complex.I) ^ k = Complex.exp ((Real.pi * k / 256 : ℝ) * Complex.I) := by
    rw [← Complex.exp_nat_mul]
    congr 1
    push_cast
    ring
  have hparts : ((unitPower k).1 + (unitPower k).2 * Complex.I : ℂ) / 2 ^ (56 * k) =
      ((unitPower k).1 / 2 ^ (56 * k) : ℝ) + ((unitPower k).2 / 2 ^ (56 * k) : ℝ) * Complex.I := by
    push_cast
    ring
  rw [hexp, div_pow, ← unitPower_cast, ← pow_mul, hparts, mul_one_div] at hpow
  have him := (Complex.abs_im_le_norm _).trans hpow
  rwa [Complex.sub_im, Complex.exp_ofReal_mul_I_im, Complex.add_im, Complex.ofReal_im,
    Complex.im_ofReal_mul, Complex.I_im, zero_add, mul_one] at him

/-- The word `w` is positive, normal, no power of two, and below 2, and the enclosure of `sin(π·k/256)` lies less than half a
unit of the last place away from it; the comparison is in units of `2^-(151 + 56k)`. -/
def SineEnclosed (k : ℕ) (w : Word) : Prop :=
  bit 31 w = false ∧ 1 ≤ field 30 23 w ∧ field 30 23 w ≤ 127 ∧ field 22 0 w ≠ 0 ∧
  |(significand w : ℤ) * (2 ^ field 30 23 w * 2) * 2 ^ (56 * k) - (unitPower k).2 * 2 ^ 151|
    + (k : ℤ) * 2 ^ 97 * 2 ^ (56 * k) < 2 ^ field 30 23 w * 2 ^ (56 * k)

/-- The entries between the exact ones, 0 and 1. -/
theorem sineEnclosed_quarterSine : ∀ k < 128, 1 ≤ k → SineEnclosed k (quarterSine k) := by
  unfold SineEnclosed
  decide +kernel

/-- The comparison of `SineEnclosed` over the reals. -/
theorem abs_sub_lt_of_enclosed {m u p D k x : ℝ} (hD : 0 < D)
    (hclose : |m * (u * 2) * D - p * 2 ^ 151| + k * 2 ^ 97 * D < u * D) (hx : |x - p / D| ≤ k / 2 ^ 54) :
    |m * (u / 2 ^ 150) - x| < u / 2 ^ 150 / 2 := by
  have hunits : (0 : ℝ) < 2 ^ 151 * D := by positivity
  have hp : |p * 2 ^ 151 - x * (2 ^ 151 * D)| ≤ k * 2 ^ 97 * D :=
    calc |p * 2 ^ 151 - x * (2 ^ 151 * D)| = |x - p / D| * (2 ^ 151 * D) := by
          rw [abs_sub_comm, ← abs_of_pos hunits, ← abs_mul, abs_of_pos hunits]
          field_simp
      _ ≤ k / 2 ^ 54 * (2 ^ 151 * D) := by gcongr
      _ = k * 2 ^ 97 * D := by ring
  have htri := abs_sub_le (m * (u * 2) * D) (p * 2 ^ 151) (x * (2 ^ 151 * D))
  have hscale : m * (u / 2 ^ 150) - x = (m * (u * 2) * D - x * (2 ^ 151 * D)) / (2 ^ 151 * D) := by
    field_simp
  have hhalf : u / 2 ^ 150 / 2 * (2 ^ 151 * D) = u * D := by ring
  rw [hscale, abs_div, abs_of_pos hunits, div_lt_iff₀ hunits, hhalf]
  linarith

theorem SineEnclosed.roundsInside {k : ℕ} {w : Word} (h : SineEnclosed k w) :
    RoundsInside (Real.sin (Real.pi * k / 256)) w := by
  obtain ⟨hsign, hnormal, hle, hinside, hclose⟩ := h
  obtain ⟨hvalue, hunit⟩ := value32_of_normal hsign hnormal
  refine ⟨hnormal, hle, hinside, ?_⟩
  rw [hvalue, hunit]
  exact abs_sub_lt_of_enclosed (by positivity) (mod_cast hclose) (abs_sin_sub_unitPower_le k)

theorem quarterSine_roundsInside {k : ℕ} (h0 : 1 ≤ k) (hk : k < 128) :
    RoundsInside (Real.sin (Real.pi * k / 256)) (quarterSine k) := (sineEnclosed_quarterSine k hk h0).roundsInside

/-! ### Every angle that is no multiple of a quarter turn -/

/-- The symmetries that fold the circle onto the quarter wave. -/
theorem sineOf_roundsInside {r : ℕ} (hr : r < 512) (h : ¬128 ∣ r) :
    RoundsInside (Real.sin (Real.pi * r / 256)) (sineOf r) := by
  unfold sineOf
  split_ifs with h1 h2 h3
  · exact quarterSine_roundsInside (by omega) (by omega)
  · have hfold : Real.pi * r / 256 = Real.pi - Real.pi * (256 - r : ℕ) / 256 := by
      rw [Nat.cast_sub h2]
      push_cast
      ring
    rw [hfold, Real.sin_pi_sub]
    exact quarterSine_roundsInside (by omega) (by omega)
  · have hfold : Real.pi * r / 256 = Real.pi * (r - 256 : ℕ) / 256 + Real.pi := by
      rw [Nat.cast_sub (by omega)]
      push_cast
      ring
    rw [hfold, Real.sin_add_pi]
    exact (quarterSine_roundsInside (by omega) (by omega)).neg
  · have hfold : Real.pi * r / 256 = 2 * Real.pi - Real.pi * (512 - r : ℕ) / 256 := by
      rw [Nat.cast_sub hr.le]
      push_cast
      ring
    rw [hfold, Real.sin_two_pi_sub]
    exact (quarterSine_roundsInside (by omega) (by omega)).neg

/-- `TRIG32(sin, π·a/256)`, but for the angles whose sine is 0 or ±1. -/
theorem sin256_roundsInside {a : ℤ} (h : ¬128 ∣ a) : RoundsInside (Real.sin (Real.pi * a / 256)) (sin256 a) := by
  have hturns : (a : ℝ) = (a % 512).toNat + 512 * (a / 512 : ℤ) := by
    exact_mod_cast (by omega : a = (a % 512).toNat + 512 * (a / 512))
  have hangle : Real.pi * a / 256 = Real.pi * (a % 512).toNat / 256 + (a / 512 : ℤ) * (2 * Real.pi) := by
    rw [hturns]
    ring
  rw [hangle, Real.sin_add_int_mul_two_pi]
  exact sineOf_roundsInside (by omega) (by omega)

theorem cos256_roundsInside {a : ℤ} (h : ¬128 ∣ a) : RoundsInside (Real.cos (Real.pi * a / 256)) (cos256 a) := by
  have hangle : Real.pi * a / 256 + Real.pi / 2 = Real.pi * (a + 128 : ℤ) / 256 := by
    push_cast
    ring
  rw [← Real.sin_add_pi_div_two, hangle]
  exact sin256_roundsInside (by omega)

/-! ### The six ROMs -/

theorem odd_angleA (k n : ℕ) : Odd (angleA k n) := Odd.mul ⟨k, rfl⟩ ⟨2 * n - 1, by ring⟩

theorem odd_angleS64 (k n : ℕ) : Odd (angleS64 k n) := Odd.mul ⟨k, rfl⟩ ⟨n - 128, by ring⟩

theorem not_dvd_of_odd {a : ℤ} (h : Odd a) : ¬128 ∣ a := by
  obtain ⟨j, rfl⟩ := h
  omega

theorem not_dvd_angleS32 (k n : ℕ) : ¬128 ∣ angleS32 k n := by
  obtain ⟨j, hj⟩ : Odd ((2 * k + 1) * (2 * n - 127) : ℤ) := Odd.mul ⟨k, rfl⟩ ⟨n - 64, by ring⟩
  rw [angleS32, hj]
  omega

section
variable (k n : ℕ)

theorem angleA_cast :
    Real.pi / 64 * ((k : ℝ) + 1 / 2) * (2 * (n : ℝ) - 1 / 2) = Real.pi * angleA k n / 256 := by
  push_cast [angleA]
  ring

theorem angleS32_cast : Real.pi / 64 * ((k : ℝ) + 1 / 2) * (2 * (n : ℝ) - 127) = Real.pi * angleS32 k n / 256 := by
  push_cast [angleS32]
  ring

theorem angleS64_cast : Real.pi / 128 * ((k : ℝ) + 1 / 2) * (2 * (n : ℝ) - 255) = Real.pi * angleS64 k n / 256 := by
  push_cast [angleS64]
  ring

end

/-- Settles O57: the angles of the ROMs are odd multiples of `π/256` or of `π/128`, so each entry is the word of an enclosed sine, or
its double. -/
theorem twiddlesAreCorrectlyRounded : Obligations.TwiddlesAreCorrectlyRounded := by
  refine ⟨fun k _ n _ => ?_, fun k _ n _ => ?_⟩
  · have hA := not_dvd_of_odd (odd_angleA k n)
    have hS := not_dvd_angleS32 k n
    rw [angleA_cast, angleS32_cast]
    exact ⟨(cos256_roundsInside hA).isRne32_two_mul, (sin256_roundsInside hA).isRne32_two_mul,
      (cos256_roundsInside hS).isRne32, (sin256_roundsInside hS).isRne32⟩
  · have hS := not_dvd_of_odd (odd_angleS64 k n)
    rw [angleS64_cast]
    exact ⟨(cos256_roundsInside hS).isRne32, (sin256_roundsInside hS).isRne32⟩

end Sys2Proof.Machine
end

section
/-! PROOFS. The bits and fields of a masked word (00_scope.md R7), and with them `STATUS` at the end of a command and after a
host write (60_exceptions.md R184, R186; 10_state.md R29). -/

namespace Sys2Proof.Machine

/-! ### Bits and fields of masked words -/

theorem field_and (hi lo : Nat) (v w : Word) : field hi lo (v &&& w) = field hi lo v &&& field hi lo w := by
  simp only [field, BitVec.toNat_and, Nat.and_div_two_pow, Nat.and_mod_two_pow]

theorem field_or (hi lo : Nat) (v w : Word) : field hi lo (v ||| w) = field hi lo v ||| field hi lo w := by
  simp only [field, BitVec.toNat_or, Nat.or_div_two_pow, Nat.or_mod_two_pow]

/-- A mask of ones keeps a field whole. -/
theorem field_and_of_ones {hi lo : Nat} {mask : Word} (hmask : field hi lo mask = 2 ^ (hi + 1 - lo) - 1) (v : Word) :
    field hi lo (v &&& mask) = field hi lo v := by
  rw [field_and, hmask, Nat.and_two_pow_sub_one_eq_mod, Nat.mod_eq_of_lt (field_lt hi lo v)]

theorem bit_eq_getLsbD (i : Nat) (v : Word) : bit i v = v.getLsbD i := by
  rw [bit, field, Nat.add_sub_cancel_left, pow_one, BitVec.getLsbD, Nat.testBit_eq_decide_div_mod_eq]

@[simp] theorem bit_and (i : Nat) (v w : Word) : bit i (v &&& w) = (bit i v && bit i w) := by
  simp only [bit_eq_getLsbD, BitVec.getLsbD_and]

@[simp] theorem bit_or (i : Nat) (v w : Word) : bit i (v ||| w) = (bit i v || bit i w) := by
  simp only [bit_eq_getLsbD, BitVec.getLsbD_or]

/-! ### `STATUS` -/

/-- `STATUS` after an end without error (60_exceptions.md R186). -/
theorem statusAfterOk_flags (st : Word) :
    bit 0 (statusAfterOk st) = false ∧ bit 1 (statusAfterOk st) = true ∧ bit 2 (statusAfterOk st) = bit 2 st ∧
      field 11 8 (statusAfterOk st) = field 11 8 st := by
  refine ⟨?_, ?_, ?_, ?_⟩ <;> rw [statusAfterOk]
  · simp [show bit 0 (~~~busyMask) = false from rfl, show bit 0 doneMask = false from rfl]
  · simp [show bit 1 doneMask = true from rfl]
  · simp [show bit 2 (~~~busyMask) = true from rfl, show bit 2 doneMask = false from rfl]
  · rw [field_or, field_and_of_ones rfl, show field 11 8 doneMask = 0 from rfl, Nat.or_zero]

/-- `STATUS` after an end with an error: the first one since `ERR` was 0 is recorded (60_exceptions.md R184, R186). -/
theorem statusAfterErr_flags (e : CmdError) (st : Word) :
    bit 0 (statusAfterErr e st) = false ∧ bit 1 (statusAfterErr e st) = bit 1 st ∧ bit 2 (statusAfterErr e st) = true ∧
      field 11 8 (statusAfterErr e st) = if bit 2 st then field 11 8 st else errorCode e := by
  cases herr : bit 2 st with
  | true =>
    rw [statusAfterErr, if_pos herr, if_pos rfl]
    exact ⟨by simp [show bit 0 (~~~busyMask) = false from rfl], by simp [show bit 1 (~~~busyMask) = true from rfl],
      by simp [herr, show bit 2 (~~~busyMask) = true from rfl], field_and_of_ones rfl st⟩
  | false =>
    have codeWord : bit 0 (BitVec.ofNat 32 (errorCode e) <<< 8 : Word) = false ∧
        bit 1 (BitVec.ofNat 32 (errorCode e) <<< 8 : Word) = false ∧
        field 11 8 (BitVec.ofNat 32 (errorCode e) <<< 8 : Word) = errorCode e := by cases e <;> decide
    obtain ⟨h0, h1, hcode⟩ := codeWord
    rw [statusAfterErr, if_neg (by simp [herr]), if_neg (by simp)]
    refine ⟨?_, ?_, ?_, ?_⟩
    · simp [h0, show bit 0 (~~~(busyMask ||| errCodeMask)) = false from rfl, show bit 0 errMask = false from rfl]
    · simp [h1, show bit 1 (~~~(busyMask ||| errCodeMask)) = true from rfl, show bit 1 errMask = false from rfl]
    · simp [show bit 2 errMask = true from rfl]
    · rw [field_or, field_or, field_and, hcode, show field 11 8 (~~~(busyMask ||| errCodeMask)) = 0 from rfl,
        show field 11 8 errMask = 0 from rfl, Nat.and_zero, Nat.zero_or, Nat.zero_or]

/-- The flags after a host write of `STATUS`: a 1 clears, a 0 keeps (10_state.md R29). -/
theorem statusAfterWrite_flags (data st : Word) :
    bit 1 (statusAfterWrite data st) = (bit 1 st && !bit 1 data) ∧
      bit 2 (statusAfterWrite data st) = (bit 2 st && !bit 2 data) := by
  have doneMask_bits : bit 1 (~~~doneMask) = false ∧ bit 2 (~~~doneMask) = true := ⟨rfl, rfl⟩
  have errMask_bits : bit 1 (~~~(errMask ||| errCodeMask)) = true ∧ bit 2 (~~~(errMask ||| errCodeMask)) = false :=
    ⟨rfl, rfl⟩
  rw [statusAfterWrite]
  cases hdone : bit 1 data <;> cases herr : bit 2 data <;> simp [doneMask_bits, errMask_bits]

end Sys2Proof.Machine
end

section
/-! PROOFS. The error table of 60_exceptions.md R181 to R185: the checks of a command word are, column by column, those of the
table, and every pending word ends with the first of them that fails. -/

namespace Sys2Proof.Machine

/-! ### Reserved bits -/

theorem decode_of_code {w : Word} {o : Opcode} (hop : field 31 26 w = o.code) :
    decode w = if reservedClear o w then .ok (operands o w) else .error .reserved := by
  rw [decode, hop, opcodeOf_code]

/-- Two neighbouring reserved fields are one line of the list of R182. -/
theorem field_23_8_eq_zero_iff (w : Word) : field 23 8 w = 0 ↔ field 23 16 w = 0 ∧ field 15 8 w = 0 := by
  simp only [field]
  omega

/-- The list of R182 is the model's table of reserved fields. -/
theorem hasReservedBit_iff {w : Word} {o : Opcode} (hop : field 31 26 w = o.code) :
    HasReservedBit w ↔ reservedClear o w = false := by
  rw [HasReservedBit, hop]
  cases o <;> simp [reservedClear, reservedFields, Opcode.code, field_23_8_eq_zero_iff, imp_iff_not_or]

theorem decode_reserved_iff (w : Word) : decode w = .error .reserved ↔ LegalOp w ∧ HasReservedBit w := by
  by_cases hlegal : LegalOp w
  · obtain ⟨o, hcode⟩ := (legalOp_iff_exists_code w).mp hlegal
    have hop := hcode.symm
    rw [decode_of_code hop, hasReservedBit_iff hop]
    cases reservedClear o w <;> simp [hlegal]
  · simp [(decode_illegalOp_iff w).mpr hlegal, hlegal]

/-- Settles O5: the reserved fields of the decoder are the list of R182. -/
theorem reservedBitsExactly : Obligations.ReservedBitsExactly := by
  refine ⟨decode_reserved_iff, fun s w hp hlegal hres => ?_⟩
  rw [step_of_decode_error hp ((decode_reserved_iff w).mpr ⟨hlegal, hres⟩), errorCode]

/-! ### The columns of R183 -/

/-- The check of the column `CONFIG` passes. -/
def configPasses (r : Regs) : Instr → Bool
  | .deqEnvCpl | .deqNoiseCpl => r.cpl
  | _ => true

/-- The check of the column `RANGE` passes. -/
def rangePasses (r : Regs) : Instr → Bool
  | .qmfAna _ klim l0 nl => anaInRange r klim l0 nl
  | .spliceX _ kx mb _ => spliceInRange kx mb
  | .envMul _ j0 nj m0 nm | .envMac _ j0 nj m0 nm => blockInRange j0 nj m0 nm
  | .qmfSyn _ l0 nl => synInRange r l0 nl
  | _ => true

/-- The check of the column `GRID` passes. -/
def gridPasses (r : Regs) : Instr → Bool
  | .deqEnv c => envGridLegal r c
  | .deqNoise c => noiseGridLegal r c
  | .deqEnvCpl => envGridLegal r 0
  | .deqNoiseCpl => noiseGridLegal r 0
  | _ => true

/-- A condition on the channel of bit 25, as the table writes it (30_encoding.md R80). -/
theorem channel_cases_iff (P : Ch → Prop) (w : Word) :
    (field 25 25 w = 0 ∧ P 0 ∨ field 25 25 w = 1 ∧ P 1) ↔ P (chOf w) := by
  have hlt := field_lt 25 25 w
  rcases (show field 25 25 w = 0 ∨ field 25 25 w = 1 by omega) with h | h <;> simp [chOf, h]

section
variable {w : Word} {o : Opcode} (hop : field 31 26 w = o.code) (r : Regs)
include hop

theorem hasConfigError_iff : HasConfigError w r ↔ configPasses r (operands o w) = false := by
  rw [HasConfigError, hop]
  cases o <;> simp [Opcode.code, operands, configPasses, Regs.cpl]

theorem hasRangeError_iff : HasRangeError w r ↔ rangePasses r (operands o w) = false := by
  rw [HasRangeError, hop, show frameSlots r = r.ntsr from rfl]
  cases o <;> simp [Opcode.code, operands, rangePasses, anaInRange, synInRange, spliceInRange, blockInRange] <;> omega

theorem hasGridError_iff : HasGridError w r ↔ gridPasses r (operands o w) = false := by
  rw [HasGridError, hop]
  cases o <;> simp [Opcode.code, operands, gridPasses, ← envGridLegal_iff, ← noiseGridLegal_iff]
  case deqEnv => exact channel_cases_iff (fun c => envGridLegal r c = false) w
  case deqNoise => exact channel_cases_iff (fun c => noiseGridLegal r c = false) w

end

/-! ### The first error of a word -/

theorem firstError_none_cons (checks : List (Option CmdError)) : firstError (none :: checks) = firstError checks := rfl

theorem firstError_cons_none (a : Option CmdError) (checks : List (Option CmdError)) :
    firstError (a :: none :: checks) = firstError (a :: checks) := by cases a <;> rfl

theorem firstError_singleton (a : Option CmdError) : firstError [a] = a := by cases a <;> rfl

theorem firstError_failing_cons (e : CmdError) (passes : Bool) (checks : List (Option CmdError)) :
    firstError (failing e passes :: checks) = if passes = true then firstError checks else some e := by
  cases passes <;> rfl

/-- The error of a decoded command: the columns of R183 in the order of R185. -/
def columnError (r : Regs) (i : Instr) : Option CmdError :=
  firstError [failing .config (configPasses r i), failing .range (rangePasses r i), failing .grid (gridPasses r i)]

/-- The error with which a command word ends, if any: the decoder's before those of the columns (60_exceptions.md R185). -/
def wordError (w : Word) (r : Regs) : Option CmdError :=
  match decode w with
  | .error e => some e
  | .ok i => columnError r i

/-- Every command makes the checks of its row of R183 in that order, and then has its effect on memory. -/
theorem exec_eq_command (i : Instr) (s : State) : ∃ f, exec i s = s.command (columnError s.regs i) f := by
  cases i <;>
    simp only [columnError, configPasses, rangePasses, gridPasses, failing_true, firstError_none_cons, firstError_cons_none,
      firstError_singleton, exec, execNop, execResetCh, execShiftLow, execQmfAna, execSpliceX, execEnvMul, execEnvMac,
      execQmfSyn, execSavePrev, execDeqEnv, execDeqNoise, execDeqEnvCpl, execDeqNoiseCpl] <;>
    exact ⟨_, rfl⟩

/-- A pending word makes its checks, and then has its effect on memory. -/
theorem step_eq_command {s : State} {w : Word} (hp : s.pending = some ⟨w, 0⟩) :
    ∃ f, step s = s.command (wordError w s.regs) f := by
  rw [step_of_ready hp]
  cases hd : decode w with
  | error e => exact ⟨id, by rw [runWord_of_error hd, wordError, hd, State.command_some]⟩
  | ok i =>
    obtain ⟨f, hf⟩ := exec_eq_command i s
    exact ⟨f, by rw [runWord_of_ok hd, hf, wordError, hd]⟩

/-- The first error of the checks is the one of the error table, by its code. -/
theorem endsWithError_iff (w : Word) (r : Regs) (code : Nat) :
    EndsWithError w r code ↔ ∃ e, wordError w r = some e ∧ code = errorCode e := by
  by_cases hlegal : LegalOp w
  · obtain ⟨o, hcode⟩ := (legalOp_iff_exists_code w).mp hlegal
    have hop := hcode.symm
    simp only [EndsWithError, hlegal, hasReservedBit_iff hop, hasConfigError_iff hop, hasRangeError_iff hop,
      hasGridError_iff hop, wordError, decode_of_code hop]
    cases hres : reservedClear o w with
    | false => simp [errorCode]
    | true =>
      simp only [columnError, firstError_failing_cons, if_true]
      split_ifs <;> simp_all [errorCode, firstError]
  · simp [EndsWithError, wordError, (decode_illegalOp_iff w).mpr hlegal, hlegal, errorCode]

theorem step_of_wordError {s : State} {w : Word} {e : CmdError} (hp : s.pending = some ⟨w, 0⟩)
    (he : wordError w s.regs = some e) : step s = .next (s.endErr e) := by
  obtain ⟨f, hf⟩ := step_eq_command hp
  rw [hf, he, State.command_some]

theorem step_of_no_wordError {s : State} {w : Word} (hp : s.pending = some ⟨w, 0⟩) (he : wordError w s.regs = none) :
    ∃ m, step s = .next (s.endOk m) := by
  obtain ⟨f, hf⟩ := step_eq_command hp
  exact ⟨f s.mem, by rw [hf, he, State.command_none]⟩

/-- Settles O7: the step makes the checks of the table, and the first one that fails ends the command. -/
theorem commandErrorsFollowTable : Obligations.CommandErrorsFollowTable := by
  intro s w code hp hcode
  obtain ⟨e, he, rfl⟩ := (endsWithError_iff w s.regs code).mp hcode
  rw [step_of_wordError hp he, State.endErr_eq_endedErr]

/-- Settles O8: a word without an error ends as R186 gives it, one with an error as R184 does, and its code is the only one. -/
theorem commandEndUpdatesStatus : Obligations.CommandEndUpdatesStatus := by
  intro s w hp
  cases he : wordError w s.regs with
  | none =>
    obtain ⟨m, hstep⟩ := step_of_no_wordError hp he
    obtain ⟨hbusy, hdone, herr, hcode⟩ := statusAfterOk_flags s.regs.status
    refine ⟨s.endOk m, hstep, rfl, hbusy,
      fun _ => ⟨s.endedOk_endOk m, hdone, BitVec.toNat_add _ _, herr, hcode⟩, fun code hends => ?_, rfl⟩
    obtain ⟨e, he', -⟩ := (endsWithError_iff w s.regs code).mp hends
    simp [he] at he'
  | some e =>
    have hends (code : Nat) : EndsWithError w s.regs code ↔ code = errorCode e := by
      simp [endsWithError_iff, he]
    obtain ⟨hbusy, hdone, herr, hcode⟩ := statusAfterErr_flags e s.regs.status
    refine ⟨s.endErr e, step_of_wordError hp he, rfl, hbusy,
      fun hnone => absurd ((hends _).mpr rfl) (hnone _), fun code hcode' => ?_, rfl⟩
    rw [(hends code).mp hcode']
    exact ⟨rfl, rfl, hdone, herr, hcode⟩

end Sys2Proof.Machine
end

section
/-! PROOFS. The interrupt output (60_exceptions.md R190, R192) after the host's writes of `CTRL` and `STATUS`. -/

namespace Sys2Proof.Machine

/-- A write of `CTRL` with `SRST` 0 stores its enables (10_state.md R28). -/
theorem State.access_write_ctrl (s : State) {data : Word} (h : bit 0 data = false) :
    s.access (.write 0x00004 4 data) = (.done, { s with regs := { s.regs with ctrl := data &&& ctrlMask } }) := by
  rw [show s.access (.write 0x00004 4 data) = (.done, s.writeReg 0x004 data) from rfl, State.writeReg, h]
  rfl

/-- A write of `STATUS` clears the bits of R29 and leaves the rest of the state as it is. -/
theorem State.access_write_status (s : State) (data : Word) :
    s.access (.write 0x00008 4 data) =
      (.done, { s with regs := { s.regs with status := statusAfterWrite data s.regs.status } }) := rfl

/-- Settles O24: `CTRL` keeps both enables of the data, and `STATUS` loses both flags to a W1C write of both bits. -/
theorem interruptFollowsItsEquation : Obligations.InterruptFollowsItsEquation := by
  refine fun s => ⟨rfl, fun data hsrst => ?_, fun data hdone herr => ?_, rfl⟩
  · rw [s.access_write_ctrl hsrst]
    refine ⟨rfl, ?_⟩
    have enables : bit 1 (data &&& ctrlMask) = bit 1 data ∧ bit 2 (data &&& ctrlMask) = bit 2 data := by
      simp [show bit 1 ctrlMask = true from rfl, show bit 2 ctrlMask = true from rfl]
    simp only [State.irq, Regs.irq, enables]
  · obtain ⟨hdone', herr'⟩ := statusAfterWrite_flags data s.regs.status
    rw [hdone, Bool.not_true, Bool.and_false] at hdone'
    rw [herr, Bool.not_true, Bool.and_false] at herr'
    rw [s.access_write_status, State.irq, Regs.irq, hdone', herr']
    rfl

end Sys2Proof.Machine
end

section
/-! PROOFS. Reset: power-on (70_reset_and_hazards.md R200), and the write of 1 to `CTRL.SRST` (R201). -/

namespace Sys2Proof.Machine

/-- Settles O12: `State.reset` lists the values of R200, and its memory lists no byte. -/
theorem resetValues : Obligations.ResetValues :=
  ⟨rfl, Memory.readByte_nil, rfl, rfl, rfl⟩

/-- A waiting step holds an arriving access that is no `STATUS` read (20_memory.md R68). -/
theorem State.waitStep_of_held {s : State} {a : Access} {rest : List Access} (hhost : s.host = a :: rest)
    (ha : a.isStatusRead = false) (w : Word) (k : Nat) :
    s.waitStep w k = { s with pending := some ⟨w, k⟩, host := rest, held := s.held ++ [a] } := by
  simp [State.waitStep, State.arriveBusy, hhost, ha]

/-- A write of `CTRL` with `SRST` 1 is a soft reset, whatever its other bits. -/
theorem State.access_write_srst (s : State) {data : Word} (h : bit 0 data = true) :
    s.access (.write 0x00004 4 data) = (.done, s.softReset) := by
  rw [show s.access (.write 0x00004 4 data) = (.done, s.writeReg 0x004 data) from rfl, State.writeReg, h]
  rfl

/-- A soft reset takes `IRQ` down: the flags and the enables of `Regs.reset` are 0. -/
@[simp] theorem State.softReset_irq (s : State) : s.softReset.irq = false :=
  show Regs.reset.irq = false from rfl

/-- A soft reset keeps the bytes of `CRAM`: its filter drops no entry of such an address. -/
theorem State.readByte_softReset_of_inCram (s : State) {a : Nat} (h : InCram a) :
    s.softReset.mem.readByte a = s.mem.readByte a :=
  Memory.readByte_filter_of_kept s.mem _ fun _ _ hx => hx ▸ (inCram_iff a).mpr h

/-- A soft reset makes every byte outside `CRAM` 0: its filter leaves no entry of such an address. -/
theorem State.readByte_softReset_of_not_inCram (s : State) {a : Nat} (h : ¬InCram a) :
    s.softReset.mem.readByte a = 0 :=
  Memory.readByte_eq_zero_of_unlisted fun x hx hxa => by
    have hkept : inCram x.1 = true := (List.mem_filter.mp hx).2
    exact h ((inCram_iff a).mp (hxa ▸ hkept))

/-- Settles O22: the write is held by a waiting step; completed, it is a soft reset, whose filter of the memory is
exactly `CRAM`. -/
theorem softResetKeepsOnlyCram : Obligations.SoftResetKeepsOnlyCram := by
  refine fun s data hsrst => ⟨fun w k rest hpending hhost => ?_, s.softReset, s.access_write_srst hsrst, rfl, rfl,
    s.softReset_irq, fun _ => s.readByte_softReset_of_inCram, fun _ => s.readByte_softReset_of_not_inCram⟩
  rw [step_of_waiting hpending, State.waitStep_of_held hhost rfl]

end Sys2Proof.Machine
end

section
/-! PROOFS. The encoding is a bijection between the well-formed commands and the words that decode (30_encoding.md R80 to R88): each
format packs its fields apart, and a word with its reserved bits 0 is the sum of its fields. -/

namespace Sys2Proof.Machine

/-! ### The channel bit -/

theorem chOf_val (w : Word) : (chOf w).val = field 25 25 w := by
  have hlt := field_lt 25 25 w
  rcases (show field 25 25 w = 0 ∨ field 25 25 w = 1 by omega) with h | h <;> simp [chOf, h]

theorem chOf_eq {w : Word} {c : Ch} (h : field 25 25 w = c.val) : chOf w = c := Fin.ext ((chOf_val w).trans h)

/-! ### The fields of a packed word -/

theorem opcode_code_lt (o : Opcode) : o.code < 64 := by cases o <;> decide

section
variable (o : Opcode) (c : Ch)

theorem chOf_packN : chOf (BitVec.ofNat 32 (packN o c.val)) = c := by
  have ho := opcode_code_lt o
  have hc := c.isLt
  refine chOf_eq ?_
  simp only [field, packN, BitVec.toNat_ofNat]
  omega

theorem fields_packB {fa fb fc : Nat} (ha : fa < 256) (hb : fb < 256) (hc : fc < 256) :
    chOf (BitVec.ofNat 32 (packB o c.val fa fb fc)) = c ∧
      field 23 16 (BitVec.ofNat 32 (packB o c.val fa fb fc)) = fa ∧
      field 15 8 (BitVec.ofNat 32 (packB o c.val fa fb fc)) = fb ∧
      field 7 0 (BitVec.ofNat 32 (packB o c.val fa fb fc)) = fc := by
  have ho := opcode_code_lt o
  have hch := c.isLt
  refine ⟨chOf_eq ?_, ?_, ?_, ?_⟩ <;> simp only [field, packB, packN, BitVec.toNat_ofNat] <;> omega

theorem fields_packE {j0 nj m0 nm : Nat} (hj0 : j0 < 64) (hnj : nj < 64) (hm0 : m0 < 64) (hnm : nm < 128) :
    chOf (BitVec.ofNat 32 (packE o c.val j0 nj m0 nm)) = c ∧
      field 24 19 (BitVec.ofNat 32 (packE o c.val j0 nj m0 nm)) = j0 ∧
      field 18 13 (BitVec.ofNat 32 (packE o c.val j0 nj m0 nm)) = nj ∧
      field 12 7 (BitVec.ofNat 32 (packE o c.val j0 nj m0 nm)) = m0 ∧
      field 6 0 (BitVec.ofNat 32 (packE o c.val j0 nj m0 nm)) = nm := by
  have ho := opcode_code_lt o
  have hch := c.isLt
  refine ⟨chOf_eq ?_, ?_, ?_, ?_, ?_⟩ <;> simp only [field, packE, packN, BitVec.toNat_ofNat] <;> omega

end

/-- The flag in bit 0 of a word whose lowest field holds it (30_encoding.md R87, `SPLICE_X`). -/
theorem bit_zero_of_field {w : Word} {r : Bool} (h : field 7 0 w = r.toNat) : bit 0 w = r := by
  have hbit : field 0 0 w = r.toNat := by
    have := r.toNat_le
    simp only [field] at h ⊢
    omega
  rw [bit, hbit]
  cases r <;> rfl

/-! ### Decoding a packed word -/

/-- The word of a well-formed command has its opcode, and no reserved bit is 1. -/
theorem encoding_statement (i : Instr) : Laws.Encoding.Statement i := by
  cases i with
  | nop => exact Laws.Encoding.nop
  | resetCh c mask => exact Laws.Encoding.resetCh c mask
  | shiftLow c => exact Laws.Encoding.shiftLow c
  | qmfAna c klim l0 nl => exact Laws.Encoding.qmfAna c klim l0 nl
  | spliceX c kx mb r => exact Laws.Encoding.spliceX c kx mb r
  | envMul c j0 nj m0 nm => exact Laws.Encoding.envMul c j0 nj m0 nm
  | envMac c j0 nj m0 nm => exact Laws.Encoding.envMac c j0 nj m0 nm
  | qmfSyn c l0 nl => exact Laws.Encoding.qmfSyn c l0 nl
  | savePrev c => exact Laws.Encoding.savePrev c
  | deqEnv c => exact Laws.Encoding.deqEnv c
  | deqNoise c => exact Laws.Encoding.deqNoise c
  | deqEnvCpl => exact Laws.Encoding.deqEnvCpl
  | deqNoiseCpl => exact Laws.Encoding.deqNoiseCpl

/-- The operands of the word of a well-formed command are those of the command. -/
theorem operands_encode {i : Instr} (h : i.wf = true) : operands i.opcode (encode i) = i := by
  cases i <;> simp only [Instr.wf, Bool.and_eq_true, decide_eq_true_eq] at h <;>
    simp only [Instr.opcode, operands, encode, chOf_packN]
  case resetCh c mask =>
    obtain ⟨hch, -, -, hmask⟩ := fields_packB .resetCh c (fa := 0) (fb := 0) (by decide) (by decide) h
    rw [hch, hmask]
  case qmfAna c klim l0 nl =>
    obtain ⟨⟨hklim, hl0⟩, hnl⟩ := h
    obtain ⟨hch, ha, hb, hc⟩ := fields_packB .qmfAna c hklim hl0 hnl
    rw [hch, ha, hb, hc]
  case spliceX c kx mb r =>
    have hr : r.toNat < 256 := by have := r.toNat_le; omega
    obtain ⟨hch, ha, hb, hc⟩ := fields_packB .spliceX c h.1 h.2 hr
    rw [hch, ha, hb, bit_zero_of_field hc]
  case envMul c j0 nj m0 nm =>
    obtain ⟨⟨⟨hj0, hnj⟩, hm0⟩, hnm⟩ := h
    obtain ⟨hch, ha, hb, hc, hd⟩ := fields_packE .envMul c hj0 hnj hm0 hnm
    rw [hch, ha, hb, hc, hd]
  case envMac c j0 nj m0 nm =>
    obtain ⟨⟨⟨hj0, hnj⟩, hm0⟩, hnm⟩ := h
    obtain ⟨hch, ha, hb, hc, hd⟩ := fields_packE .envMac c hj0 hnj hm0 hnm
    rw [hch, ha, hb, hc, hd]
  case qmfSyn c l0 nl =>
    obtain ⟨hch, -, hb, hc⟩ := fields_packB .qmfSyn c (fa := 0) (by decide) h.1 h.2
    rw [hch, hb, hc]

/-- Settles O2: the word has the command's opcode, no reserved bit set, and the command's operands in its fields. -/
theorem decodeAfterEncode : Obligations.DecodeAfterEncode := by
  intro i hwf
  obtain ⟨hop, hclear⟩ := encoding_statement i hwf
  rw [decode_of_code hop, if_pos hclear, operands_encode hwf]

/-! ### Encoding a decoded word -/

theorem wf_operands (o : Opcode) (w : Word) : (operands o w).wf = true := by
  have hlt (hi lo : Nat) := field_lt hi lo w
  cases o <;> simp only [operands, Instr.wf, Bool.and_eq_true, decide_eq_true_eq]
  case resetCh => exact hlt 7 0
  case qmfAna => exact ⟨⟨hlt 23 16, hlt 15 8⟩, hlt 7 0⟩
  case spliceX => exact ⟨hlt 23 16, hlt 15 8⟩
  case envMul => exact ⟨⟨⟨hlt 24 19, hlt 18 13⟩, hlt 12 7⟩, hlt 6 0⟩
  case envMac => exact ⟨⟨⟨hlt 24 19, hlt 18 13⟩, hlt 12 7⟩, hlt 6 0⟩
  case qmfSyn => exact ⟨hlt 15 8, hlt 7 0⟩

theorem ofNat_eq_of_toNat {w : Word} {n : Nat} (h : w.toNat = n) : BitVec.ofNat 32 n = w := by
  rw [← h, BitVec.ofNat_toNat, BitVec.setWidth_eq]

section
variable {w : Word} {o : Opcode} (hop : field 31 26 w = o.code)
include hop

/-- A word of format N without its low bits. -/
theorem toNat_eq_packN : w.toNat = packN o (chOf w).val + field 24 0 w := by
  have hlt := w.isLt
  rw [packN, chOf_val, ← hop]
  simp only [field]
  omega

theorem eq_packN (hlow : field 24 0 w = 0) : BitVec.ofNat 32 (packN o (chOf w).val) = w :=
  ofNat_eq_of_toNat (by rw [toNat_eq_packN hop, hlow, Nat.add_zero])

/-- The commands on no channel have the channel bit reserved. -/
theorem eq_packN_zero (hlow : field 25 0 w = 0) : BitVec.ofNat 32 (packN o 0) = w := by
  have hch : (chOf w).val = 0 := by rw [chOf_val]; simp only [field] at hlow ⊢; omega
  rw [← hch]
  exact eq_packN hop (by simp only [field] at hlow ⊢; omega)

theorem eq_packB (hbit : field 24 24 w = 0) :
    BitVec.ofNat 32 (packB o (chOf w).val (field 23 16 w) (field 15 8 w) (field 7 0 w)) = w := by
  refine ofNat_eq_of_toNat ?_
  rw [toNat_eq_packN hop, packB]
  simp only [field] at hbit ⊢
  omega

theorem eq_packE :
    BitVec.ofNat 32 (packE o (chOf w).val (field 24 19 w) (field 18 13 w) (field 12 7 w) (field 6 0 w)) = w := by
  refine ofNat_eq_of_toNat ?_
  rw [toNat_eq_packN hop, packE]
  simp only [field]
  omega

end

/-- With bits 7 to 1 clear the lowest byte is the flag in bit 0. -/
theorem field_eq_bit_zero {w : Word} (h : field 7 1 w = 0) : (bit 0 w).toNat = field 7 0 w := by
  have hfield : field 7 0 w = field 0 0 w := by simp only [field] at h ⊢; omega
  have hlt := field_lt 0 0 w
  rw [hfield, bit]
  rcases (show field 0 0 w = 0 ∨ field 0 0 w = 1 by omega) with h0 | h0 <;> rw [h0] <;> rfl

/-- A word whose reserved bits are 0 is the encoding of its opcode and operands. -/
theorem encode_operands {w : Word} {o : Opcode} (hop : field 31 26 w = o.code) (hclear : reservedClear o w = true) :
    encode (operands o w) = w := by
  cases o <;>
    simp only [reservedClear, reservedFields, List.all_cons, List.all_nil, Bool.and_true, Bool.and_eq_true,
      decide_eq_true_eq] at hclear
  case nop => exact eq_packN_zero hop hclear
  case resetCh =>
    obtain ⟨hbit, hfa, hfb⟩ := hclear
    have hword := eq_packB hop hbit
    rwa [hfa, hfb] at hword
  case shiftLow => exact eq_packN hop hclear
  case qmfAna => exact eq_packB hop hclear
  case spliceX =>
    have hword := eq_packB hop hclear.1
    rwa [← field_eq_bit_zero hclear.2] at hword
  case envMul => exact eq_packE hop
  case envMac => exact eq_packE hop
  case qmfSyn =>
    have hword := eq_packB hop hclear.1
    rwa [hclear.2] at hword
  case savePrev => exact eq_packN hop hclear
  case deqEnv => exact eq_packN hop hclear
  case deqNoise => exact eq_packN hop hclear
  case deqEnvCpl => exact eq_packN_zero hop hclear
  case deqNoiseCpl => exact eq_packN_zero hop hclear

/-- A word decodes when its opcode is one of the map and its reserved bits are 0, and then to its operands. -/
theorem decode_ok_iff {w : Word} {i : Instr} :
    decode w = .ok i ↔ ∃ o : Opcode, field 31 26 w = o.code ∧ reservedClear o w = true ∧ i = operands o w := by
  constructor
  · intro h
    have hlegal : LegalOp w := by
      by_contra hbad
      rw [(decode_illegalOp_iff w).mpr hbad] at h
      cases h
    obtain ⟨o, hcode⟩ := (legalOp_iff_exists_code w).mp hlegal
    rw [decode_of_code hcode.symm] at h
    split at h
    next hclear => exact ⟨o, hcode.symm, hclear, (Except.ok.inj h).symm⟩
    next => cases h
  · rintro ⟨o, hop, hclear, rfl⟩
    rw [decode_of_code hop, if_pos hclear]

/-- Settles O3: the operands of a word fit their fields, and with its reserved bits 0 no bit of the word is left out. -/
theorem encodeAfterDecode : Obligations.EncodeAfterDecode := by
  intro w i h
  obtain ⟨o, hop, hclear, rfl⟩ := decode_ok_iff.mp h
  exact ⟨wf_operands o w, encode_operands hop hclear⟩

/-! ### A step on a decoded word -/

/-- A table word of 32 bits is the word. -/
theorem tableWord_toNat (w : Word) : tableWord 32 w.toNat = w := by
  rw [tableWord, Nat.mod_eq_of_lt w.isLt, BitVec.ofNat_toNat, BitVec.setWidth_eq]

/-- Settles O6: the step decodes the pending word, and the word of a well-formed command decodes to the command. -/
theorem stepRunsDecodedCommand : Obligations.StepRunsDecodedCommand := by
  constructor
  · intro s w i hp hd
    rw [step_of_ready hp, runWord_of_ok hd]
  · intro s i hwf
    rw [State.withFetchWord, tableWord_toNat, step_of_ready (s.issue_pending _ 0),
      runWord_of_ok (decodeAfterEncode i hwf)]
    rfl

end Sys2Proof.Machine
end

section
/-! PROOFS. The step as a whole and the order of the host's accesses (20_memory.md R68, R70; 70_reset_and_hazards.md R212): every
step answers a next state, and moves at most one access from one queue to the next. -/

namespace Sys2Proof.Machine

/-! ### The ends of a command -/

/-- The state in which a command can end. -/
def State.EndsCommand (s t : State) : Prop := (∃ e, t = s.endErr e) ∨ ∃ m, t = s.endOk m

theorem step_of_ready_ends {s : State} {w : Word} (hp : s.pending = some ⟨w, 0⟩) :
    ∃ t, step s = .next t ∧ s.EndsCommand t := by
  cases he : wordError w s.regs with
  | none =>
    obtain ⟨m, hstep⟩ := step_of_no_wordError hp he
    exact ⟨_, hstep, .inr ⟨m, rfl⟩⟩
  | some e => exact ⟨_, step_of_wordError hp he, .inl ⟨e, rfl⟩⟩

theorem State.EndsCommand.pending {s t : State} (h : s.EndsCommand t) : t.pending = none := by
  obtain ⟨e, rfl⟩ | ⟨m, rfl⟩ := h <;> rfl

/-- A command's end leaves the accesses in flight. -/
theorem State.EndsCommand.queues {s t : State} (h : s.EndsCommand t) :
    t.held = s.held ∧ t.host = s.host ∧ t.resp = s.resp := by
  obtain ⟨e, rfl⟩ | ⟨m, rfl⟩ := h <;> exact ⟨rfl, rfl, rfl⟩

/-- All a step can do: end the pending command, let it wait, or move an access with no command pending. -/
theorem step_cases (s : State) :
    ∃ t, step s = .next t ∧
      ((∃ w, s.pending = some ⟨w, 0⟩ ∧ s.EndsCommand t) ∨
        (∃ w k, s.pending = some ⟨w, k + 1⟩ ∧ t = s.waitStep w k) ∨ (s.pending = none ∧ t = s.idleStep)) := by
  rcases hp : s.pending with _ | ⟨w, _ | k⟩
  · exact ⟨_, step_of_idle hp, .inr (.inr ⟨rfl, rfl⟩)⟩
  · obtain ⟨t, hstep, hends⟩ := step_of_ready_ends hp
    exact ⟨t, hstep, .inl ⟨w, rfl, hends⟩⟩
  · exact ⟨_, step_of_waiting hp, .inr (.inl ⟨w, k, rfl, rfl⟩)⟩

/-- Settles O9: each of the three kinds of step answers a next state. -/
theorem everyStepAnswersNext : Obligations.EveryStepAnswersNext := fun s =>
  let ⟨t, hstep, _⟩ := step_cases s
  ⟨t, hstep⟩

/-! ### `STATUS` reads -/

theorem Access.isStatusRead_iff (a : Access) : a.isStatusRead = true ↔ a = .read 0x00008 4 := by
  cases a with
  | read addr size =>
    have haddr : addr.toNat = 0x008 ↔ addr = 0x00008 := BitVec.toNat_inj (y := 0x00008)
    simp [Access.isStatusRead, haddr]
  | write addr size data => simp [Access.isStatusRead]

theorem State.access_read_status (s : State) : s.access (.read 0x00008 4) = (.data s.regs.status, s) := rfl

/-- Settles O15: the access that arrives while the command waits is a `STATUS` read, which completes, or is held. -/
theorem busyStepHoldsAllButStatusReads : Obligations.BusyStepHoldsAllButStatusReads := by
  refine fun s w k a rest hp hhost => ⟨fun ha => ?_, fun ha => ?_⟩
  · subst ha
    rw [step_of_waiting hp, State.waitStep, hhost]
    rfl
  · have hnot : a.isStatusRead = false := by rwa [← Bool.not_eq_true, Access.isStatusRead_iff]
    rw [step_of_waiting hp, State.waitStep_of_held hhost hnot]

/-! ### The oldest access with no command pending -/

/-- What an access does to registers, memory and pending command does not depend on the accesses in flight. -/
theorem State.access_withQueues (s : State) (held host : List Access) (a : Access) :
    (State.access { s with held := held, host := host } a).1 = (s.access a).1 ∧
      (State.access { s with held := held, host := host } a).2 =
        { (s.access a).2 with held := held, host := host } := by
  cases a with
  | read addr size =>
    simp only [State.access]
    split <;> exact ⟨rfl, rfl⟩
  | write addr size data =>
    simp only [State.access]
    split
    · refine ⟨rfl, ?_⟩
      dsimp only
      split
      · unfold State.writeReg
        split
        case h_1 => split <;> rfl
        all_goals rfl
      · rfl
    · exact ⟨rfl, rfl⟩

/-- An access taken out of its queue completes with the answer and the effect it has in the state before. -/
theorem State.complete_withQueues (s : State) (held host : List Access) (a : Access) :
    State.complete { s with held := held, host := host } a =
      { (s.access a).2 with held := held, host := host, resp := s.resp ++ [(a, (s.access a).1)] } := by
  obtain ⟨hanswer, hstate⟩ := s.access_withQueues held host a
  obtain ⟨-, -, hresp⟩ := s.access_queues a
  rw [State.complete, hanswer, hstate]
  simp only [hresp]

/-- Settles O16: the queue of held accesses comes first, then the host's. -/
theorem idleStepCompletesOldestAccess : Obligations.IdleStepCompletesOldestAccess := by
  refine fun s hp => ⟨fun a rest hheld => ?_, fun a rest hheld hhost => ?_, fun hheld hhost => ?_⟩
  · have hidle : s.idleStep = State.complete { s with held := rest } a := by rw [State.idleStep, hheld]
    exact ⟨_, (step_of_idle hp).trans (congrArg _ (hidle.trans (s.complete_withQueues rest s.host a))),
      rfl, rfl, rfl, rfl, rfl, rfl⟩
  · have hidle : s.idleStep = State.complete { s with host := rest } a := by rw [State.idleStep, hheld, hhost]
    exact ⟨_, (step_of_idle hp).trans (congrArg _ (hidle.trans (s.complete_withQueues s.held rest a))),
      hheld, rfl, rfl, rfl, rfl, rfl⟩
  · rw [step_of_idle hp, State.idleStep, hheld, hhost]

/-! ### The accesses in order -/

/-- The accesses completed, held and still to arrive, in that order. -/
def State.accesses (s : State) : List Access := s.resp.map Prod.fst ++ s.held ++ s.host

/-- One step of the queues: the accesses stay in order, or the next one to arrive is a `STATUS` read and overtakes those held. -/
def State.MovesOneAccess (s t : State) : Prop :=
  t.accesses = s.accesses ∨
    ∃ done held rest : List Access, s.accesses = done ++ held ++ .read 0x00008 4 :: rest ∧
      t.accesses = done ++ .read 0x00008 4 :: held ++ rest

theorem State.accesses_endsCommand {s t : State} (h : s.EndsCommand t) : t.accesses = s.accesses := by
  obtain ⟨hheld, hhost, hresp⟩ := h.queues
  rw [State.accesses, State.accesses, hheld, hhost, hresp]

theorem State.accesses_waitStep (s : State) (w : Word) (k : Nat) : s.MovesOneAccess (s.waitStep w k) := by
  obtain ⟨-, h⟩ | ⟨a, rest, hhost, ha, h⟩ | ⟨a, rest, hhost, -, h⟩ := s.waitStep_cases w k
  · exact .inl (by rw [h]; rfl)
  · rw [Access.isStatusRead_iff] at ha
    subst ha
    refine .inr ⟨s.resp.map Prod.fst, s.held, rest, by rw [State.accesses, hhost], ?_⟩
    simp [h, State.accesses]
  · exact .inl (by simp [h, State.accesses, hhost])

theorem State.accesses_idleStep (s : State) : s.idleStep.accesses = s.accesses := by
  obtain ⟨a, rest, hheld, h⟩ | ⟨hheld, a, rest, hhost, h⟩ | ⟨-, -, h⟩ := s.idleStep_cases
  · simp [h, State.accesses, hheld]
  · simp [h, State.accesses, hheld, hhost]
  · rw [h]

theorem movesOneAccess_of_step {s t : State} (h : step s = .next t) : s.MovesOneAccess t := by
  obtain ⟨u, hstep, hcases⟩ := step_cases s
  obtain rfl : u = t := Host.Outcome.next.inj (hstep.symm.trans h)
  obtain ⟨w, -, hends⟩ | ⟨w, k, -, rfl⟩ | ⟨-, rfl⟩ := hcases
  · exact .inl (State.accesses_endsCommand hends)
  · exact s.accesses_waitStep w k
  · exact .inl s.accesses_idleStep

/-- Settles O14: only a `STATUS` read can overtake other accesses. -/
theorem accessesKeepIssueOrder : Obligations.AccessesKeepIssueOrder := by
  intro s t h
  change t.accesses.filter _ = s.accesses.filter _
  obtain heq | ⟨done, held, rest, hs, ht⟩ := movesOneAccess_of_step h
  · rw [heq]
  · simp [hs, ht]

/-! ### Every access completes -/

/-- The accesses that have not completed. -/
def State.waiting (s : State) : Nat := s.held.length + s.host.length

/-- The steps before the pending command is over. -/
def State.pendingSteps (s : State) : Nat := s.pending.elim 0 fun p => p.wait + 1

theorem State.length_accesses (s : State) : s.accesses.length = s.resp.length + s.waiting := by
  simp [State.accesses, State.waiting]

/-- No step loses an access. -/
theorem State.MovesOneAccess.length_eq {s t : State} (h : s.MovesOneAccess t) :
    t.resp.length + t.waiting = s.resp.length + s.waiting := by
  rw [← State.length_accesses, ← State.length_accesses]
  obtain heq | ⟨done, held, rest, hs, ht⟩ := h
  · rw [heq]
  · rw [hs, ht]
    simp only [List.length_append, List.length_cons]
    omega

theorem State.waitStep_progress (s : State) (w : Word) (k : Nat) :
    (s.waitStep w k).waiting < s.waiting ∨
      (s.waitStep w k).waiting = s.waiting ∧ (s.waitStep w k).pendingSteps = k + 1 := by
  obtain ⟨-, h⟩ | ⟨a, rest, hhost, -, h⟩ | ⟨a, rest, hhost, -, h⟩ := s.waitStep_cases w k <;> rw [h]
  · exact .inr ⟨rfl, rfl⟩
  · exact .inl (by simp [State.waiting, hhost])
  · refine .inr ⟨?_, rfl⟩
    simp only [State.waiting, hhost, List.length_append, List.length_cons, List.length_nil]
    omega

theorem State.idleStep_progress (s : State) :
    s.idleStep.waiting < s.waiting ∨ s.held = [] ∧ s.host = [] := by
  obtain ⟨a, rest, hheld, h⟩ | ⟨hheld, a, rest, hhost, h⟩ | ⟨hheld, hhost, -⟩ := s.idleStep_cases
  · exact .inl (by simp [h, State.waiting, hheld])
  · exact .inl (by simp [h, State.waiting, hheld, hhost])
  · exact .inr ⟨hheld, hhost⟩

/-- Until nothing is pending or in flight, a step completes an access or brings the pending command nearer to its end. -/
theorem step_progress (s : State) :
    (s.pending = none ∧ s.held = [] ∧ s.host = []) ∨
      ∃ t, step s = .next t ∧
        (t.waiting < s.waiting ∨ t.waiting = s.waiting ∧ t.pendingSteps < s.pendingSteps) := by
  obtain ⟨t, hstep, ⟨w, hp, hends⟩ | ⟨w, k, hp, rfl⟩ | ⟨hp, rfl⟩⟩ := step_cases s
  · refine .inr ⟨t, hstep, .inr ?_⟩
    obtain ⟨hheld, hhost, -⟩ := hends.queues
    exact ⟨by rw [State.waiting, State.waiting, hheld, hhost],
      by simp [State.pendingSteps, hends.pending, hp]⟩
  · refine .inr ⟨_, hstep, (s.waitStep_progress w k).imp_right fun ⟨hwaiting, hsteps⟩ => ⟨hwaiting, ?_⟩⟩
    rw [hsteps, State.pendingSteps, hp]
    exact Nat.lt_succ_self _
  · obtain hless | ⟨hheld, hhost⟩ := s.idleStep_progress
    · exact .inr ⟨_, hstep, .inl hless⟩
    · exact .inl ⟨hp, hheld, hhost⟩

theorem run_succ_of_step {s t : State} (h : step s = .next t) (n : Nat) :
    Host.Core.run Sys2Proof.core (n + 1) s = Host.Core.run Sys2Proof.core n t := by
  have hcore : Sys2Proof.core.step s = .next t := h
  simp only [Host.Core.run, hcore]

/-- The accesses left, and with as many of them the wait of the pending command, grow less with every step. -/
theorem exists_run_to_rest (s : State) :
    ∃ (n : Nat) (t : State), Host.Core.run Sys2Proof.core n s = .next t ∧ t.pending = none ∧ t.held = [] ∧ t.host = [] ∧
      t.resp.length = s.resp.length + s.held.length + s.host.length := by
  obtain ⟨hp, hheld, hhost⟩ | ⟨t, hstep, hless⟩ := step_progress s
  · exact ⟨0, s, rfl, hp, hheld, hhost, by simp [hheld, hhost]⟩
  · obtain ⟨n, u, hrun, hp, hheld, hhost, hresp⟩ := exists_run_to_rest t
    refine ⟨n + 1, u, (run_succ_of_step hstep n).trans hrun, hp, hheld, hhost, ?_⟩
    have hlen := (movesOneAccess_of_step hstep).length_eq
    simp only [State.waiting] at hlen
    omega
termination_by (s.waiting, s.pendingSteps)
decreasing_by
  obtain hwaiting | ⟨hwaiting, hsteps⟩ := hless
  · exact Prod.Lex.left _ _ hwaiting
  · rw [hwaiting]
    exact Prod.Lex.right _ hsteps

/-- Settles O13: the machine comes to rest, and no step on the way loses an access. -/
theorem everyIssuedAccessCompletes : Obligations.EveryIssuedAccessCompletes := exists_run_to_rest

end Sys2Proof.Machine
end

section
/-! PROOFS. Host accesses that complete: what a write to each register stores and a read of it returns (10_state.md section 2), and a
write of a RAM word (20_memory.md R66). -/

namespace Sys2Proof.Machine

/-- Settles O19: register by register, the mask of a write is that of the register's reserved bits. -/
theorem registerWritesStoreTheirFields : Obligations.RegisterWritesStoreTheirFields := fun s _ =>
  ⟨rfl, s.access_write_ctrl, rfl, rfl, rfl, rfl, rfl, rfl, rfl, rfl, rfl, rfl, rfl, rfl,
    rfl, rfl, s.access_read_status, s.access_read_cmd, rfl, rfl, rfl, rfl, rfl, rfl, rfl, rfl, rfl, rfl, rfl, rfl⟩

/-! ### The write of `STATUS` -/

/-- `ERRCODE` after a host write of `STATUS`: it is cleared with `ERR` (10_state.md R29). -/
theorem statusAfterWrite_errCode (data st : Word) :
    field 11 8 (statusAfterWrite data st) = if bit 2 data then 0 else field 11 8 st := by
  have keptByDone : field 11 8 (if bit 1 data then st &&& ~~~doneMask else st) = field 11 8 st := by
    split
    · exact field_and_of_ones rfl st
    · rfl
  rw [statusAfterWrite]
  split
  · rw [field_and, show field 11 8 (~~~(errMask ||| errCodeMask)) = 0 from rfl, Nat.and_zero]
  · exact keptByDone

/-- Every bit of `STATUS` but `DONE`, `ERR` and `ERRCODE` ignores a host write (10_state.md R29). -/
theorem statusAfterWrite_bit_of_kept (data st : Word) {i : Nat} (hi : i < 32) (hdone : i ≠ 1) (herr : i ≠ 2)
    (hcode : ¬(8 ≤ i ∧ i ≤ 11)) : bit i (statusAfterWrite data st) = bit i st := by
  have masks : ∀ i < 32, i ≠ 1 → i ≠ 2 → ¬(8 ≤ i ∧ i ≤ 11) →
      bit i (~~~doneMask) = true ∧ bit i (~~~(errMask ||| errCodeMask)) = true := by decide
  obtain ⟨hdoneMask, herrMask⟩ := masks i hi hdone herr hcode
  rw [statusAfterWrite]
  cases bit 1 data <;> cases bit 2 data <;> simp [hdoneMask, herrMask]

/-- Settles O20: the new `STATUS` is determined bit by bit. -/
theorem statusWriteClearsItsBits : Obligations.StatusWriteClearsItsBits := by
  intro s data
  obtain ⟨hdone, herr⟩ := statusAfterWrite_flags data s.regs.status
  exact ⟨_, s.access_write_status data, hdone, herr, statusAfterWrite_errCode data _,
    fun i => statusAfterWrite_bit_of_kept data _⟩

/-! ### The write of a RAM word -/

theorem getD_wordBytes (w : Word) {i : Nat} (hi : i < 4) : (wordBytes w).getD i 0 = byteOf i w := by
  rcases (show i = 0 ∨ i = 1 ∨ i = 2 ∨ i = 3 by omega) with rfl | rfl | rfl | rfl <;> rfl

/-- Byte `i` of a stored word (20_memory.md R66). -/
theorem Memory.readByte_writeWord (m : Memory) (a : Nat) (w : Word) {i : Nat} (hi : i < 4) :
    (m.writeWords a [w]).readByte (a + i) = byteOf i w := by
  rw [Memory.writeWords, List.flatMap_singleton, Memory.readByte_writeBytes, wordBytes_length,
    if_pos ⟨Nat.le_add_right a i, Nat.add_lt_add_left hi a⟩, Nat.add_sub_cancel_left, getD_wordBytes w hi]

theorem Memory.readWord_writeWord (m : Memory) (a : Nat) (w : Word) : (m.writeWords a [w]).readWord a = w :=
  m.readWord_writeWords a [w] Nat.one_pos

theorem State.access_write_ram (s : State) {addr : BitVec 20} (hlegal : accessLegal addr.toNat 4 = true)
    (hram : ¬addr.toNat < regEnd) (data : Word) :
    s.access (.write addr 4 data) = (.done, { s with mem := s.mem.writeWords addr.toNat [data] }) := by
  rw [s.access_write_of_legal data hlegal, if_neg hram]

theorem State.access_read_ram (s : State) {addr : BitVec 20} (hlegal : accessLegal addr.toNat 4 = true)
    (hram : ¬addr.toNat < regEnd) : s.access (.read addr 4) = (.data (s.mem.readWord addr.toNat), s) := by
  rw [s.access_read_of_legal hlegal, if_neg hram]

/-- Settles O23: the access stores one word, and the word is read where it was stored. -/
theorem ramWriteStoresOneWord : Obligations.RamWriteStoresOneWord := by
  intro s addr data halign hlo hexists
  have hlegal : accessLegal addr.toNat 4 = true := (accessLegal_iff _ _).mpr ⟨rfl, halign, hexists⟩
  have hram : ¬addr.toNat < regEnd := not_lt.mpr hlo
  refine ⟨_, s.access_write_ram hlegal hram data, fun i hi => s.mem.readByte_writeWord _ data hi,
    fun a ha => Memory.readByte_writeWords_outside ha, rfl, rfl, rfl, rfl, rfl, ?_⟩
  rw [State.access_read_ram _ hlegal hram, Memory.readWord_writeWord]

end Sys2Proof.Machine
end

section
/-! PROOFS. The arithmetic of 00_scope.md R10 to R12: an operation is decided by what its operands unpack to, a NaN, an infinity or a
finite value, and on finite values it is the exact result rounded once. -/

namespace Sys2Proof.Machine

/-! ### What a word unpacks to -/

theorem isNan32_or_isInf32_or_isFinite32 (w : Word) : IsNan32 w ∨ IsInf32 w ∨ IsFinite32 w := by
  unfold IsNan32 IsInf32 IsFinite32
  tauto

theorem unpack_of_isNan32 {w : Word} (h : IsNan32 w) : unpack w = .nan := by
  simp [unpack, h.1, h.2]

theorem unpack_of_isInf32 {w : Word} (h : IsInf32 w) : unpack w = .inf (bit 31 w) := by
  simp [unpack, h.1, h.2]

theorem infF_of_isInf32 {w : Word} (h : IsInf32 w) : infF (bit 31 w) = w := by
  conv_rhs => rw [eq_signedWord w, h.1, h.2]
  rfl

theorem not_isNan32_of_isInf32 {w : Word} (h : IsInf32 w) : ¬IsNan32 w := fun hnan => hnan.2 h.2

theorem isInf32_xor_sign {w : Word} (h : IsInf32 w) : IsInf32 (w ^^^ 0x80000000) := by
  rwa [IsInf32, field_exponent_xor_sign, field_fraction_xor_sign]

/-- A finite word is a zero exactly when its significand is 0. -/
theorem value32_eq_zero_iff (w : Word) : value32 w = 0 ↔ significand w = 0 := by
  have hcast : (value32 w : ℝ) = 0 ↔ significand w = 0 := by
    rw [value32_cast]
    have hunit : (2 : ℝ) ^ unitExponent w ≠ 0 := by positivity
    cases bit 31 w <;> simp [hunit]
  rw [← hcast, Rat.cast_eq_zero]

theorem zeroF_of_significand {w : Word} (h : significand w = 0) : zeroF (bit 31 w) = w := by
  have hfields : field 30 23 w = 0 ∧ field 22 0 w = 0 := by
    unfold significand at h
    split at h
    next hexp => exact ⟨hexp, h⟩
    next => omega
  conv_rhs => rw [eq_signedWord w, hfields.1, hfields.2]
  rfl

/-! ### NaN results -/

/-- The word is no NaN but the canonical one (00_scope.md R12). -/
def CanonicalIfNan (w : Word) : Prop := IsNan32 w → w = qnan

theorem canonicalIfNan_qnan : CanonicalIfNan qnan := fun _ => rfl

theorem canonicalIfNan_rne32 (neg : Bool) (m : Nat) (e : Int) (sticky : Bool) : CanonicalIfNan (rne32 neg m e sticky) :=
  fun h => absurd h (not_isNan32_rne32 neg m e sticky)

theorem canonicalIfNan_infF (neg : Bool) : CanonicalIfNan (infF neg) := fun h => by
  rw [IsNan32] at h
  cases neg <;> exact absurd h (by decide)

theorem canonicalIfNan_zeroF (neg : Bool) : CanonicalIfNan (zeroF neg) := fun h => by
  rw [zeroF_eq_packMagnitude] at h
  exact absurd h (not_isNan32_packMagnitude neg 0 (-149))

theorem canonicalIfNan_ite {p : Prop} [Decidable p] {v w : Word} (hv : CanonicalIfNan v) (hw : CanonicalIfNan w) :
    CanonicalIfNan (if p then v else w) := by split <;> assumption

theorem canonicalIfNan_add32 (a b : Word) : CanonicalIfNan (add32 a b) := by
  unfold add32
  split
  · exact canonicalIfNan_qnan
  · exact canonicalIfNan_qnan
  · exact canonicalIfNan_ite (canonicalIfNan_infF _) canonicalIfNan_qnan
  · exact canonicalIfNan_infF _
  · exact canonicalIfNan_infF _
  · exact canonicalIfNan_ite (canonicalIfNan_zeroF _) (canonicalIfNan_rne32 _ _ _ _)

theorem canonicalIfNan_mul32 (a b : Word) : CanonicalIfNan (mul32 a b) := by
  unfold mul32
  split
  · exact canonicalIfNan_qnan
  · exact canonicalIfNan_qnan
  · exact canonicalIfNan_infF _
  · exact canonicalIfNan_ite canonicalIfNan_qnan (canonicalIfNan_infF _)
  · exact canonicalIfNan_ite canonicalIfNan_qnan (canonicalIfNan_infF _)
  · exact canonicalIfNan_rne32 _ _ _ _

theorem canonicalIfNan_div32 (a b : Word) : CanonicalIfNan (div32 a b) := by
  unfold div32
  split
  · exact canonicalIfNan_qnan
  · exact canonicalIfNan_qnan
  · exact canonicalIfNan_qnan
  · exact canonicalIfNan_infF _
  · exact canonicalIfNan_zeroF _
  · exact canonicalIfNan_ite (canonicalIfNan_ite canonicalIfNan_qnan (canonicalIfNan_infF _)) (canonicalIfNan_rne32 _ _ _ _)

/-- The operation gives the canonical NaN for a NaN operand. -/
def NanStrict (op : Word → Word → Word) : Prop := ∀ a b, IsNan32 a ∨ IsNan32 b → op a b = qnan

theorem nanStrict_add32 : NanStrict add32 := by
  rintro a b (h | h) <;> rw [add32, unpack_of_isNan32 h]
  cases unpack a <;> rfl

theorem nanStrict_mul32 : NanStrict mul32 := by
  rintro a b (h | h) <;> rw [mul32, unpack_of_isNan32 h]
  cases unpack a <;> rfl

theorem nanStrict_div32 : NanStrict div32 := by
  rintro a b (h | h) <;> rw [div32, unpack_of_isNan32 h]
  cases unpack a <;> rfl

theorem neg32_of_isNan32 {a : Word} (h : IsNan32 a) : neg32 a = qnan := by rw [neg32, unpack_of_isNan32 h]

theorem neg32_of_not_isNan32 {a : Word} (h : ¬IsNan32 a) : neg32 a = a ^^^ 0x80000000 := by
  obtain hnan | hinf | hfin := isNan32_or_isInf32_or_isFinite32 a
  · exact absurd hnan h
  · rw [neg32, unpack_of_isInf32 hinf]
  · exact neg32_of_isFinite32 hfin

theorem canonicalIfNan_neg32 (a : Word) : CanonicalIfNan (neg32 a) := by
  by_cases h : IsNan32 a
  · exact fun _ => neg32_of_isNan32 h
  · refine fun hnan => absurd ?_ h
    rwa [neg32_of_not_isNan32 h, IsNan32, field_exponent_xor_sign, field_fraction_xor_sign] at hnan

/-- `sub32` passes a NaN on to the sum. -/
theorem nanStrict_sub32 : NanStrict sub32 := by
  rintro a b (h | h)
  · exact nanStrict_add32 _ _ (.inl h)
  · refine nanStrict_add32 _ _ (.inr ?_)
    rw [neg32_of_isNan32 h]
    exact ⟨rfl, by decide⟩

/-- Settles O50: a NaN operand is met first, and no other outcome is a NaN but the canonical one. -/
theorem nanResultsAreCanonical : Obligations.NanResultsAreCanonical := by
  refine ⟨fun a => neg32_of_isNan32, canonicalIfNan_neg32, fun op hop a b => ?_⟩
  simp only [List.mem_cons, List.not_mem_nil, or_false] at hop
  rcases hop with rfl | rfl | rfl | rfl
  · exact ⟨nanStrict_add32 a b, canonicalIfNan_add32 a b⟩
  · exact ⟨nanStrict_sub32 a b, canonicalIfNan_add32 a _⟩
  · exact ⟨nanStrict_mul32 a b, canonicalIfNan_mul32 a b⟩
  · exact ⟨nanStrict_div32 a b, canonicalIfNan_div32 a b⟩

/-! ### Infinities and zero divisors -/

theorem infF_xor (s t : Bool) : infF (s ^^ t) = if s = t then 0x7F800000 else 0xFF800000 := by
  cases s <;> cases t <;> rfl

theorem zeroF_xor (s t : Bool) : zeroF (s ^^ t) = if s = t then 0x00000000 else 0x80000000 := by
  cases s <;> cases t <;> rfl

section
variable {a b : Word}

theorem add32_of_isInf32 (ha : IsInf32 a) (hb : IsInf32 b) :
    add32 a b = if bit 31 a = bit 31 b then infF (bit 31 a) else qnan := by
  rw [add32, unpack_of_isInf32 ha, unpack_of_isInf32 hb]

theorem add32_inf_fin (ha : IsInf32 a) (hb : IsFinite32 b) : add32 a b = a ∧ add32 b a = a := by
  rw [add32, add32, unpack_of_isInf32 ha, unpack_of_isFinite32 hb]
  exact ⟨infF_of_isInf32 ha, infF_of_isInf32 ha⟩

theorem div32_of_isInf32 (ha : IsInf32 a) (hb : IsInf32 b) : div32 a b = qnan := by
  rw [div32, unpack_of_isInf32 ha, unpack_of_isInf32 hb]

theorem mul32_of_isInf32 (ha : IsInf32 a) (hb : IsInf32 b) : mul32 a b = infF (bit 31 a ^^ bit 31 b) := by
  rw [mul32, unpack_of_isInf32 ha, unpack_of_isInf32 hb]

theorem mul32_inf_fin (ha : IsInf32 a) (hb : IsFinite32 b) :
    mul32 a b = (if significand b = 0 then qnan else infF (bit 31 a ^^ bit 31 b)) ∧
      mul32 b a = if significand b = 0 then qnan else infF (bit 31 b ^^ bit 31 a) := by
  rw [mul32, mul32, unpack_of_isInf32 ha, unpack_of_isFinite32 hb]
  exact ⟨rfl, rfl⟩

/-- A product with an infinity, the other operand being no NaN and no zero, is an infinity. -/
theorem mul32_inf (ha : IsInf32 a) (hb : ¬IsNan32 b) (hzero : IsFinite32 b → value32 b ≠ 0) :
    mul32 a b = infF (bit 31 a ^^ bit 31 b) ∧ mul32 b a = infF (bit 31 b ^^ bit 31 a) := by
  obtain hnan | hinf | hfin := isNan32_or_isInf32_or_isFinite32 b
  · exact absurd hnan hb
  · exact ⟨mul32_of_isInf32 ha hinf, mul32_of_isInf32 hinf ha⟩
  · have hsig : significand b ≠ 0 := fun h => hzero hfin ((value32_eq_zero_iff b).mpr h)
    obtain ⟨hab, hba⟩ := mul32_inf_fin ha hfin
    rw [if_neg hsig] at hab hba
    exact ⟨hab, hba⟩

theorem div32_inf_fin (ha : IsInf32 a) (hb : IsFinite32 b) : div32 a b = infF (bit 31 a ^^ bit 31 b) := by
  rw [div32, unpack_of_isInf32 ha, unpack_of_isFinite32 hb]

theorem div32_fin_inf (ha : IsFinite32 a) (hb : IsInf32 b) : div32 a b = zeroF (bit 31 a ^^ bit 31 b) := by
  rw [div32, unpack_of_isFinite32 ha, unpack_of_isInf32 hb]

theorem div32_of_isFinite32 (ha : IsFinite32 a) (hb : IsFinite32 b) :
    div32 a b =
      if significand b = 0 then (if significand a = 0 then qnan else infF (bit 31 a ^^ bit 31 b))
      else divFin (bit 31 a ^^ bit 31 b) (significand a) (unitExponent a) (significand b) (unitExponent b) := by
  rw [div32, unpack_of_isFinite32 ha, unpack_of_isFinite32 hb]

/-- The difference of an infinity with itself is the sum of two opposite ones. -/
theorem sub32_self_of_isInf32 (ha : IsInf32 a) : sub32 a a = qnan := by
  rw [sub32, neg32_of_not_isNan32 (not_isNan32_of_isInf32 ha), add32_of_isInf32 ha (isInf32_xor_sign ha),
    bit_sign_xor_sign, if_neg (by simp)]

end

/-- Settles O51: each case is an arm of the operation, chosen by what the two operands unpack to. -/
theorem specialValuesOfArithmetic : Obligations.SpecialValuesOfArithmetic := by
  refine ⟨fun a => neg32_of_not_isNan32, fun a b => ⟨add32_inf_fin, fun ha => ?_, fun ha hb hne => ?_, div32_of_isInf32,
    fun ha hb hzero => ?_, fun ha hb hzero => ?_, fun ha hb => ?_, fun ha hb => ?_, fun ha hb hne hzero => ?_,
    fun ha hb hzero hzero' => ?_⟩⟩
  · exact ⟨by rw [add32_of_isInf32 ha ha, if_pos rfl, infF_of_isInf32 ha], sub32_self_of_isInf32 ha, div32_of_isInf32 ha ha⟩
  · rw [add32_of_isInf32 ha hb, if_neg, qnan]
    intro hsign
    exact hne (by rw [← infF_of_isInf32 ha, hsign, infF_of_isInf32 hb])
  · obtain ⟨hab, hba⟩ := mul32_inf_fin ha hb
    rw [if_pos ((value32_eq_zero_iff b).mp hzero)] at hab hba
    exact ⟨hab, hba⟩
  · obtain ⟨hab, hba⟩ := mul32_inf ha hb hzero
    exact ⟨by rw [hab, infF_xor], by rw [hab, hba, Bool.xor_comm]⟩
  · rw [div32_inf_fin ha hb, infF_xor]
  · rw [div32_fin_inf ha hb, zeroF_xor]
  · rw [div32_of_isFinite32 ha hb, if_pos ((value32_eq_zero_iff b).mp hzero),
      if_neg ((value32_eq_zero_iff a).not.mp hne), infF_xor]
  · rw [div32_of_isFinite32 ha hb, if_pos ((value32_eq_zero_iff b).mp hzero'),
      if_pos ((value32_eq_zero_iff a).mp hzero), qnan]

/-! ### Products -/

theorem signFactor_xor (s t : Bool) : signFactor (s ^^ t) = signFactor s * signFactor t := by
  cases s <;> cases t <;> simp

theorem signFactor_xor_div (s t : Bool) : signFactor (s ^^ t) = signFactor s / signFactor t := by
  cases s <;> cases t <;> simp

theorem signFactor_ne_zero (s : Bool) : signFactor s ≠ 0 := by cases s <;> simp

theorem mul32_of_isFinite32 {a b : Word} (ha : IsFinite32 a) (hb : IsFinite32 b) :
    mul32 a b = rne32 (bit 31 a ^^ bit 31 b) (significand a * significand b) (unitExponent a + unitExponent b) false := by
  rw [mul32, unpack_of_isFinite32 ha, unpack_of_isFinite32 hb]

/-- Settles O53: the product of the significands in the product of the units is exact, and `rne32` rounds it. -/
theorem mulIsCorrectlyRounded : Obligations.MulIsCorrectlyRounded := by
  intro a b ha hb
  rw [mul32_of_isFinite32 ha hb]
  refine ⟨?_, bit_sign_rne32 ..⟩
  have hexact : Truncates (significand a * significand b) false (significand a * significand b : ℕ) := truncates_false.mpr rfl
  convert hexact.isRne32_rne32 (bit 31 a ^^ bit 31 b) (unitExponent a + unitExponent b) (by simp) using 1
  rw [value32_cast, value32_cast, signFactor_xor, zpow_add₀ two_ne_zero]
  push_cast
  ring

/-! ### Quotients -/

/-- An integer quotient with its remainder stands for the exact quotient. -/
theorem truncates_div (N : ℕ) {n : ℕ} (hn : n ≠ 0) : Truncates (N / n) (decide (N % n ≠ 0)) ((N : ℝ) / n) := by
  have hpos : (0 : ℝ) < n := by exact_mod_cast Nat.pos_of_ne_zero hn
  have hsplit : (N : ℝ) = n * (N / n : ℕ) + (N % n : ℕ) := by exact_mod_cast (Nat.div_add_mod N n).symm
  have hlt : ((N % n : ℕ) : ℝ) < n := by exact_mod_cast Nat.mod_lt N (Nat.pos_of_ne_zero hn)
  by_cases hrem : N % n = 0
  · rw [hrem, Nat.cast_zero, add_zero] at hsplit
    simp only [hrem, ne_eq, not_true_eq_false, decide_false, truncates_false]
    rw [hsplit, mul_div_cancel_left₀ _ hpos.ne']
  · have hrem' : (0 : ℝ) < (N % n : ℕ) := by exact_mod_cast Nat.pos_of_ne_zero hrem
    simp only [ne_eq, hrem, not_false_eq_true, decide_true, truncates_true]
    rw [lt_div_iff₀ hpos, div_lt_iff₀ hpos]
    constructor <;> nlinarith

/-- A sticky quotient has more bits than a significand: its divisor is one, and 50 bits were added to its dividend. -/
theorem two_pow_le_of_sticky {m n : ℕ} (hn0 : n ≠ 0) (hn : n < 2 ^ 24) (h : m * 2 ^ 50 % n ≠ 0) :
    2 ^ 24 ≤ m * 2 ^ 50 / n := by
  have hm : m ≠ 0 := by
    rintro rfl
    simp at h
  rw [Nat.le_div_iff_mul_le (Nat.pos_of_ne_zero hn0)]
  omega

/-- Settles O54: 50 more bits of the dividend and the remainder tell `rne32` enough of the exact quotient. -/
theorem divIsCorrectlyRounded : Obligations.DivIsCorrectlyRounded := by
  intro a b ha hb hne
  have hsig := (value32_eq_zero_iff b).not.mp hne
  rw [div32_of_isFinite32 ha hb, if_neg hsig, divFin]
  refine ⟨?_, bit_sign_rne32 ..⟩
  have hround := (truncates_div (significand a * 2 ^ 50) hsig).isRne32_rne32 (bit 31 a ^^ bit 31 b)
    (unitExponent a - unitExponent b - 50) fun h => two_pow_le_of_sticky hsig (significand_lt b) (by simpa using h)
  convert hround using 1
  have hsigR : (significand b : ℝ) ≠ 0 := by exact_mod_cast hsig
  have hsign := signFactor_ne_zero (bit 31 b)
  rw [value32_cast, value32_cast, signFactor_xor_div, zpow_sub₀ two_ne_zero, zpow_sub₀ two_ne_zero]
  push_cast
  field_simp
  norm_num

/-! ### Sums and differences -/

theorem rne32_zero (neg : Bool) (e : Int) (sticky : Bool) : rne32 neg 0 e sticky = zeroF neg := if_pos rfl

/-- The exact sum of two finite values, in the smaller of their units (00_scope.md R10). -/
def exactSum (s : Bool) (m : Nat) (e : Int) (t : Bool) (n : Nat) (f : Int) : Int :=
  signed s (m * 2 ^ (e - min e f).toNat) + signed t (n * 2 ^ (f - min e f).toNat)

/-- The sign of a sum: that of its exact value, and for an exact zero negative only if both terms are (00_scope.md R11). -/
def sumSign (s t : Bool) (sum : Int) : Bool := if sum = 0 then s && t else decide (sum < 0)

theorem addFin_eq_rne32 (s : Bool) (m : Nat) (e : Int) (t : Bool) (n : Nat) (f : Int) :
    addFin s m e t n f =
      rne32 (sumSign s t (exactSum s m e t n f)) (exactSum s m e t n f).natAbs (min e f) false := by
  change (if exactSum s m e t n f = 0 then _ else _) = _
  rw [sumSign]
  split
  next h => rw [h, Int.natAbs_zero, rne32_zero]
  next => rfl

theorem signed_cast (s : Bool) (m : Nat) : (signed s m : ℝ) = signFactor s * m := by cases s <;> simp [signed]

theorem signFactor_sumSign_mul (s t : Bool) (sum : Int) : signFactor (sumSign s t sum) * (sum.natAbs : ℝ) = sum := by
  have habs : ((sum.natAbs : ℕ) : ℝ) = |(sum : ℝ)| := by rw [Nat.cast_natAbs, Int.cast_abs]
  rw [habs, sumSign]
  split
  next h => simp [h]
  next h =>
    rcases lt_or_gt_of_ne h with hneg | hpos
    · have hnegR : (sum : ℝ) < 0 := by exact_mod_cast hneg
      rw [decide_eq_true hneg, signFactor_true, abs_of_neg hnegR, neg_one_mul, neg_neg]
    · have hposR : (0 : ℝ) < sum := by exact_mod_cast hpos
      rw [decide_eq_false hpos.not_gt, signFactor_false, abs_of_pos hposR, one_mul]

/-- An integer of a larger unit is one of a smaller unit. -/
theorem natCast_mul_two_zpow (m : Nat) {e g : Int} (h : g ≤ e) :
    (m : ℝ) * 2 ^ e = (m * 2 ^ (e - g).toNat : ℕ) * 2 ^ g := by
  have hexp : ((2 : ℝ) ^ (e - g).toNat) = 2 ^ (e - g) := by rw [← zpow_natCast, Int.toNat_of_nonneg (by omega)]
  rw [Nat.cast_mul, Nat.cast_pow, Nat.cast_ofNat, hexp, mul_assoc, ← zpow_add₀ two_ne_zero, sub_add_cancel]

theorem exactSum_cast (s : Bool) (m : Nat) (e : Int) (t : Bool) (n : Nat) (f : Int) :
    signFactor s * (m * 2 ^ e) + signFactor t * (n * 2 ^ f) = (exactSum s m e t n f : ℝ) * 2 ^ min e f := by
  rw [natCast_mul_two_zpow m (min_le_left e f), natCast_mul_two_zpow n (min_le_right e f), exactSum, Int.cast_add,
    signed_cast, signed_cast]
  ring

section
variable {a b : Word}

/-- The exact sum of two finite words. -/
def wordSum (a b : Word) : Int :=
  exactSum (bit 31 a) (significand a) (unitExponent a) (bit 31 b) (significand b) (unitExponent b)

theorem value32_add_cast (a b : Word) :
    (value32 a : ℝ) + value32 b = wordSum a b * 2 ^ min (unitExponent a) (unitExponent b) := by
  rw [value32_cast, value32_cast, exactSum_cast, wordSum]

variable (ha : IsFinite32 a) (hb : IsFinite32 b)
include ha hb

theorem add32_of_isFinite32 :
    add32 a b = rne32 (sumSign (bit 31 a) (bit 31 b) (wordSum a b)) (wordSum a b).natAbs
      (min (unitExponent a) (unitExponent b)) false := by
  rw [add32, unpack_of_isFinite32 ha, unpack_of_isFinite32 hb]
  exact addFin_eq_rne32 _ _ _ _ _ _

theorem isRne32_add32 : IsRne32 ((value32 a : ℝ) + value32 b) (add32 a b) := by
  have hexact : Truncates (wordSum a b).natAbs false ((wordSum a b).natAbs : ℕ) := truncates_false.mpr rfl
  rw [add32_of_isFinite32 ha hb, value32_add_cast, ← signFactor_sumSign_mul (bit 31 a) (bit 31 b), mul_assoc]
  exact hexact.isRne32_rne32 _ _ (by simp)

theorem add32_of_zero_sum (h : value32 a + value32 b = 0) : add32 a b = zeroF (bit 31 a && bit 31 b) := by
  have hcast : (value32 a : ℝ) + value32 b = 0 := by exact_mod_cast h
  rw [value32_add_cast, mul_eq_zero_iff_right (by positivity), Int.cast_eq_zero] at hcast
  rw [add32_of_isFinite32 ha hb, hcast, Int.natAbs_zero, rne32_zero, sumSign, if_pos rfl]

end

theorem value32_nonpos_of_neg {w : Word} (h : bit 31 w = true) : value32 w ≤ 0 := by
  have hcast : (value32 w : ℝ) ≤ 0 := by
    rw [value32_cast, h, signFactor_true, neg_one_mul, neg_nonpos]
    positivity
  exact_mod_cast hcast

/-- Two words of negative sign sum to zero only as negative zeros. -/
theorem both_neg_iff_of_zero_sum {a b : Word} (h : value32 a + value32 b = 0) :
    (bit 31 a && bit 31 b) = true ↔ a = 0x80000000 ∧ b = 0x80000000 := by
  constructor
  · intro hsigns
    obtain ⟨hsa, hsb⟩ := (Bool.and_eq_true _ _).mp hsigns
    have hva := value32_nonpos_of_neg hsa
    have hvb := value32_nonpos_of_neg hsb
    have hza := zeroF_of_significand ((value32_eq_zero_iff a).mp (by linarith))
    have hzb := zeroF_of_significand ((value32_eq_zero_iff b).mp (by linarith))
    rw [hsa] at hza
    rw [hsb] at hzb
    exact ⟨hza.symm, hzb.symm⟩
  · rintro ⟨rfl, rfl⟩
    rfl

/-- Settles O52: the terms have a common unit, in which the sum is exact; a difference is the sum with the sign flipped. -/
theorem addAndSubAreCorrectlyRounded : Obligations.AddAndSubAreCorrectlyRounded := by
  intro a b ha hb
  refine ⟨isRne32_add32 ha hb, ?_, fun hzero => ?_⟩
  · have hflip : IsFinite32 (b ^^^ 0x80000000) := by rwa [IsFinite32, field_exponent_xor_sign]
    have hsub := isRne32_add32 ha hflip
    rwa [value32_xor_sign, Rat.cast_neg, ← sub_eq_add_neg, ← neg32_of_isFinite32 hb] at hsub
  · have hsigns := both_neg_iff_of_zero_sum hzero
    rw [add32_of_zero_sum ha hb hzero]
    by_cases hneg : a = 0x80000000 ∧ b = 0x80000000
    · rw [if_pos hneg, hsigns.mpr hneg]
      rfl
    · rw [if_neg hneg, Bool.eq_false_of_not_eq_true (hsigns.not.mpr hneg)]
      rfl

end Sys2Proof.Machine
end

section
/-! PROOFS. What a command reads and writes (10_state.md R42 to R53, 70_reset_and_hazards.md R211): its effect overwrites one set of bytes
with values computed from another one. Frames, noninterference, commuting and repeated commands all follow from the two sets. -/

namespace Sys2Proof.Machine

/-! ### Overwriting a set of bytes from another one -/

/-- The memories read the same on a set of bytes. -/
def AgreeOn (S : Set Nat) (m m' : Memory) : Prop := ∀ a ∈ S, m.readByte a = m'.readByte a

theorem AgreeOn.mono {S T : Set Nat} {m m' : Memory} (h : AgreeOn T m m') (hST : S ⊆ T) : AgreeOn S m m' :=
  fun a ha => h a (hST ha)

/-- `f` gives each byte of `D` a value computed from the bytes of `R`, and changes no other byte. -/
structure Overwrites (R D : Set Nat) (f : Memory → Memory) : Prop where
  frame : ∀ m, AgreeOn Dᶜ (f m) m
  determined : ∀ m m', AgreeOn R m m' → AgreeOn D (f m) (f m')

theorem overwrites_id (R : Set Nat) : Overwrites R ∅ fun m => m where
  frame _ _ _ := rfl
  determined _ _ _ _ ha := ha.elim

section
variable {R R' D D' : Set Nat} {f g : Memory → Memory}

theorem Overwrites.mono (hf : Overwrites R D f) (h : R ⊆ R') : Overwrites R' D f where
  frame := hf.frame
  determined m m' hm := hf.determined m m' (hm.mono h)

/-- Memories that agree on what is read agree afterwards on what is written too. -/
theorem Overwrites.agreeOn_union (hf : Overwrites R D f) {S : Set Nat} {m m' : Memory} (hRS : R ⊆ S) (hm : AgreeOn S m m') :
    AgreeOn (S ∪ D) (f m) (f m') := by
  intro a ha
  by_cases hD : a ∈ D
  · exact hf.determined m m' (hm.mono hRS) a hD
  · rw [hf.frame m a hD, hf.frame m' a hD]
    exact hm a (ha.resolve_right hD)

theorem Overwrites.comp (hf : Overwrites R D f) (hg : Overwrites R D' g) : Overwrites R (D ∪ D') fun m => g (f m) where
  frame m a ha := by
    rw [hg.frame _ a fun h => ha (.inr h), hf.frame _ a fun h => ha (.inl h)]
  determined m m' hm a ha := by
    refine hg.agreeOn_union Set.subset_union_left (hf.agreeOn_union subset_rfl hm) a ?_
    exact ha.imp_left .inr

/-- A loop whose turns read from one set. -/
theorem Overwrites.foldl_range {f : Memory → Nat → Memory} {D : Nat → Set Nat} {n : Nat}
    (hf : ∀ l < n, Overwrites R (D l) fun m => f m l) :
    Overwrites R {a | ∃ l < n, a ∈ D l} fun m => (List.range n).foldl f m := by
  induction n with
  | zero => simpa using overwrites_id R
  | succ n ih =>
    have hcomp := (ih fun l hl => hf l (by omega)).comp (hf n n.lt_succ_self)
    simp only [List.range_succ, List.foldl_append, List.foldl_cons, List.foldl_nil, Nat.lt_succ_iff_lt_or_eq, or_and_right,
      exists_or, exists_eq_left]
    exact hcomp

/-- Two effects that do not write what the other one reads or writes can be exchanged. -/
theorem Overwrites.exchange (hf : Overwrites R D f) (hg : Overwrites R' D' g) (hRD : Disjoint R D') (hDR : Disjoint D R')
    (hDD : Disjoint D D') (m : Memory) (a : Nat) : (g (f m)).readByte a = (f (g m)).readByte a := by
  have hgR : AgreeOn R (g m) m := (hg.frame m).mono hRD.subset_compl_right
  have hfR : AgreeOn R' (f m) m := (hf.frame m).mono hDR.symm.subset_compl_right
  by_cases hD : a ∈ D
  · rw [hg.frame _ a (Set.disjoint_left.mp hDD hD), hf.determined _ _ hgR a hD]
  · rw [hf.frame _ a hD]
    by_cases hD' : a ∈ D'
    · exact hg.determined _ _ hfR a hD'
    · rw [hg.frame _ a hD', hf.frame _ a hD, hg.frame _ a hD']

/-- An effect that does not write what it reads does nothing new the second time. -/
theorem Overwrites.readByte_twice (hf : Overwrites R D f) (hRD : Disjoint R D) (m : Memory) (a : Nat) :
    (f (f m)).readByte a = (f m).readByte a := by
  by_cases hD : a ∈ D
  · exact hf.determined _ _ ((hf.frame m).mono hRD.subset_compl_right) a hD
  · exact hf.frame _ a hD

end

/-! ### The bytes of rows and RAMs -/

/-- The bytes of a RAM of a channel. -/
def ramBytes (r : Ram) (c : Ch) : Set Nat := {a | r.contains c a = true}

/-- The bytes of `n` elements of a slot, from band `k`. -/
def rowBytes (r : Ram) (c : Ch) (i k n : Nat) : Set Nat := {a | InRow r c i k n a}

/-- The bytes of `CRAM`. -/
def cramSet : Set Nat := {a | InCram a}

theorem rowBytes_subset {r : Ram} (c : Ch) {i k n : Nat} (h : r.Fits i k n) : rowBytes r c i k n ⊆ ramBytes r c :=
  fun _ ha => InRow.contains ha h

theorem disjoint_ramBytes {r q : Ram} {c d : Ch} (h : r ≠ q ∨ c ≠ d) : Disjoint (ramBytes r c) (ramBytes q d) :=
  Set.disjoint_left.mpr fun _ hr hq => by
    obtain ⟨hrq, hcd⟩ := Ram.eq_of_contains hr hq
    exact h.elim (· hrq) (· hcd)

/-- The channel windows lie above `CRAM`. -/
theorem disjoint_cramSet_ramBytes (r : Ram) (c : Ch) : Disjoint cramSet (ramBytes r c) :=
  Set.disjoint_left.mpr fun a hcram hr => by
    have hbase := ((Ram.contains_iff r c a).mp hr).1
    have hend : a < 0x01A00 := hcram.2
    simp only [Ram.base, chanBase] at hbase
    omega

/-! ### Reading and writing rows -/

section
variable {m m' : Memory}

theorem AgreeOn.readWords {S : Set Nat} {a n : Nat} (h : AgreeOn S m m') (hS : ∀ b, a ≤ b → b < a + 4 * n → b ∈ S) :
    m.readWords a n = m'.readWords a n := by
  simp only [Memory.readWords_eq_map]
  refine List.map_congr_left fun i hi => Memory.readWord_congr fun j hj => ?_
  have hi := List.mem_range.mp hi
  exact h _ (hS _ (by omega) (by omega))

variable {S : Set Nat} (h : AgreeOn S m m')
include h

theorem AgreeOn.realRow {r : Ram} {c : Ch} {i k n : Nat} (hr : r.parts = 1) (hS : rowBytes r c i k n ⊆ S) :
    m.realRow r c i k n = m'.realRow r c i k n :=
  h.readWords fun b hlo hhi => hS ⟨hlo, by rwa [hr, Nat.one_mul]⟩

theorem AgreeOn.cplxWords {r : Ram} {c : Ch} {i k n : Nat} (hr : r.parts = 2) (hS : rowBytes r c i k n ⊆ S) :
    m.cplxWords r c i k n = m'.cplxWords r c i k n :=
  h.readWords fun b hlo hhi => hS ⟨hlo, by rwa [hr]⟩

theorem AgreeOn.cplxRow {r : Ram} {c : Ch} {i k n : Nat} (hr : r.parts = 2) (hS : rowBytes r c i k n ⊆ S) :
    m.cplxRow r c i k n = m'.cplxRow r c i k n := by
  rw [Memory.cplxRow, Memory.cplxRow, h.cplxWords hr hS]

/-- A block of a vector RAM is a row of its slot 0. -/
theorem AgreeOn.readBlock {r : Ram} {c : Ch} {rows n : Nat} (hr : r.parts = 1) (hS : rowBytes r c 0 0 (n * rows) ⊆ S) :
    m.readBlock (r.addr c 0 0) rows n = m'.readBlock (r.addr c 0 0) rows n := by
  rw [Memory.readBlock_eq_readWords, Memory.readBlock_eq_readWords]
  exact h.realRow hr hS

theorem AgreeOn.window (hS : cramSet ⊆ S) : window m = window m' := by
  rw [Machine.window, Machine.window, Memory.readBlock_eq_readWords, Memory.readBlock_eq_readWords]
  exact h.readWords fun b hlo hhi => hS ⟨hlo, hhi⟩

end

/-- A row stored after an effect, its words computed from what the effect reads. -/
theorem Overwrites.setRow {R D : Set Nat} {f : Memory → Memory} (hf : Overwrites R D f) {r : Ram} (c : Ch) {i k n : Nat}
    {row : Memory → List Word} (hlen : ∀ m, (row m).length = r.parts * n)
    (hrow : ∀ m m', AgreeOn R m m' → row m = row m') :
    Overwrites R (D ∪ rowBytes r c i k n) fun m => (f m).setRow r c i k (row m) where
  frame m a ha := by
    rw [Memory.readByte_setRow_outside fun h => ha (.inr (by rwa [hlen] at h)), hf.frame m a fun h => ha (.inl h)]
  determined m m' hm a ha := by
    simp only [hrow m m' hm, Memory.setRow, Memory.writeWords, Memory.readByte_writeBytes]
    split
    · rfl
    next hout =>
      rw [flatMap_wordBytes_length, hlen] at hout
      exact hf.determined m m' hm a (ha.resolve_right hout)

/-- One row, its words computed from `R`. -/
theorem overwrites_setRow {R : Set Nat} {r : Ram} (c : Ch) {i k n : Nat} {row : Memory → List Word}
    (hlen : ∀ m, (row m).length = r.parts * n) (hrow : ∀ m m', AgreeOn R m m' → row m = row m') :
    Overwrites R (rowBytes r c i k n) fun m => m.setRow r c i k (row m) := by
  simpa using (overwrites_id R).setRow c hlen hrow

end Sys2Proof.Machine
end

section
/-! PROOFS. The bytes that each loop of a command reads and writes, for operands in range. -/

namespace Sys2Proof.Machine

/-! ### The loops of 42_pipeline.md -/

theorem rowBytes_zero_subset {r : Ram} (c : Ch) {i n : Nat} (hi : i < r.rows) (hn : n ≤ r.cols) :
    rowBytes r c i 0 n ⊆ ramBytes r c := rowBytes_subset c ⟨hi, by omega⟩

theorem overwrites_shiftLow (c : Ch) :
    Overwrites (ramBytes .WP c) {a | ∃ j < 8, a ∈ rowBytes .W c j 0 32} (shiftLow c) :=
  Overwrites.foldl_range fun _ hj => overwrites_setRow c (fun _ => Memory.cplxWords_length ..) fun _ _ h =>
    h.cplxWords rfl (rowBytes_zero_subset c hj le_rfl)

theorem overwrites_saveW (c : Ch) {n : Nat} (hn : n ≤ 32) :
    Overwrites (ramBytes .W c) {a | ∃ j < 8, a ∈ rowBytes .WP c j 0 32} (saveW c n) :=
  Overwrites.foldl_range fun j hj => overwrites_setRow c (fun _ => Memory.cplxWords_length ..) fun _ _ h =>
    h.cplxWords rfl (rowBytes_zero_subset c (show n + j < 40 by omega) le_rfl)

@[simp] theorem zeroCplxWords_length (n : Nat) : (zeroCplxWords n).length = 2 * n := List.length_replicate

theorem overwrites_saveY (c : Ch) (n : Nat) :
    Overwrites (ramBytes .Y c) {a | ∃ j < 10, a ∈ rowBytes .YP c j 0 64} (saveY c n) := by
  refine Overwrites.foldl_range fun j _ => overwrites_setRow c (fun m => ?_) fun m m' h => ?_
  · split <;> simp [Ram.parts, Config.ks]
  · split
    next hj => exact h.cplxWords rfl (rowBytes_zero_subset c (Nat.add_lt_of_lt_sub' hj) le_rfl)
    next => rfl

theorem overwrites_restoreY (c : Ch) {n : Nat} (hn : 30 ≤ n) :
    Overwrites (ramBytes .YP c) {a | ∃ j < 40 - n, a ∈ rowBytes .Y c j 0 64} (restoreY c n) :=
  Overwrites.foldl_range fun j hj => overwrites_setRow c (fun _ => Memory.cplxWords_length ..) fun _ _ h =>
    h.cplxWords rfl (rowBytes_zero_subset c (show j < 10 by omega) le_rfl)

theorem overwrites_buildX (c : Ch) {kx mb n : Nat} (hkx : kx ≤ 32) (hmb : kx + mb ≤ 64) (hn : n ≤ 32) :
    Overwrites (ramBytes .W c ∪ ramBytes .Y c) {a | ∃ l < n, a ∈ rowBytes .X c l 0 64} (buildX c kx mb n) := by
  refine Overwrites.foldl_range fun l hl => overwrites_setRow c (fun m => ?_) fun m m' h => ?_
  · simp only [spliceRow, List.length_append, Memory.cplxWords_length, zeroCplxWords_length, Ram.parts, Config.ks]
    omega
  · have hl : l + 2 < 40 := by omega
    rw [spliceRow, spliceRow,
      h.cplxWords rfl ((rowBytes_zero_subset c hl hkx).trans Set.subset_union_left),
      h.cplxWords rfl ((rowBytes_subset c ⟨hl, hmb⟩).trans Set.subset_union_right)]

/-! ### The multipliers -/

theorem overwrites_overSlots {R : Set Nat} (c : Ch) (j0 : Nat) {nj m0 nm : Nat} {row : Nat → Memory → List Word}
    (hlen : ∀ j m, (row j m).length = 2 * nm)
    (hrow : ∀ j < j0 + nj, ∀ m m', AgreeOn R m m' → row j m = row j m') :
    Overwrites R {a | ∃ i < nj, a ∈ rowBytes .Y c (j0 + i) m0 nm} (overSlots c j0 nj m0 row) :=
  Overwrites.foldl_range fun _ hi => overwrites_setRow c (hlen _) (hrow _ (by omega))

theorem overwrites_envMul (c : Ch) {j0 nj m0 nm : Nat} (hj : j0 + nj ≤ 40) (hm : m0 + nm ≤ 64) :
    Overwrites (ramBytes .G c ∪ ramBytes .XH c) {a | ∃ i < nj, a ∈ rowBytes .Y c (j0 + i) m0 nm}
      (overSlots c j0 nj m0 fun j m => mulRow c j m0 nm m) := by
  refine overwrites_overSlots c j0 (fun j m => by simp [mulRow_eq_unpair_map]) fun j hjn m m' h => ?_
  have hj40 : j < 40 := by omega
  rw [mulRow, mulRow, h.realRow rfl ((rowBytes_subset c ⟨hj40, hm⟩).trans Set.subset_union_left),
    h.cplxRow rfl ((rowBytes_subset c ⟨hj40, hm⟩).trans Set.subset_union_right)]

theorem overwrites_envMac (c : Ch) {j0 nj m0 nm : Nat} (hj : j0 + nj ≤ 40) (hm : m0 + nm ≤ 64) :
    Overwrites (ramBytes .A c ∪ ramBytes .Z c ∪ ramBytes .Y c) {a | ∃ i < nj, a ∈ rowBytes .Y c (j0 + i) m0 nm}
      (overSlots c j0 nj m0 fun j m => macRow c j m0 nm m) := by
  refine overwrites_overSlots c j0 (fun j m => by simp [macRow_eq_unpair_map]) fun j hjn m m' h => ?_
  have hj40 : j < 40 := by omega
  rw [macRow, macRow,
    h.realRow rfl ((rowBytes_subset c ⟨hj40, hm⟩).trans (Set.subset_union_left.trans Set.subset_union_left)),
    h.cplxRow (r := .Z) rfl ((rowBytes_subset c ⟨hj40, hm⟩).trans (Set.subset_union_right.trans Set.subset_union_left)),
    h.cplxRow (r := .Y) rfl ((rowBytes_subset c ⟨hj40, hm⟩).trans Set.subset_union_right)]

/-! ### Dequantization -/

section
variable {src dst : Ram} (hs : src.SameShape dst) {n : Nat → Nat} {L : Nat} (hfit : ∀ l < L, dst.Fits l 0 (n l))
include hs hfit

theorem overwrites_deqGrid (c : Ch) (scale off : Int) :
    Overwrites (ramBytes src c) {a | ∃ l < L, a ∈ rowBytes dst c l 0 (n l)} (deqGrid src dst c scale off n L) := by
  refine Overwrites.foldl_range fun l hl => overwrites_setRow c (fun m => by simp [hs.dstParts]) fun m m' h => ?_
  rw [h.realRow hs.srcParts (rowBytes_subset c (hs.fits (hfit l hl)))]

/-- A coupled row reads both channels before it stores its first member. -/
theorem overwrites_deqPairGrid (scale off pan panScale : Int) :
    Overwrites (ramBytes src 0 ∪ ramBytes src 1) {a | ∃ l < L, a ∈ rowBytes dst 0 l 0 (n l) ∪ rowBytes dst 1 l 0 (n l)}
      (deqPairGrid src dst scale off pan panScale n L) := by
  have hread {l : Nat} (hl : l < L) {m m' : Memory} (h : AgreeOn (ramBytes src 0 ∪ ramBytes src 1) m m') :
      m.realRow src 0 l 0 (n l) = m'.realRow src 0 l 0 (n l) ∧ m.realRow src 1 l 0 (n l) = m'.realRow src 1 l 0 (n l) :=
    ⟨h.realRow hs.srcParts ((rowBytes_subset 0 (hs.fits (hfit l hl))).trans Set.subset_union_left),
      h.realRow hs.srcParts ((rowBytes_subset 1 (hs.fits (hfit l hl))).trans Set.subset_union_right)⟩
  refine Overwrites.foldl_range fun l hl => Overwrites.setRow (overwrites_setRow 0 (fun m => by simp [hs.dstParts]) ?_) 1
    (fun m => by simp [hs.dstParts]) ?_
  all_goals
    intro m m' h
    rw [(hread hl h).1, (hread hl h).2]

end

/-! ### The filterbanks -/

@[simp] theorem Memory.readBlock_length (m : Memory) (a rows n : Nat) : (m.readBlock a rows n).length = n * rows := by
  rw [Memory.readBlock_eq_readWords, Memory.readWords_length]

@[simp] theorem anaDelay_length (c : Ch) (l : Nat) (m : Memory) : (anaDelay c l m).length = 320 := by simp [anaDelay]

theorem overwrites_anaSlot (c : Ch) (klim : Nat) {l : Nat} (hl : l < 32) :
    Overwrites (ramBytes .IN c ∪ ramBytes .ADL c ∪ cramSet) (rowBytes .ADL c 0 0 320 ∪ rowBytes .W c (8 + l) 0 32)
      (anaSlot c klim l) := by
  have hdelay : ∀ m m', AgreeOn (ramBytes .IN c ∪ ramBytes .ADL c ∪ cramSet) m m' → anaDelay c l m = anaDelay c l m' := by
    intro m m' h
    have hIN : rowBytes .IN c 0 (32 * l) 32 ⊆ ramBytes .IN c :=
      rowBytes_subset c ⟨Nat.one_pos, show 32 * l + 32 ≤ 1024 by omega⟩
    have hADL : rowBytes .ADL c 0 0 (32 * 10) ⊆ ramBytes .ADL c := rowBytes_zero_subset c Nat.one_pos le_rfl
    rw [anaDelay, anaDelay, h.realRow rfl (hIN.trans (Set.subset_union_left.trans Set.subset_union_left)),
      h.readBlock rfl (hADL.trans (Set.subset_union_right.trans Set.subset_union_left))]
  refine Overwrites.setRow (overwrites_setRow c (fun m => anaDelay_length c l m) hdelay) c (fun m => by simp [Ram.parts, Config.ka])
    fun m m' h => ?_
  rw [hdelay m m' h, h.window Set.subset_union_right]

theorem overwrites_anaSlots (c : Ch) (klim : Nat) {l0 nl : Nat} (hl : l0 + nl ≤ 32) :
    Overwrites (ramBytes .IN c ∪ ramBytes .ADL c ∪ cramSet)
      {a | ∃ i < nl, a ∈ rowBytes .ADL c 0 0 320 ∪ rowBytes .W c (8 + (l0 + i)) 0 32} (anaSlots c klim l0 nl) :=
  Overwrites.foldl_range fun _ hi => overwrites_anaSlot c klim (by omega)

/-- The rows that the analysis writes lie in `ADL` and `W`. -/
theorem anaRows_subset (c : Ch) {l0 nl : Nat} (hl : l0 + nl ≤ 32) :
    {a | ∃ i < nl, a ∈ rowBytes .ADL c 0 0 320 ∪ rowBytes .W c (8 + (l0 + i)) 0 32} ⊆ ramBytes .ADL c ∪ ramBytes .W c := by
  rintro a ⟨i, hi, ha⟩
  exact ha.imp (fun h => rowBytes_zero_subset c Nat.one_pos le_rfl h)
    fun h => rowBytes_zero_subset c (show 8 + (l0 + i) < 40 by omega) le_rfl h

/-- A list of words is given by a function of the index. -/
theorem exists_eq_map_range (ws : List Word) : ∃ f, ws = (List.range ws.length).map f :=
  ⟨fun i => ws.getD i 0, List.ext_getElem (by simp) fun i h _ => by
    rw [List.getElem_map, List.getElem_range, List.getD_eq_getElem _ _ h]⟩

theorem synOut_length {b : Nat} {v coef : List Word} (hv : v.length = 20 * b) (hcoef : coef.length = 10 * b) :
    (synOut b v coef).length = b := by
  obtain ⟨f, hf⟩ := exists_eq_map_range v
  obtain ⟨g, hg⟩ := exists_eq_map_range coef
  rw [hf, hg, hv, hcoef, synOut_map_range, List.length_map, List.length_range]

theorem overwrites_synSlot {b : Nat} (hb : b ≤ 64) (tc ts : Nat → Nat → Word) (ssc : Word) {coef : Memory → List Word}
    (hlen : ∀ m, (coef m).length = 10 * b) (hcoef : ∀ m m', AgreeOn cramSet m m' → coef m = coef m') (c : Ch) {l : Nat}
    (hl : l < 32) :
    Overwrites (ramBytes .X c ∪ ramBytes .SDL c ∪ cramSet)
      (rowBytes .SDL c 0 0 (20 * b) ∪ rowBytes .OUT c 0 (b * l) b) fun m => synSlot b tc ts ssc (coef m) c l m := by
  have hline (m : Memory) (xs : List Cplx) : ((List.range (2 * b)).map (synValue xs tc ts ssc) ++
      (m.readBlock (Ram.addr .SDL c 0 0) 20 b).take (18 * b)).length = 20 * b := by
    simp only [List.length_append, List.length_map, List.length_range, List.length_take, Memory.readBlock_length]
    omega
  have hX : rowBytes .X c l 0 b ⊆ ramBytes .X c := rowBytes_zero_subset c hl hb
  have hSDL : rowBytes .SDL c 0 0 (b * 20) ⊆ ramBytes .SDL c :=
    rowBytes_zero_subset c Nat.one_pos (show b * 20 ≤ 1280 by omega)
  have hread : ∀ m m', AgreeOn (ramBytes .X c ∪ ramBytes .SDL c ∪ cramSet) m m' →
      m.cplxRow .X c l 0 b = m'.cplxRow .X c l 0 b ∧
        m.readBlock (Ram.addr .SDL c 0 0) 20 b = m'.readBlock (Ram.addr .SDL c 0 0) 20 b := fun m m' h =>
    ⟨h.cplxRow rfl (hX.trans (Set.subset_union_left.trans Set.subset_union_left)),
      h.readBlock rfl (hSDL.trans (Set.subset_union_right.trans Set.subset_union_left))⟩
  refine Overwrites.setRow (overwrites_setRow c (fun m => ?_) fun m m' h => ?_) c (fun m => ?_) fun m m' h => ?_
  · rw [hline, Ram.parts, Nat.one_mul]
  · rw [(hread m m' h).1, (hread m m' h).2]
  · rw [synOut_length (hline m _) (hlen m), Ram.parts, Nat.one_mul]
  · rw [(hread m m' h).1, (hread m m' h).2, hcoef m m' (h.mono Set.subset_union_right)]

/-- The bands of the synthesis bank that `CFG.DS` selects (43_qmf.md R162). -/
def synBands (r : Regs) : Nat := if r.ds then 32 else 64

theorem overwrites_synSlots (r : Regs) (c : Ch) {l0 nl : Nat} (hl : l0 + nl ≤ 32) :
    Overwrites (ramBytes .X c ∪ ramBytes .SDL c ∪ cramSet)
      {a | ∃ i < nl, a ∈ rowBytes .SDL c 0 0 (20 * synBands r) ∪ rowBytes .OUT c 0 (synBands r * (l0 + i)) (synBands r)}
      (synSlots r c l0 nl) := by
  refine Overwrites.foldl_range fun i hi => ?_
  have hslot : l0 + i < 32 := by omega
  rw [synBands]
  cases r.ds with
  | false =>
    exact overwrites_synSlot le_rfl tsc64 tss64 r.ssc64 (fun m => by simp [window_eq_map])
      (fun m m' h => h.window subset_rfl) c hslot
  | true =>
    exact overwrites_synSlot (by decide) tsc32 tss32 r.ssc32 (fun m => by simp [evens_window_eq_map])
      (fun m m' h => by rw [h.window subset_rfl]) c hslot

end Sys2Proof.Machine
end

section
/-! PROOFS. The whole-machine rules on what commands read and write: the effect of every command overwrites bytes of the RAMs it may
write, from bytes of the RAMs it reads and of `CRAM`. -/

namespace Sys2Proof.Machine

/-! ### The effect of a command on memory -/

/-- What a command does to memory when its checks pass. -/
def effect (r : Regs) : Instr → Memory → Memory
  | .nop => id
  | .resetCh c mask => clearRams c (resetRams mask)
  | .shiftLow c => shiftLow c
  | .qmfAna c klim l0 nl => anaSlots c klim l0 nl
  | .spliceX c kx mb restore => fun m => buildX c kx mb r.ntsr (if restore then restoreY c r.ntsr m else m)
  | .envMul c j0 nj m0 nm => overSlots c j0 nj m0 fun j m => mulRow c j m0 nm m
  | .envMac c j0 nj m0 nm => overSlots c j0 nj m0 fun j m => macRow c j m0 nm m
  | .qmfSyn c l0 nl => synSlots r c l0 nl
  | .savePrev c => fun m => saveY c r.ntsr (saveW c r.ntsr m)
  | .deqEnv c => deqGrid .EQ .EO c (r.ah c) r.envOff (r.nb c) (r.le c)
  | .deqNoise c => deqGrid .QQ .QO c r.ns r.noiseOff (fun _ => r.nqb c) (r.lq c)
  | .deqEnvCpl => deqPairGrid .EQ .EO (r.ah 0) r.cplEoff r.panE (r.ah 1) (r.nb 0) (r.le 0)
  | .deqNoiseCpl => deqPairGrid .QQ .QO r.ns r.cplNoff r.panN 2 (fun _ => r.nqb 0) (r.lq 0)

theorem exec_eq_command_effect (i : Instr) (s : State) :
    exec i s = s.command (columnError s.regs i) (effect s.regs i) := by
  cases i <;>
    simp only [columnError, configPasses, rangePasses, gridPasses, failing_true, firstError_none_cons, firstError_cons_none,
      firstError_singleton] <;>
    rfl

theorem columnError_eq_none_iff (r : Regs) (i : Instr) :
    columnError r i = none ↔ configPasses r i = true ∧ rangePasses r i = true ∧ gridPasses r i = true := by
  simp only [columnError, firstError_failing_cons]
  cases configPasses r i <;> cases rangePasses r i <;> cases gridPasses r i <;> simp [firstError]

/-- What a command does to memory: its effect, or nothing if a check fails. -/
def memAfter (r : Regs) (i : Instr) : Memory → Memory := if columnError r i = none then effect r i else id

/-- `STATUS` and `CMDCNT` are no operands of a command. -/
theorem memAfter_endOk (r : Regs) (i : Instr) : memAfter r.endOk i = memAfter r i := by cases i <;> rfl

theorem memAfter_endErr (r : Regs) (e : CmdError) (i : Instr) : memAfter (r.endErr e) i = memAfter r i := by
  cases i <;> rfl

/-- Every command answers a next state, in which the memory is that of `memAfter` and a next command finds the same operands. -/
theorem exec_next (i : Instr) (s : State) :
    ∃ t, exec i s = .next t ∧ t.mem = memAfter s.regs i s.mem ∧ ∀ j, memAfter t.regs j = memAfter s.regs j := by
  rw [exec_eq_command_effect, memAfter]
  cases columnError s.regs i with
  | none => exact ⟨_, State.command_none .., rfl, memAfter_endOk s.regs⟩
  | some e => exact ⟨_, State.command_some .., rfl, memAfter_endErr s.regs e⟩

/-! ### The bytes that a command reads and writes -/

/-- The RAMs a command reads (42_pipeline.md R134 to R138, 41_env_adjust.md R120, R122, 40_dequant.md R102 to R111, 43_qmf.md R158,
R160, R163). -/
def MayRead : Instr → Ram → Ch → Prop
  | .nop, _, _ => False
  | .resetCh _ _, _, _ => False
  | .shiftLow c, r, d => d = c ∧ r = .WP
  | .qmfAna c _ _ _, r, d => d = c ∧ (r = .IN ∨ r = .ADL)
  | .spliceX c _ _ _, r, d => d = c ∧ (r = .W ∨ r = .Y ∨ r = .YP)
  | .envMul c _ _ _ _, r, d => d = c ∧ (r = .G ∨ r = .XH)
  | .envMac c _ _ _ _, r, d => d = c ∧ (r = .A ∨ r = .Z ∨ r = .Y)
  | .qmfSyn c _ _, r, d => d = c ∧ (r = .X ∨ r = .SDL)
  | .savePrev c, r, d => d = c ∧ (r = .W ∨ r = .Y)
  | .deqEnv c, r, d => d = c ∧ r = .EQ
  | .deqNoise c, r, d => d = c ∧ r = .QQ
  | .deqEnvCpl, r, _ => r = .EQ
  | .deqNoiseCpl, r, _ => r = .QQ

/-- The bytes of the RAMs that a relation gives to a command. -/
def bytesOf (P : Ram → Ch → Prop) : Set Nat := {a | ∃ r c, P r c ∧ a ∈ ramBytes r c}

theorem ramBytes_subset_bytesOf {P : Ram → Ch → Prop} {r : Ram} {c : Ch} (h : P r c) : ramBytes r c ⊆ bytesOf P :=
  fun _ ha => ⟨r, c, h, ha⟩

/-- The rows of a loop lie in a RAM. -/
theorem rows_subset_bytesOf {P : Ram → Ch → Prop} {r : Ram} {c : Ch} (h : P r c) {L : Nat} {slot : Nat → Nat} {k : Nat}
    {n : Nat → Nat} (hfit : ∀ l < L, r.Fits (slot l) k (n l)) :
    {a | ∃ l < L, a ∈ rowBytes r c (slot l) k (n l)} ⊆ bytesOf P := by
  rintro a ⟨l, hl, ha⟩
  exact ramBytes_subset_bytesOf h (rowBytes_subset c (hfit l hl) ha)

/-- `f` overwrites bytes of the RAMs of `W` only, from bytes of the RAMs of `R` and of `CRAM`. -/
def OverwritesRams (R W : Ram → Ch → Prop) (f : Memory → Memory) : Prop :=
  ∃ D ⊆ bytesOf W, Overwrites (bytesOf R ∪ cramSet) D f

theorem Overwrites.rams {R W : Ram → Ch → Prop} {S D : Set Nat} {f : Memory → Memory} (hf : Overwrites S D f)
    (hS : S ⊆ bytesOf R ∪ cramSet) (hD : D ⊆ bytesOf W) : OverwritesRams R W f := ⟨D, hD, hf.mono hS⟩

theorem overwritesRams_id (R W : Ram → Ch → Prop) : OverwritesRams R W id :=
  ⟨∅, Set.empty_subset _, overwrites_id _⟩

theorem OverwritesRams.comp {R W : Ram → Ch → Prop} {f g : Memory → Memory} (hf : OverwritesRams R W f)
    (hg : OverwritesRams R W g) : OverwritesRams R W fun m => g (f m) := by
  obtain ⟨D, hD, hf⟩ := hf
  obtain ⟨D', hD', hg⟩ := hg
  exact ⟨D ∪ D', Set.union_subset hD hD', hf.comp hg⟩

theorem overwrites_clearRams (c : Ch) (rs : List Ram) (R : Set Nat) :
    Overwrites R {a | ∃ r ∈ rs, r.contains c a = true} (clearRams c rs) where
  frame m a ha := by
    rw [readByte_clearRams]
    exact if_neg ha
  determined m m' _ a ha := by
    rw [readByte_clearRams, readByte_clearRams]
    exact (if_pos ha).trans (if_pos ha).symm

theorem ramBytes_subset {P : Ram → Ch → Prop} {r : Ram} {c : Ch} (h : P r c) : ramBytes r c ⊆ bytesOf P ∪ cramSet :=
  (ramBytes_subset_bytesOf h).trans Set.subset_union_left

theorem ntsr_le (r : Regs) : 30 ≤ r.ntsr ∧ r.ntsr ≤ 32 := by
  have h := frameSlots_eq r
  change 30 ≤ frameSlots r ∧ frameSlots r ≤ 32
  omega

/-! ### The commands one by one -/

theorem overwritesRams_resetCh (c : Ch) (mask : Nat) :
    OverwritesRams (MayRead (.resetCh c mask)) (MayWrite (.resetCh c mask)) (clearRams c (resetRams mask)) := by
  refine (overwrites_clearRams c (resetRams mask) ∅).rams (Set.empty_subset _) ?_
  rintro a ⟨q, -, ha⟩
  exact ⟨q, c, rfl, ha⟩

theorem overwritesRams_shiftLow (c : Ch) :
    OverwritesRams (MayRead (.shiftLow c)) (MayWrite (.shiftLow c)) (shiftLow c) :=
  (overwrites_shiftLow c).rams (ramBytes_subset ⟨rfl, rfl⟩)
    (rows_subset_bytesOf ⟨rfl, rfl⟩ fun l hl => ⟨show l < 40 by omega, le_rfl⟩)

theorem overwritesRams_qmfAna (c : Ch) (klim : Nat) {l0 nl : Nat} (hl : l0 + nl ≤ 32) :
    OverwritesRams (MayRead (.qmfAna c klim l0 nl)) (MayWrite (.qmfAna c klim l0 nl)) (anaSlots c klim l0 nl) := by
  refine (overwrites_anaSlots c klim hl).rams (Set.union_subset (Set.union_subset ?_ ?_) Set.subset_union_right)
    ((anaRows_subset c hl).trans (Set.union_subset ?_ ?_))
  · exact ramBytes_subset ⟨rfl, .inl rfl⟩
  · exact ramBytes_subset ⟨rfl, .inr rfl⟩
  · exact ramBytes_subset_bytesOf ⟨rfl, .inl rfl⟩
  · exact ramBytes_subset_bytesOf ⟨rfl, .inr rfl⟩

theorem overwritesRams_spliceX (c : Ch) {kx mb n : Nat} (restore : Bool) (hkx : kx ≤ 32) (hmb : kx + mb ≤ 64) (hlo : 30 ≤ n)
    (hhi : n ≤ 32) :
    OverwritesRams (MayRead (.spliceX c kx mb restore)) (MayWrite (.spliceX c kx mb restore)) fun m =>
      buildX c kx mb n (if restore then restoreY c n m else m) := by
  have hX : OverwritesRams (MayRead (.spliceX c kx mb restore)) (MayWrite (.spliceX c kx mb restore)) (buildX c kx mb n) :=
    (overwrites_buildX c hkx hmb hhi).rams
      (Set.union_subset (ramBytes_subset ⟨rfl, .inl rfl⟩) (ramBytes_subset ⟨rfl, .inr (.inl rfl)⟩))
      (rows_subset_bytesOf ⟨rfl, .inl rfl⟩ fun l hl => ⟨show l < 32 by omega, le_rfl⟩)
  cases restore with
  | false => exact hX
  | true =>
    have hY : OverwritesRams (MayRead (.spliceX c kx mb true)) (MayWrite (.spliceX c kx mb true)) (restoreY c n) :=
      (overwrites_restoreY c hlo).rams (ramBytes_subset ⟨rfl, .inr (.inr rfl)⟩)
        (rows_subset_bytesOf ⟨rfl, .inr ⟨rfl, rfl⟩⟩ fun l hl => ⟨show l < 40 by omega, le_rfl⟩)
    exact hY.comp hX

section
variable (c : Ch) {j0 nj m0 nm : Nat} (hj : j0 + nj ≤ 40) (hm : m0 + nm ≤ 64)
include hj hm

theorem overwritesRams_envMul :
    OverwritesRams (MayRead (.envMul c j0 nj m0 nm)) (MayWrite (.envMul c j0 nj m0 nm))
      (overSlots c j0 nj m0 fun j m => mulRow c j m0 nm m) :=
  (overwrites_envMul c hj hm).rams
    (Set.union_subset (ramBytes_subset ⟨rfl, .inl rfl⟩) (ramBytes_subset ⟨rfl, .inr rfl⟩))
    (rows_subset_bytesOf ⟨rfl, rfl⟩ fun l hl => ⟨show j0 + l < 40 by omega, hm⟩)

theorem overwritesRams_envMac :
    OverwritesRams (MayRead (.envMac c j0 nj m0 nm)) (MayWrite (.envMac c j0 nj m0 nm))
      (overSlots c j0 nj m0 fun j m => macRow c j m0 nm m) :=
  (overwrites_envMac c hj hm).rams
    (Set.union_subset (Set.union_subset (ramBytes_subset ⟨rfl, .inl rfl⟩) (ramBytes_subset ⟨rfl, .inr (.inl rfl)⟩))
      (ramBytes_subset ⟨rfl, .inr (.inr rfl)⟩))
    (rows_subset_bytesOf ⟨rfl, rfl⟩ fun l hl => ⟨show j0 + l < 40 by omega, hm⟩)

end

theorem synBands_le (r : Regs) : synBands r ≤ 64 := by
  unfold synBands
  split <;> omega

/-- The samples of a slot fit into `OUT`. -/
theorem fits_OUT (r : Regs) {l : Nat} (hl : l < 32) : Ram.OUT.Fits 0 (synBands r * l) (synBands r) := by
  refine ⟨Nat.one_pos, ?_⟩
  calc synBands r * l + synBands r = synBands r * (l + 1) := (Nat.mul_succ _ _).symm
    _ ≤ 64 * 32 := Nat.mul_le_mul (synBands_le r) hl

theorem overwritesRams_qmfSyn (r : Regs) (c : Ch) {l0 nl : Nat} (hl : l0 + nl ≤ 32) :
    OverwritesRams (MayRead (.qmfSyn c l0 nl)) (MayWrite (.qmfSyn c l0 nl)) (synSlots r c l0 nl) := by
  have hb := synBands_le r
  refine (overwrites_synSlots r c hl).rams (Set.union_subset (Set.union_subset ?_ ?_) Set.subset_union_right) ?_
  · exact ramBytes_subset ⟨rfl, .inl rfl⟩
  · exact ramBytes_subset ⟨rfl, .inr rfl⟩
  · rintro a ⟨l, hl, ha | ha⟩
    · exact ramBytes_subset_bytesOf ⟨rfl, .inl rfl⟩
        (rowBytes_zero_subset c Nat.one_pos (show 20 * synBands r ≤ 1280 by omega) ha)
    · exact ramBytes_subset_bytesOf ⟨rfl, .inr rfl⟩ (rowBytes_subset c (fits_OUT r (by omega)) ha)

theorem overwritesRams_savePrev (c : Ch) {n : Nat} (hn : n ≤ 32) :
    OverwritesRams (MayRead (.savePrev c)) (MayWrite (.savePrev c)) fun m => saveY c n (saveW c n m) := by
  refine OverwritesRams.comp ((overwrites_saveW c hn).rams (ramBytes_subset ⟨rfl, .inl rfl⟩) ?_)
    ((overwrites_saveY c n).rams (ramBytes_subset ⟨rfl, .inr rfl⟩) ?_)
  · exact rows_subset_bytesOf ⟨rfl, .inl rfl⟩ fun l hl => ⟨hl, le_rfl⟩
  · exact rows_subset_bytesOf ⟨rfl, .inr rfl⟩ fun l hl => ⟨hl, le_rfl⟩

section
variable {src dst : Ram} (hs : src.SameShape dst) {n : Nat → Nat} {L : Nat} (hfit : ∀ l < L, dst.Fits l 0 (n l))
include hs hfit

theorem overwritesRams_deqGrid (c : Ch) (scale off : Int) :
    OverwritesRams (fun r d => d = c ∧ r = src) (fun r d => d = c ∧ r = dst) (deqGrid src dst c scale off n L) :=
  (overwrites_deqGrid hs hfit c scale off).rams (ramBytes_subset ⟨rfl, rfl⟩) (rows_subset_bytesOf ⟨rfl, rfl⟩ hfit)

theorem overwritesRams_deqPairGrid (scale off pan panScale : Int) :
    OverwritesRams (fun r _ => r = src) (fun r _ => r = dst) (deqPairGrid src dst scale off pan panScale n L) := by
  refine (overwrites_deqPairGrid hs hfit scale off pan panScale).rams
    (Set.union_subset (ramBytes_subset rfl) (ramBytes_subset rfl)) ?_
  rintro a ⟨l, hl, ha | ha⟩ <;> exact ramBytes_subset_bytesOf rfl (rowBytes_subset _ (hfit l hl) ha)

end

/-! ### Every command -/

/-- A command whose checks pass reads and writes its own RAMs. -/
theorem overwritesRams_effect {r : Regs} {i : Instr} (h : columnError r i = none) :
    OverwritesRams (MayRead i) (MayWrite i) (effect r i) := by
  obtain ⟨-, hrange, hgrid⟩ := (columnError_eq_none_iff r i).mp h
  obtain ⟨hlo, hhi⟩ := ntsr_le r
  cases i with
  | nop => exact overwritesRams_id _ _
  | resetCh c mask => exact overwritesRams_resetCh c mask
  | shiftLow c => exact overwritesRams_shiftLow c
  | qmfAna c klim l0 nl =>
    simp only [rangePasses, anaInRange, Bool.and_eq_true, decide_eq_true_eq] at hrange
    exact overwritesRams_qmfAna c klim (by omega)
  | spliceX c kx mb restore =>
    simp only [rangePasses, spliceInRange, Bool.and_eq_true, decide_eq_true_eq] at hrange
    exact overwritesRams_spliceX c restore hrange.1 hrange.2 hlo hhi
  | envMul c j0 nj m0 nm =>
    simp only [rangePasses, blockInRange, Bool.and_eq_true, decide_eq_true_eq] at hrange
    exact overwritesRams_envMul c hrange.1 hrange.2
  | envMac c j0 nj m0 nm =>
    simp only [rangePasses, blockInRange, Bool.and_eq_true, decide_eq_true_eq] at hrange
    exact overwritesRams_envMac c hrange.1 hrange.2
  | qmfSyn c l0 nl =>
    simp only [rangePasses, synInRange, decide_eq_true_eq] at hrange
    exact overwritesRams_qmfSyn r c (by omega)
  | savePrev c => exact overwritesRams_savePrev c hhi
  | deqEnv c => exact overwritesRams_deqGrid sameShape_EQ_EO (fits_EO ((envGridLegal_iff r c).mp hgrid)) c _ _
  | deqNoise c => exact overwritesRams_deqGrid sameShape_QQ_QO (fits_QO ((noiseGridLegal_iff r c).mp hgrid)) c _ _
  | deqEnvCpl => exact overwritesRams_deqPairGrid sameShape_EQ_EO (fits_EO ((envGridLegal_iff r 0).mp hgrid)) _ _ _ _
  | deqNoiseCpl => exact overwritesRams_deqPairGrid sameShape_QQ_QO (fits_QO ((noiseGridLegal_iff r 0).mp hgrid)) _ _ _ _

theorem overwritesRams_memAfter (r : Regs) (i : Instr) : OverwritesRams (MayRead i) (MayWrite i) (memAfter r i) := by
  unfold memAfter
  split
  next h => exact overwritesRams_effect h
  next => exact overwritesRams_id _ _

/-! ### The statements -/

/-- Settles O46: the bytes that a command overwrites lie in RAMs it may write. -/
theorem commandsWriteOnlyTheirRams : Obligations.CommandsWriteOnlyTheirRams := by
  intro i s t h a hne
  obtain ⟨t', hexec, hmem, -⟩ := exec_next i s
  obtain rfl : t' = t := Host.Outcome.next.inj (hexec.symm.trans h)
  obtain ⟨D, hD, hover⟩ := overwritesRams_memAfter s.regs i
  by_contra hout
  refine hne ?_
  rw [hmem]
  exact hover.frame s.mem a fun ha => hout (hD ha)

theorem mayRead_soleChannel {i : Instr} {c d : Ch} {r : Ram} (hi : soleChannel i = some c) (h : MayRead i r d) : d = c := by
  cases i <;> simp only [soleChannel, Option.some.injEq, reduceCtorEq] at hi <;> subst hi
  case resetCh => exact h.elim
  all_goals exact h.1

theorem mayWrite_soleChannel {i : Instr} {c d : Ch} {r : Ram} (hi : soleChannel i = some c) (h : MayWrite i r d) : d = c := by
  cases i <;> simp only [soleChannel, Option.some.injEq, reduceCtorEq] at hi <;> subst hi
  case resetCh => exact h
  all_goals exact h.1

theorem ramBytes_subset_window (r : Ram) (c : Ch) : ramBytes r c ⊆ {a | InWindow c a} := fun a ha => by
  obtain ⟨hlo, hhi, -⟩ := (exists_contains_iff c a).mp ⟨r, ha⟩
  simp only [chanBase, chanSize] at hlo hhi
  exact ⟨hlo, by omega⟩

/-- Settles O47: both commands overwrite the same bytes of the window, from bytes on which the memories agree. -/
theorem commandsReadOnlyTheirChannel : Obligations.CommandsReadOnlyTheirChannel := by
  intro i c s s' hi hregs hagree
  obtain ⟨D, -, hover⟩ := overwritesRams_memAfter s.regs i
  have hreads : bytesOf (MayRead i) ∪ cramSet ⊆ {a | InWindow c a ∨ InCram a} := by
    rintro a (⟨r, d, hread, ha⟩ | ha)
    · exact .inl (ramBytes_subset_window r c (mayRead_soleChannel hi hread ▸ ha))
    · exact .inr ha
  have hafter := hover.agreeOn_union hreads hagree
  simp only [exec_eq_command_effect, ← hregs]
  rw [memAfter] at hafter
  cases he : columnError s.regs i with
  | some e => exact ⟨_, _, State.command_some .., State.command_some .., by simp [hregs], fun a ha => hagree a (.inl ha)⟩
  | none =>
    rw [he, if_pos rfl] at hafter
    exact ⟨_, _, State.command_none .., State.command_none .., by simp [hregs], fun a ha => hafter a (.inl (.inl ha))⟩

theorem disjoint_bytesOf {P Q : Ram → Ch → Prop} (h : ∀ r c q d, P r c → Q q d → r ≠ q ∨ c ≠ d) :
    Disjoint (bytesOf P) (bytesOf Q) := by
  refine Set.disjoint_left.mpr ?_
  rintro a ⟨r, c, hP, hr⟩ ⟨q, d, hQ, hq⟩
  exact Set.disjoint_left.mp (disjoint_ramBytes (h r c q d hP hQ)) hr hq

theorem disjoint_cramSet_bytesOf (P : Ram → Ch → Prop) : Disjoint cramSet (bytesOf P) := by
  refine Set.disjoint_left.mpr ?_
  rintro a hcram ⟨r, c, -, hr⟩
  exact Set.disjoint_left.mp (disjoint_cramSet_ramBytes r c) hcram hr

/-- The RAMs of different channels are different. -/
theorem disjoint_reads_writes {P Q : Ram → Ch → Prop} {c c' : Ch} (hP : ∀ r d, P r d → d = c) (hQ : ∀ r d, Q r d → d = c')
    (hcc : c ≠ c') : Disjoint (bytesOf P ∪ cramSet) (bytesOf Q) :=
  Set.disjoint_union_left.mpr ⟨disjoint_bytesOf fun _ _ _ _ hp hq => .inr (by rwa [hP _ _ hp, hQ _ _ hq]),
    disjoint_cramSet_bytesOf Q⟩

/-- Settles O48: neither command writes what the other one reads or writes. -/
theorem channelsCommute : Obligations.ChannelsCommute := by
  intro i i' c c' s hi hi' hcc
  obtain ⟨t, ht, htMem, htNext⟩ := exec_next i s
  obtain ⟨t', ht', htMem', htNext'⟩ := exec_next i' s
  obtain ⟨u, hu, huMem, -⟩ := exec_next i' t
  obtain ⟨u', hu', huMem', -⟩ := exec_next i t'
  obtain ⟨D, hD, hover⟩ := overwritesRams_memAfter s.regs i
  obtain ⟨D', hD', hover'⟩ := overwritesRams_memAfter s.regs i'
  have hRD : Disjoint (bytesOf (MayRead i) ∪ cramSet) D' := (disjoint_reads_writes
    (fun _ _ => mayRead_soleChannel hi) (fun _ _ => mayWrite_soleChannel hi') hcc).mono_right hD'
  have hRD' : Disjoint (bytesOf (MayRead i') ∪ cramSet) D := (disjoint_reads_writes
    (fun _ _ => mayRead_soleChannel hi') (fun _ _ => mayWrite_soleChannel hi) hcc.symm).mono_right hD
  have hDD : Disjoint D D' := (disjoint_bytesOf fun _ _ _ _ hw hw' =>
    .inr (by rwa [mayWrite_soleChannel hi hw, mayWrite_soleChannel hi' hw'])).mono hD hD'
  refine ⟨t, u, t', u', ht, hu, ht', hu', fun a => ?_⟩
  rw [huMem, huMem', htMem, htMem', htNext, htNext']
  exact hover.exchange hover' hRD hRD'.symm hDD s.mem a

end Sys2Proof.Machine
end

section
/-! PROOFS. The canonical form and the map: a command keeps a memory in canonical form, and with it lists only bytes of RAMs. -/

namespace Sys2Proof.Machine

theorem wf_deqGrid {m : Memory} (h : m.wf) (src dst : Ram) (c : Ch) (scale off : Int) (n : Nat → Nat) (L : Nat) :
    (deqGrid src dst c scale off n L m).wf :=
  Memory.wf_foldl (fun _ _ h => Memory.wf_setRow h _ _ _ _ _) _ h

theorem wf_deqPairGrid {m : Memory} (h : m.wf) (src dst : Ram) (scale off pan panScale : Int) (n : Nat → Nat) (L : Nat) :
    (deqPairGrid src dst scale off pan panScale n L m).wf :=
  Memory.wf_foldl (fun _ _ h => Memory.wf_setRow (Memory.wf_setRow h _ _ _ _ _) _ _ _ _ _) _ h

theorem wf_restoreY {m : Memory} (h : m.wf) (c : Ch) (n : Nat) : (restoreY c n m).wf :=
  Memory.wf_foldl (fun _ _ h => Memory.wf_setRow h _ _ _ _ _) _ h

theorem wf_synSlot {m : Memory} (h : m.wf) (b : Nat) (tc ts : Nat → Nat → Word) (ssc : Word) (coef : List Word) (c : Ch)
    (l : Nat) : (synSlot b tc ts ssc coef c l m).wf :=
  Memory.wf_setRow (Memory.wf_setRow h _ _ _ _ _) _ _ _ _ _

/-- Every effect is made of stored rows and cleared ranges, and each of them keeps the canonical form. -/
theorem wf_effect (r : Regs) (i : Instr) {m : Memory} (h : m.wf) : (effect r i m).wf := by
  cases i with
  | nop => exact h
  | resetCh c mask => exact Memory.wf_foldl (fun _ _ h => Memory.wf_clear h _ _) _ h
  | shiftLow c => exact Memory.wf_foldl (fun _ _ h => Memory.wf_setRow h _ _ _ _ _) _ h
  | qmfAna c klim l0 nl =>
    exact Memory.wf_foldl (fun _ _ h => Memory.wf_setRow (Memory.wf_setRow h _ _ _ _ _) _ _ _ _ _) _ h
  | spliceX c kx mb restore =>
    have hY : Memory.wf (if restore then restoreY c r.ntsr m else m) := by
      split
      · exact wf_restoreY h c _
      · exact h
    exact Memory.wf_foldl (fun _ _ h => Memory.wf_setRow h _ _ _ _ _) _ hY
  | envMul c j0 nj m0 nm => exact Memory.wf_foldl (fun _ _ h => Memory.wf_setRow h _ _ _ _ _) _ h
  | envMac c j0 nj m0 nm => exact Memory.wf_foldl (fun _ _ h => Memory.wf_setRow h _ _ _ _ _) _ h
  | qmfSyn c l0 nl =>
    refine Memory.wf_foldl (fun _ _ h => ?_) _ h
    split <;> exact wf_synSlot h _ _ _ _ _ _ _
  | savePrev c =>
    have hW : (saveW c r.ntsr m).wf := Memory.wf_foldl (fun _ _ h => Memory.wf_setRow h _ _ _ _ _) _ h
    exact Memory.wf_foldl (fun _ _ h => Memory.wf_setRow h _ _ _ _ _) _ hW
  | deqEnv c => exact wf_deqGrid h _ _ _ _ _ _ _
  | deqNoise c => exact wf_deqGrid h _ _ _ _ _ _ _
  | deqEnvCpl => exact wf_deqPairGrid h _ _ _ _ _ _ _ _
  | deqNoiseCpl => exact wf_deqPairGrid h _ _ _ _ _ _ _ _

theorem wf_memAfter (r : Regs) (i : Instr) {m : Memory} (h : m.wf) : (memAfter r i m).wf := by
  unfold memAfter
  split
  · exact wf_effect r i h
  · exact h

/-- An entry of a canonical memory is what its address reads. -/
theorem Memory.readByte_of_mem {m : Memory} (h : m.wf) {x : Host.Cell} (hx : x ∈ m) : m.readByte x.1 = x.2 := by
  induction m with
  | nil => cases hx
  | cons y m ih =>
    obtain ⟨hhead, htail⟩ := List.pairwise_cons.mp h.1
    rw [Memory.readByte_cons]
    rcases List.mem_cons.mp hx with rfl | hx
    · exact if_pos rfl
    · rw [if_neg (hhead x hx).ne]
      exact ih ⟨htail, fun z hz => h.2 z (List.mem_cons_of_mem y hz)⟩ hx

/-- A memory lists only bytes of RAMs of the map. -/
def Memory.Mapped (m : Memory) : Prop := ∀ x ∈ m, mappedRam x.1 = true

/-- The bytes that a canonical memory does not read as another one lists are listed there. -/
theorem Memory.Mapped.of_changed {m m' : Memory} (hm : m.Mapped) (hwf : m'.wf)
    (h : ∀ a, m'.readByte a ≠ m.readByte a → mappedRam a = true) : m'.Mapped := by
  intro x hx
  by_cases hsame : m'.readByte x.1 = m.readByte x.1
  · have hlisted : ∃ y ∈ m, y.1 = x.1 := by
      by_contra! hnone
      rw [Memory.readByte_of_mem hwf hx, Memory.readByte_eq_zero_of_unlisted hnone] at hsame
      exact hwf.2 x hx hsame
    obtain ⟨y, hy, hyx⟩ := hlisted
    exact hyx ▸ hm y hy
  · exact h _ hsame

theorem mappedRam_of_contains {r : Ram} {c : Ch} {a : Nat} (h : r.contains c a = true) : mappedRam a = true := by
  refine (mappedRam_iff a).mpr (.inr ?_)
  obtain rfl | rfl := (by decide : ∀ c : Ch, c = 0 ∨ c = 1) c
  · exact .inl ⟨r, h⟩
  · exact .inr ⟨r, h⟩

theorem mapped_memAfter (r : Regs) (i : Instr) {m : Memory} (hm : m.Mapped) (hwf : m.wf) : (memAfter r i m).Mapped := by
  obtain ⟨D, hD, hover⟩ := overwritesRams_memAfter r i
  refine hm.of_changed (wf_memAfter r i hwf) fun a hne => ?_
  by_contra hout
  refine hne (hover.frame m a fun ha => hout ?_)
  obtain ⟨q, c, -, hin⟩ := hD ha
  exact mappedRam_of_contains hin

end Sys2Proof.Machine
end

section
/-! PROOFS. The machine invariant (10_state.md R28 to R38, R55; 60_exceptions.md R180, R184; 20_memory.md R68): every update of the
state keeps it. -/

namespace Sys2Proof.Machine

/-! ### Words with reserved bits -/

/-- A masked word has no bit outside the mask. -/
theorem and_and_eq_zero {mask reserved : Word} (h : mask &&& reserved = 0) (w : Word) : w &&& mask &&& reserved = 0 := by
  rw [BitVec.and_assoc, h]
  exact BitVec.and_zero

/-- The clauses of the invariant on `STATUS`, with `BUSY` as given. -/
structure StatusInv (st : Word) (busy : Bool) : Prop where
  reserved : st &&& 0xFFFFF0F8 = 0
  busy_eq : bit 0 st = busy
  noErrNoCode : bit 2 st = false → field 11 8 st = 0
  errCodeLegal : bit 2 st = true → 1 ≤ field 11 8 st ∧ field 11 8 st ≤ 5

theorem or_and_eq_zero {v w reserved : Word} (hv : v &&& reserved = 0) (hw : w &&& reserved = 0) :
    (v ||| w) &&& reserved = 0 := by
  rw [BitVec.and_or_distrib_right, hv, hw]
  exact BitVec.or_zero

theorem and_and_eq_zero_of_left {v reserved : Word} (hv : v &&& reserved = 0) (mask : Word) : v &&& mask &&& reserved = 0 := by
  rw [BitVec.and_assoc, BitVec.and_comm mask, ← BitVec.and_assoc, hv]
  exact BitVec.zero_and

theorem errorCode_bounds (e : CmdError) : 1 ≤ errorCode e ∧ errorCode e ≤ 5 := by cases e <;> decide

section
variable {st : Word} {busy : Bool} (h : StatusInv st busy)
include h

theorem StatusInv.afterOk : StatusInv (statusAfterOk st) false := by
  obtain ⟨hbusy, -, herr, hcode⟩ := statusAfterOk_flags st
  refine ⟨or_and_eq_zero (and_and_eq_zero_of_left h.reserved _) rfl, hbusy, ?_, ?_⟩ <;> rw [herr, hcode]
  · exact h.noErrNoCode
  · exact h.errCodeLegal

theorem StatusInv.afterErr (e : CmdError) : StatusInv (statusAfterErr e st) false := by
  obtain ⟨hbusy, -, herr, hcode⟩ := statusAfterErr_flags e st
  refine ⟨?_, hbusy, fun hnone => by simp [herr] at hnone, fun _ => ?_⟩
  · have hcodeWord : (BitVec.ofNat 32 (errorCode e) <<< 8 : Word) &&& 0xFFFFF0F8 = 0 := by cases e <;> rfl
    unfold statusAfterErr
    split
    · exact and_and_eq_zero_of_left h.reserved _
    · exact or_and_eq_zero (or_and_eq_zero (and_and_eq_zero_of_left h.reserved _) rfl) hcodeWord
  · rw [hcode]
    split
    next hset => exact h.errCodeLegal hset
    next => exact errorCode_bounds e

theorem StatusInv.afterWrite (data : Word) : StatusInv (statusAfterWrite data st) busy := by
  obtain ⟨-, herr⟩ := statusAfterWrite_flags data st
  have hcode := statusAfterWrite_errCode data st
  refine ⟨?_, ?_, fun hclear => ?_, fun hset => ?_⟩
  · have hdone : (if bit 1 data then st &&& ~~~doneMask else st) &&& 0xFFFFF0F8 = 0 := by
      split
      · exact and_and_eq_zero_of_left h.reserved _
      · exact h.reserved
    rw [statusAfterWrite]
    split
    · exact and_and_eq_zero_of_left hdone _
    · exact hdone
  · rw [statusAfterWrite_bit_of_kept data st (by decide) (by decide) (by decide) (by decide), h.busy_eq]
  · rw [hcode]
    split
    next => rfl
    next hdata =>
      rw [herr, Bool.eq_false_of_not_eq_true hdata, Bool.not_false, Bool.and_true] at hclear
      exact h.noErrNoCode hclear
  · rw [herr, Bool.and_eq_true, Bool.not_eq_true'] at hset
    rw [hcode, hset.2]
    exact h.errCodeLegal hset.1

theorem StatusInv.issued : StatusInv (st ||| busyMask) true := by
  have herr : bit 2 (st ||| busyMask) = bit 2 st := by simp [show bit 2 busyMask = false from rfl]
  have hcode : field 11 8 (st ||| busyMask) = field 11 8 st := by
    rw [field_or, show field 11 8 busyMask = 0 from rfl, Nat.or_zero]
  refine ⟨or_and_eq_zero h.reserved rfl, by simp [show bit 0 busyMask = true from rfl], ?_, ?_⟩ <;> rw [herr, hcode]
  · exact h.noErrNoCode
  · exact h.errCodeLegal

end

theorem statusInv_zero : StatusInv 0 false := ⟨rfl, rfl, fun _ => rfl, fun h => absurd h (by decide)⟩

/-! ### The parts of the invariant -/

/-- The clauses of the invariant on the registers but `STATUS`. -/
structure RegsInv (r : Regs) : Prop where
  ctrl : r.ctrl &&& 0xFFFFFFF9 = 0
  cfg : r.cfg &&& 0xFFFFFFF8 = 0
  grid0 : r.grid0 &&& 0xFFFFE0C8 = 0
  grid1 : r.grid1 &&& 0xFFFFE0C8 = 0
  nbe0b : r.nbe0b &&& 0xFFFFFF00 = 0
  nbe1b : r.nbe1b &&& 0xFFFFFF00 = 0
  dqn : r.dqn &&& 0x0000F000 = 0

theorem regsInv_reset : RegsInv Regs.reset := ⟨rfl, rfl, rfl, rfl, rfl, rfl, rfl⟩

/-- The invariant by its parts: memory, registers, `STATUS`, the pending command and the held accesses. -/
theorem State.inv_iff (s : State) :
    s.Inv ↔ (s.mem.wf ∧ s.mem.Mapped) ∧ RegsInv s.regs ∧ StatusInv s.regs.status s.pending.isSome ∧
      (∀ p, s.pending = some p → p.word = s.regs.cmd) ∧ ∀ a ∈ s.held, a.isStatusRead = false := by
  constructor
  · intro h
    exact ⟨⟨h.memWf, h.memMapped⟩, ⟨h.ctrlReserved, h.cfgReserved, h.grid0Reserved, h.grid1Reserved, h.nbe0bReserved,
      h.nbe1bReserved, h.dqnReserved⟩, ⟨h.statusReserved, h.busyPending, h.noErrNoCode, h.errCodeLegal⟩, h.cmdPending,
      h.heldNoStatusRead⟩
  · rintro ⟨⟨hwf, hmapped⟩, hregs, hstatus, hcmd, hheld⟩
    exact ⟨hwf, hmapped, hregs.ctrl, hstatus.reserved, hregs.cfg, hregs.grid0, hregs.grid1, hregs.nbe0b, hregs.nbe1b,
      hregs.dqn, hstatus.busy_eq, hcmd, hstatus.noErrNoCode, hstatus.errCodeLegal, hheld⟩

/-- Settles O11: at reset memory lists nothing and every reserved bit is 0. -/
theorem resetMeetsInvariant : Obligations.ResetMeetsInvariant :=
  State.reset.inv_iff.mpr ⟨⟨Memory.wf_nil, nofun⟩, regsInv_reset, statusInv_zero,
    nofun, nofun⟩

/-! ### Updates of the state -/

/-- A command's end without error, its effect on memory being canonical and mapped. -/
theorem State.Inv.endOk {s : State} (h : s.Inv) {m : Memory} (hm : m.wf ∧ m.Mapped) : (s.endOk m).Inv := by
  obtain ⟨-, hregs, hstatus, -, hheld⟩ := s.inv_iff.mp h
  exact (State.inv_iff _).mpr ⟨hm, { hregs with }, hstatus.afterOk, nofun, hheld⟩

theorem State.Inv.endErr {s : State} (h : s.Inv) (e : CmdError) : (s.endErr e).Inv := by
  obtain ⟨hm, hregs, hstatus, -, hheld⟩ := s.inv_iff.mp h
  exact (State.inv_iff _).mpr
    ⟨hm, { hregs with }, hstatus.afterErr e, nofun, hheld⟩

theorem State.Inv.exec {s t : State} (h : s.Inv) {i : Instr} (ht : exec i s = .next t) : t.Inv := by
  rw [exec_eq_command_effect] at ht
  obtain ⟨e, -, rfl⟩ | ⟨hnone, rfl⟩ := State.command_cases ht
  · exact h.endErr e
  · have hmem : effect s.regs i = memAfter s.regs i := (if_pos hnone).symm
    rw [hmem]
    exact h.endOk ⟨wf_memAfter _ i h.memWf, mapped_memAfter _ i h.memMapped h.memWf⟩

theorem State.Inv.runWord {s t : State} (h : s.Inv) {w : Word} (ht : runWord w s = .next t) : t.Inv := by
  cases hd : decode w with
  | error e =>
    rw [runWord_of_error hd] at ht
    exact Host.Outcome.next.inj ht ▸ h.endErr e
  | ok i =>
    rw [runWord_of_ok hd] at ht
    exact h.exec ht

/-- Other registers, with the same command word. -/
theorem State.Inv.withRegs {s : State} (h : s.Inv) {r : Regs} (hregs : RegsInv r)
    (hstatus : StatusInv r.status s.pending.isSome) (hcmd : r.cmd = s.regs.cmd) : State.Inv { s with regs := r } := by
  obtain ⟨hm, -, -, hpending, hheld⟩ := s.inv_iff.mp h
  exact (State.inv_iff _).mpr ⟨hm, hregs, hstatus, fun p hp => (hpending p hp).trans hcmd.symm, hheld⟩

theorem State.Inv.issue {s : State} (h : s.Inv) (w : Word) (k : Nat) : (s.issue w k).Inv := by
  obtain ⟨hm, hregs, hstatus, -, hheld⟩ := s.inv_iff.mp h
  exact (State.inv_iff _).mpr
    ⟨hm, { hregs with }, hstatus.issued, fun p hp => congrArg Pending.word (Option.some.inj hp).symm, hheld⟩

theorem State.Inv.softReset {s : State} (h : s.Inv) : s.softReset.Inv := by
  obtain ⟨⟨hwf, hmapped⟩, -, -, -, hheld⟩ := s.inv_iff.mp h
  exact (State.inv_iff _).mpr ⟨⟨Memory.wf_filter hwf _, fun x hx => hmapped x (List.mem_filter.mp hx).1⟩, regsInv_reset,
    statusInv_zero, nofun, hheld⟩

/-- Other accesses in flight, with no `STATUS` read held. -/
theorem State.Inv.withQueues {s : State} (h : s.Inv) {held host : List Access} {resp : List (Access × Response)}
    (hheld : ∀ a ∈ held, a.isStatusRead = false) :
    State.Inv { s with held := held, host := host, resp := resp } := by
  obtain ⟨hm, hregs, hstatus, hpending, -⟩ := s.inv_iff.mp h
  exact (State.inv_iff _).mpr ⟨hm, hregs, hstatus, hpending, hheld⟩

/-! ### Host accesses -/

/-- Each register keeps only the bits of its mask. -/
theorem State.Inv.writeReg {s : State} (h : s.Inv) (off : Nat) (data : Word) : (s.writeReg off data).Inv := by
  obtain ⟨-, hregs, hstatus, -, -⟩ := s.inv_iff.mp h
  unfold State.writeReg
  split
  case h_1 =>
    split
    · exact h.softReset
    · exact h.withRegs { hregs with ctrl := and_and_eq_zero rfl data } hstatus rfl
  case h_2 => exact h.withRegs { hregs with } (hstatus.afterWrite data) rfl
  case h_3 => exact h.issue data _
  case h_4 => exact h.withRegs { hregs with cfg := and_and_eq_zero rfl data } hstatus rfl
  case h_5 => exact h.withRegs { hregs with grid0 := and_and_eq_zero rfl data } hstatus rfl
  case h_6 => exact h.withRegs { hregs with grid1 := and_and_eq_zero rfl data } hstatus rfl
  case h_7 => exact h.withRegs { hregs with } hstatus rfl
  case h_8 => exact h.withRegs { hregs with nbe0b := and_and_eq_zero rfl data } hstatus rfl
  case h_9 => exact h.withRegs { hregs with } hstatus rfl
  case h_10 => exact h.withRegs { hregs with nbe1b := and_and_eq_zero rfl data } hstatus rfl
  case h_11 => exact h.withRegs { hregs with } hstatus rfl
  case h_12 => exact h.withRegs { hregs with dqn := and_and_eq_zero rfl data } hstatus rfl
  case h_13 => exact h.withRegs { hregs with } hstatus rfl
  case h_14 => exact h.withRegs { hregs with } hstatus rfl
  case h_15 => exact h

/-- RAMs begin and end at word addresses. -/
theorem Ram.base_mod_four (r : Ram) (c : Ch) : r.base c % 4 = 0 := by
  have hoff : r.off % 4 = 0 := by cases r <;> rfl
  rw [Ram.base, chanBase]
  omega

theorem contains_of_aligned {r : Ram} {c : Ch} {a b : Nat} (halign : a % 4 = 0) (hlo : a ≤ b) (hhi : b < a + 4)
    (h : r.contains c a = true) : r.contains c b = true := by
  rw [Ram.contains_iff] at h ⊢
  have hbase := r.base_mod_four c
  have hbytes : r.bytes % 4 = 0 := Nat.mul_mod_right 4 _
  omega

/-- The four bytes of a mapped word are mapped. -/
theorem mappedRam_of_aligned {a b : Nat} (halign : a % 4 = 0) (hlo : a ≤ b) (hhi : b < a + 4) (h : mappedRam a = true) :
    mappedRam b = true := by
  rw [mappedRam_iff, inCram_iff] at h ⊢
  refine h.imp (fun hcram => by omega) (Or.imp ?_ ?_) <;>
  · rintro ⟨r, hr⟩
    exact ⟨r, contains_of_aligned halign hlo hhi hr⟩

theorem State.Inv.ramWrite {s : State} (h : s.Inv) {a : Nat} (halign : a % 4 = 0) (ha : mappedRam a = true) (data : Word) :
    State.Inv { s with mem := s.mem.writeWords a [data] } := by
  obtain ⟨⟨hwf, hmapped⟩, hregs, hstatus, hpending, hheld⟩ := s.inv_iff.mp h
  have hwf' := Memory.wf_writeWords hwf a [data]
  refine (State.inv_iff _).mpr ⟨⟨hwf', hmapped.of_changed hwf' fun b hne => ?_⟩, hregs, hstatus, hpending, hheld⟩
  by_contra hout
  exact hne (Memory.readByte_writeWords_outside fun hin => hout (mappedRam_of_aligned halign hin.1 hin.2 ha))

theorem State.Inv.access {s : State} (h : s.Inv) (a : Access) : (s.access a).2.Inv := by
  cases a with
  | read addr size => rwa [State.access_read]
  | write addr size data =>
    by_cases hlegal : accessLegal addr.toNat size = true
    · rw [s.access_write_of_legal data hlegal]
      obtain ⟨-, halign, hexists⟩ := (accessLegal_iff _ _).mp hlegal
      dsimp only
      split
      next => exact h.writeReg _ data
      next hram => exact h.ramWrite halign (((addressExists_iff _).mp hexists).resolve_left hram) data
    · rwa [s.access_write_of_not_legal data hlegal]

theorem State.Inv.complete {s : State} (h : s.Inv) (a : Access) : (s.complete a).Inv := by
  have ha := h.access a
  exact ha.withQueues ha.heldNoStatusRead

/-! ### The step -/

/-- A longer or shorter wait of the same command word. -/
theorem State.Inv.withWait {s : State} (h : s.Inv) {w : Word} {k : Nat} (hp : s.pending = some ⟨w, k⟩) (k' : Nat) :
    State.Inv { s with pending := some ⟨w, k'⟩ } := by
  obtain ⟨hm, hregs, hstatus, hpending, hheld⟩ := s.inv_iff.mp h
  rw [hp] at hstatus
  refine (State.inv_iff _).mpr ⟨hm, hregs, hstatus, fun p hp' => ?_, hheld⟩
  have hword : w = s.regs.cmd := hpending ⟨w, k⟩ hp
  rw [← Option.some.inj hp', hword]

theorem State.Inv.waitStep {s : State} (h : s.Inv) {w : Word} {k : Nat} (hp : s.pending = some ⟨w, k + 1⟩) :
    (s.waitStep w k).Inv := by
  have hwait := h.withWait hp k
  obtain ⟨-, heq⟩ | ⟨a, rest, -, -, heq⟩ | ⟨a, rest, -, ha, heq⟩ := s.waitStep_cases w k <;> rw [heq]
  · exact hwait
  · exact State.Inv.complete (hwait.withQueues h.heldNoStatusRead) a
  · refine hwait.withQueues fun b hb => ?_
    rcases List.mem_append.mp hb with hb | hb
    · exact h.heldNoStatusRead b hb
    · exact List.mem_singleton.mp hb ▸ ha

theorem State.Inv.idleStep {s : State} (h : s.Inv) : s.idleStep.Inv := by
  obtain ⟨a, rest, hheld, heq⟩ | ⟨-, a, rest, -, heq⟩ | ⟨-, -, heq⟩ := s.idleStep_cases <;> rw [heq]
  · exact State.Inv.complete (h.withQueues fun b hb => h.heldNoStatusRead b (hheld ▸ List.mem_cons_of_mem a hb)) a
  · exact State.Inv.complete (h.withQueues h.heldNoStatusRead) a
  · exact h

/-- Settles O10: a step runs the pending word, lets it wait, or completes an access, and each keeps every part. -/
theorem stepKeepsInvariant : Obligations.StepKeepsInvariant := by
  intro s t h hstep
  rcases hp : s.pending with _ | ⟨w, _ | k⟩
  · rw [step_of_idle hp] at hstep
    exact Host.Outcome.next.inj hstep ▸ h.idleStep
  · rw [step_of_ready hp] at hstep
    exact h.runWord hstep
  · rw [step_of_waiting hp] at hstep
    exact Host.Outcome.next.inj hstep ▸ h.waitStep hp

end Sys2Proof.Machine
end

section
/-! PROOFS. The pipeline and filterbank commands as effects on memory (42_pipeline.md, 43_qmf.md): their frames and errors, repeated
commands, commands over parts of a range, and the tails across a frame boundary. -/

namespace Sys2Proof.Machine

/-! ### The filterbank commands in and out of range -/

theorem exec_qmfAna (s : State) (c : Ch) (klim l0 nl : Nat) :
    exec (.qmfAna c klim l0 nl) s =
      s.command (failing .range (anaInRange s.regs klim l0 nl)) (anaSlots c klim l0 nl) := rfl

theorem exec_qmfSyn (s : State) (c : Ch) (l0 nl : Nat) :
    exec (.qmfSyn c l0 nl) s = s.command (failing .range (synInRange s.regs l0 nl)) (synSlots s.regs c l0 nl) := rfl

theorem exec_qmfAna_of_inRange (s : State) (c : Ch) {klim l0 nl : Nat} (hklim : klim ≤ 32) (hl : l0 + nl ≤ frameSlots s.regs) :
    exec (.qmfAna c klim l0 nl) s = .next (s.endOk (anaSlots c klim l0 nl s.mem)) := by
  have hrange : anaInRange s.regs klim l0 nl = true := by
    rw [anaInRange, Bool.and_eq_true]
    exact ⟨decide_eq_true hklim, decide_eq_true hl⟩
  rw [exec_qmfAna, State.command_failing, if_pos hrange]

theorem exec_qmfAna_of_outOfRange (s : State) (c : Ch) {klim l0 nl : Nat} (h : 32 < klim ∨ frameSlots s.regs < l0 + nl) :
    exec (.qmfAna c klim l0 nl) s = .next (endedErr 4 s) := by
  have hrange : ¬anaInRange s.regs klim l0 nl = true := by
    rw [anaInRange, Bool.and_eq_true, decide_eq_true_eq, decide_eq_true_eq, ← show frameSlots s.regs = s.regs.ntsr from rfl]
    omega
  rw [exec_qmfAna, State.command_failing, if_neg hrange, errorCode]

theorem exec_qmfSyn_of_inRange (s : State) (c : Ch) {l0 nl : Nat} (hl : l0 + nl ≤ frameSlots s.regs) :
    exec (.qmfSyn c l0 nl) s = .next (s.endOk (synSlots s.regs c l0 nl s.mem)) := by
  have hrange : synInRange s.regs l0 nl = true := decide_eq_true hl
  rw [exec_qmfSyn, State.command_failing, if_pos hrange]

theorem exec_qmfSyn_of_outOfRange (s : State) (c : Ch) {l0 nl : Nat} (h : frameSlots s.regs < l0 + nl) :
    exec (.qmfSyn c l0 nl) s = .next (endedErr 4 s) := by
  have hrange : ¬synInRange s.regs l0 nl = true := fun hin => absurd (of_decide_eq_true hin) (Nat.not_le.mpr h)
  rw [exec_qmfSyn, State.command_failing, if_neg hrange, errorCode]

theorem frameSlots_le (r : Regs) : frameSlots r ≤ 32 := (ntsr_le r).2

/-- A slot range of the frame lies in the 32 slots of the RAMs. -/
theorem slots_le {r : Regs} {l0 nl : Nat} (h : l0 + nl ≤ frameSlots r) : l0 + nl ≤ 32 := h.trans (frameSlots_le r)

/-- Settles O38: the loop writes the delay line and the slots of `W` that it computes. -/
theorem qmfAnaCompletes : Obligations.QmfAnaCompletes := by
  refine ⟨fun s c klim l0 nl hklim hl => ?_, fun s c klim l0 nl => exec_qmfAna_of_outOfRange s c, fun w hop hbit => ?_⟩
  · refine ⟨_, exec_qmfAna_of_inRange s c hklim hl, s.endedOk_endOk _, fun hnl => by rw [hnl]; rfl, fun a ha => ?_⟩
    refine (overwrites_anaSlots c klim (slots_le hl)).frame s.mem a fun hin => ha ?_
    obtain ⟨i, hi, hADL | hW⟩ := hin
    · exact .inl hADL
    · exact .inr ⟨l0 + i, Nat.le_add_right _ _, Nat.add_lt_add_left hi l0, hW⟩
  · exact decode_eq_reserved_of_field .qmfAna hop (by decide) (field_ne_zero_of_bit hbit)

/-- A part of a row lies in the row. -/
theorem InRow.of_part {r : Ram} {c : Ch} {i k j n N a : Nat} (h : InRow r c i (k + j) n a) (hN : j + n ≤ N) :
    InRow r c i k N a := by
  obtain ⟨hlo, hhi⟩ := h
  have hwords := Nat.mul_le_mul_left r.parts hN
  rw [Nat.mul_add] at hwords
  rw [Ram.addr_succ] at hlo hhi
  exact ⟨by omega, by omega⟩

theorem synBands_eq (r : Regs) : synBands r = if bit 1 r.cfg then 32 else 64 := rfl

/-- A byte outside the delay line of the bank and the samples of the slots is left by the loop of `QMF_SYN`. -/
theorem readByte_synSlots (r : Regs) (c : Ch) {l0 nl : Nat} (hl : l0 + nl ≤ 32) (m : Memory) {a : Nat}
    (ha : ¬(InRow .SDL c 0 0 (20 * synBands r) a ∨ InRow .OUT c 0 (synBands r * l0) (synBands r * nl) a)) :
    (synSlots r c l0 nl m).readByte a = m.readByte a := by
  refine (overwrites_synSlots r c hl).frame m a fun hin => ha ?_
  obtain ⟨i, hi, hSDL | hOUT⟩ := hin
  · exact .inl hSDL
  · change InRow .OUT c 0 (synBands r * (l0 + i)) (synBands r) a at hOUT
    rw [Nat.mul_add] at hOUT
    exact .inr (hOUT.of_part (Nat.mul_le_mul_left (synBands r) hi))

/-- Settles O40: the loop writes the delay line of its bank and the samples of its slots, which lie one after another. -/
theorem qmfSynCompletes : Obligations.QmfSynCompletes := by
  refine ⟨fun s c l0 nl hl => ?_, fun s c l0 nl => exec_qmfSyn_of_outOfRange s c, fun w hop hres => ?_⟩
  · have hframe (a : Nat) := readByte_synSlots s.regs c (slots_le hl) s.mem (a := a)
    refine ⟨_, exec_qmfSyn_of_inRange s c hl, s.endedOk_endOk _, fun hnl => by rw [hnl]; rfl, fun hds a ha => ?_,
      fun hds a ha => ?_⟩
    · rw [synBands_eq, hds] at hframe
      exact hframe a ha
    · rw [synBands_eq, hds] at hframe
      exact hframe a ha
  · rcases hres with hbit | hfa
    · exact decode_eq_reserved_of_field .qmfSyn hop (by decide) (field_ne_zero_of_bit hbit)
    · exact decode_eq_reserved_of_field .qmfSyn hop (by decide) hfa

/-! ### A range in two parts -/

/-- A loop over a range is the loop over its first part and then the loop over its second. -/
theorem foldl_range_add {α : Type} (f : α → Nat → α) (x : α) (n k : Nat) :
    (List.range (n + k)).foldl f x = (List.range k).foldl (fun x i => f x (n + i)) ((List.range n).foldl f x) := by
  rw [List.range_add, List.foldl_append, List.foldl_map]

theorem anaSlots_add (c : Ch) (klim l0 n k : Nat) (m : Memory) :
    anaSlots c klim l0 (n + k) m = anaSlots c klim (l0 + n) k (anaSlots c klim l0 n m) := by
  simp only [anaSlots, foldl_range_add, Nat.add_assoc]

theorem synSlots_add (r : Regs) (c : Ch) (l0 n k : Nat) (m : Memory) :
    synSlots r c l0 (n + k) m = synSlots r c (l0 + n) k (synSlots r c l0 n m) := by
  simp only [synSlots, foldl_range_add, Nat.add_assoc]

/-- Settles O43: the slots of a range are computed in order, and between the commands `CFG` and the scales stay. -/
theorem filterbankCommandsSplit : Obligations.FilterbankCommandsSplit := by
  intro s c klim l0 n k hklim hl
  have hfirst : l0 + n ≤ frameSlots s.regs := by omega
  have hsecond : l0 + n + k ≤ frameSlots s.regs := by omega
  refine ⟨⟨_, _, _, exec_qmfAna_of_inRange s c hklim hfirst, exec_qmfAna_of_inRange _ c hklim hsecond,
    exec_qmfAna_of_inRange s c hklim hl, ?_⟩, ⟨_, _, _, exec_qmfSyn_of_inRange s c hfirst,
    exec_qmfSyn_of_inRange _ c hsecond, exec_qmfSyn_of_inRange s c hl, ?_⟩⟩
  · exact anaSlots_add c klim l0 n k s.mem
  · exact synSlots_add s.regs c l0 n k s.mem

/-! ### Copies -/

theorem exec_shiftLow_eq (c : Ch) (s : State) : exec (.shiftLow c) s = .next (s.endOk (shiftLow c s.mem)) := rfl

theorem exec_savePrev_eq (c : Ch) (s : State) :
    exec (.savePrev c) s = .next (s.endOk (saveY c (frameSlots s.regs) (saveW c (frameSlots s.regs) s.mem))) := rfl

/-- The rows of a loop lie in their RAM. -/
theorem rows_subset_ramBytes {r : Ram} (c : Ch) {L n : Nat} (hL : L ≤ r.rows) (hn : n ≤ r.cols) :
    {a | ∃ l < L, a ∈ rowBytes r c l 0 n} ⊆ ramBytes r c := by
  rintro a ⟨l, hl, ha⟩
  exact rowBytes_zero_subset c (hl.trans_le hL) hn ha

/-- Settles O49: `SHIFT_LOW` reads `WP` and writes the slots of `W` before those that `QMF_ANA` writes. -/
theorem shiftAndAnalysisCommute : Obligations.ShiftAndAnalysisCommute := by
  intro s c klim l0 nl hklim hl
  have hl32 := slots_le hl
  refine ⟨_, _, _, _, exec_shiftLow_eq c s, exec_qmfAna_of_inRange _ c hklim hl, exec_qmfAna_of_inRange s c hklim hl,
    exec_shiftLow_eq c _, (overwrites_shiftLow c).exchange (overwrites_anaSlots c klim hl32) ?_ ?_ ?_ s.mem⟩
  · refine Disjoint.mono_right (anaRows_subset c hl32) (Set.disjoint_union_right.mpr ⟨?_, ?_⟩)
    · exact disjoint_ramBytes (.inl (by decide))
    · exact disjoint_ramBytes (.inl (by decide))
  · refine Disjoint.mono_left (rows_subset_ramBytes c (by decide) le_rfl) ?_
    refine Set.disjoint_union_right.mpr ⟨Set.disjoint_union_right.mpr ⟨?_, ?_⟩, (disjoint_cramSet_ramBytes .W c).symm⟩
    · exact disjoint_ramBytes (.inl (by decide))
    · exact disjoint_ramBytes (.inl (by decide))
  · refine Set.disjoint_left.mpr ?_
    rintro a ⟨j, hj, hrow⟩ ⟨i, hi, ha⟩
    have hfit : Ram.W.Fits j 0 32 := ⟨show j < 40 by omega, le_rfl⟩
    rcases ha with hADL | hW
    · exact absurd (InRow.eq_of_inRow hrow hADL hfit ⟨Nat.one_pos, le_rfl⟩).1 (by decide)
    · have hslot := (InRow.eq_of_inRow hrow hW hfit ⟨show 8 + (l0 + i) < 40 by omega, le_rfl⟩).2.2
      omega

/-- The effect of `SAVE_PREV`: it reads the RAMs of the frame and writes those of the snapshot. -/
theorem overwrites_savePrev (c : Ch) {n : Nat} (hn : n ≤ 32) :
    Overwrites (ramBytes .W c ∪ ramBytes .Y c)
      ({a | ∃ j < 8, a ∈ rowBytes .WP c j 0 32} ∪ {a | ∃ j < 10, a ∈ rowBytes .YP c j 0 64})
      fun m => saveY c n (saveW c n m) :=
  ((overwrites_saveW c hn).mono Set.subset_union_left).comp ((overwrites_saveY c n).mono Set.subset_union_right)

theorem wf_shiftLow {m : Memory} (h : m.wf) (c : Ch) : (shiftLow c m).wf := wf_effect Regs.reset (.shiftLow c) h

theorem wf_savePrev {m : Memory} (h : m.wf) (r : Regs) (c : Ch) : (saveY c (frameSlots r) (saveW c (frameSlots r) m)).wf :=
  wf_effect r (.savePrev c) h

/-- Settles O30: neither command writes what it reads. -/
theorem snapshotCommandsAreIdempotent : Obligations.SnapshotCommandsAreIdempotent := by
  intro s c hwf
  refine ⟨⟨_, _, exec_shiftLow_eq c s, exec_shiftLow_eq c _, ?_⟩, ⟨_, _, exec_savePrev_eq c s, exec_savePrev_eq c _, ?_⟩⟩
  · refine Memory.eq_of_readByte (wf_shiftLow (wf_shiftLow hwf c) c) (wf_shiftLow hwf c)
      ((overwrites_shiftLow c).readByte_twice ?_ s.mem)
    exact (disjoint_ramBytes (.inl (by decide))).mono_right (rows_subset_ramBytes c (by decide) le_rfl)
  · refine Memory.eq_of_readByte (wf_savePrev (wf_savePrev hwf _ c) s.regs.endOk c) (wf_savePrev hwf _ c)
      ((overwrites_savePrev c (frameSlots_le s.regs)).readByte_twice ?_ s.mem)
    refine Set.disjoint_union_left.mpr ⟨Set.disjoint_union_right.mpr ⟨?_, ?_⟩, Set.disjoint_union_right.mpr ⟨?_, ?_⟩⟩ <;>
      exact (disjoint_ramBytes (.inl (by decide))).mono_right (rows_subset_ramBytes c le_rfl le_rfl)

/-! ### The tails across a frame boundary -/

/-- The end of a command keeps the frame length. -/
theorem EndedOk.frameSlots_eq {s t : State} (h : EndedOk s t) : frameSlots t.regs = frameSlots s.regs := by
  rw [h.1]
  rfl

theorem SameOutside.cplx_eq {P : Nat → Prop} {s t : State} (h : SameOutside P s t) {r : Ram} {c : Ch} {i k : Nat}
    (hr : r.parts = 2) (hP : ∀ a, InRow r c i k 1 a → ¬P a) : t.mem.cplx r c i k = s.mem.cplx r c i k :=
  Memory.cplx_congr hr fun a ha => h a (hP a ha)

/-- Settles O31: the three commands in turn, each as its own statement gives it; `SHIFT_LOW` leaves `YP`. -/
theorem tailsCrossTheFrameBoundary : Obligations.TailsCrossTheFrameBoundary := by
  intro s c kx mb hkx hmb
  obtain ⟨t, ht, htEnd, hWP, hYP, -⟩ := savePrevSnapshotsTails.1 s c
  obtain ⟨u, hu, huEnd, hW, huFrame⟩ := shiftLowCopiesSnapshot.1 t c
  obtain ⟨v, hv, -, hY, hX, -⟩ := spliceXBuildsSynthesisInput.1 u c kx mb true hkx hmb
  have hn : frameSlots u.regs = frameSlots s.regs := huEnd.frameSlots_eq.trans htEnd.frameSlots_eq
  have hframe := frameSlots_eq s.regs
  rw [hn] at hY hX
  have lookback : ∀ j < 8, ∀ k < 32, u.mem.cplx .W c j k = s.mem.cplx .W c (frameSlots s.regs + j) k := fun j hj k hk =>
    (hW j hj k hk).trans (hWP j hj k hk)
  have lowBand : ∀ l < frameSlots s.regs, ∀ k < kx, v.mem.cplx .X c l k = u.mem.cplx .W c (l + 2) k := fun l hl k hk =>
    (hX l hl k (by omega)).trans (if_pos hk)
  refine ⟨t, u, v, ht, hu, hv, lookback, fun j hj k hk => ?_, fun l hl k hk => ?_, fun l hl k hk => ?_⟩
  · have hshift : u.mem.cplx .YP c j k = t.mem.cplx .YP c j k := by
      refine huFrame.cplx_eq rfl ?_
      rintro a ha ⟨i, hi, hrow⟩
      have hfit : Ram.YP.Fits j k 1 := ⟨show j < 10 by omega, hk⟩
      exact absurd (ha.eq_of_inRow hrow hfit ⟨show i < 40 by omega, le_rfl⟩).1 (by decide)
    rw [hY rfl j hj k hk, hshift, hYP j (by omega) k hk, if_pos hj]
  · rw [lowBand l (by omega) k hk, lookback (l + 2) (by omega) k (by omega),
      show 8 + (l + frameSlots s.regs - 6) = frameSlots s.regs + (l + 2) by omega]
  · rw [lowBand (l + 6) hl k hk, Nat.add_comm 8 l]

end Sys2Proof.Machine
end

section
/-! PROOFS. The analysis filterbank (43_qmf.md R158): the delay line, the folded values and the bands of one slot are rows, each given by
a function of the index. -/

namespace Sys2Proof.Machine

/-- The delay line after slot `l`: 32 new samples, the newest first, then the old line shifted (43_qmf.md R158). -/
def anaLine (c : Ch) (l : Nat) (m : Memory) (n : Nat) : Word :=
  if n < 32 then m.real .IN c 0 (32 * l + (31 - n)) else m.real .ADL c 0 (n - 32)

/-- The folded value `n` of a delay line under a window (43_qmf.md R158). -/
def foldedValue (x coef : Nat → Word) (n : Nat) : Word :=
  sum32 ((List.range 5).map fun i => mul32 (x (64 * i + n)) (coef (64 * i + n)))

/-- Band `k` of the column computed from the folded values (43_qmf.md R158, R159). -/
def anaElement (u : Nat → Word) (klim k : Nat) : Cplx :=
  if k < klim then
    ⟨sum32 ((List.range 64).map fun n => mul32 (u n) (tac k n)), sum32 ((List.range 64).map fun n => mul32 (u n) (tas k n))⟩
  else ⟨0, 0⟩

/-- Coefficient `n` of the even window, of which the analysis uses 320 (43_qmf.md R157, R158). -/
def evenCoef (m : Memory) (n : Nat) : Word := m.readWord (0x01000 + 4 * (2 * n))

theorem reverse_map_range (f : Nat → Word) (n : Nat) :
    ((List.range n).map f).reverse = (List.range n).map fun i => f (n - 1 - i) := by
  refine List.ext_getElem (by simp) fun i hi _ => ?_
  simp

theorem anaDelay_eq_map (c : Ch) (l : Nat) (m : Memory) : anaDelay c l m = (List.range 320).map (anaLine c l m) := by
  have hold : m.readBlock (Ram.addr .ADL c 0 0) 10 32 = (List.range 320).map (m.real .ADL c 0) :=
    (m.readBlock_eq_readWords _ _ _).trans (m.realRow_eq_map c 0 _ rfl)
  have hnew : (List.range 32).map (anaLine c l m) = (List.range 32).map fun n => m.real .IN c 0 (32 * l + (31 - n)) :=
    List.map_congr_left fun n hn => if_pos (List.mem_range.mp hn)
  have hshifted : (List.range 288).map (fun n => anaLine c l m (32 + n)) = (List.range 288).map (m.real .ADL c 0) :=
    List.map_congr_left fun n _ => by rw [anaLine, if_neg (by omega), Nat.add_sub_cancel_left]
  have hsplit : (List.range 320).map (anaLine c l m) =
      (List.range 32).map (anaLine c l m) ++ (List.range 288).map fun n => anaLine c l m (32 + n) := map_range_add _ 32 288
  rw [anaDelay, hold, take_map_range _ (by decide), m.realRow_eq_map_real c 0 _ _ rfl, reverse_map_range, hsplit, hnew,
    hshifted]

theorem anaFold_map_range (x coef : Nat → Word) :
    anaFold ((List.range 320).map x) ((List.range 320).map coef) = (List.range 64).map (foldedValue x coef) := by
  rw [anaFold, zipWith_mul32_map_range]
  exact sumRows_rowsOf_map_range (fun n => mul32 (x n) (coef n)) 64 4

theorem foldedValue_eq_sum32 (x coef : Nat → Word) (n : Nat) :
    foldedValue x coef n = sum32 [mul32 (x n) (coef n), mul32 (x (n + 64)) (coef (n + 64)), mul32 (x (n + 128)) (coef (n + 128)),
      mul32 (x (n + 192)) (coef (n + 192)), mul32 (x (n + 256)) (coef (n + 256))] := by
  simp [foldedValue, List.range_succ, Nat.add_comm n]

theorem anaBand_map_range (u : Nat → Word) (klim k : Nat) :
    anaBand ((List.range 64).map u) klim k = anaElement u klim k := by
  simp only [anaBand, modulate, zipWith_mul32_map_range]
  rfl

section
variable (c : Ch) (klim l : Nat) (m : Memory)

theorem anaSlot_eq_setRow :
    anaSlot c klim l m =
      (m.setRow .ADL c 0 0 ((List.range 320).map (anaLine c l m))).setRow .W c (8 + l) 0
        (unpair ((List.range 32).map (anaElement (foldedValue (anaLine c l m) (evenCoef m)) klim))) := by
  have hband : ∀ u : Nat → Word, anaBand ((List.range 64).map u) klim = anaElement u klim := fun u =>
    funext fun k => anaBand_map_range u klim k
  rw [anaSlot, evens_window_eq_map, anaDelay_eq_map, anaFold_map_range, hband]
  rfl

/-- The column of a slot is clear of `ADL`. -/
theorem real_ADL_anaSlot (hl : l < 32) {n : Nat} (hn : n < 320) : (anaSlot c klim l m).real .ADL c 0 n = anaLine c l m n := by
  rw [anaSlot_eq_setRow, ← m.real_setRow_map c 0 (anaLine c l m) (show Ram.ADL.parts = 1 from rfl) hn]
  refine Memory.real_congr rfl fun a ha => Memory.readByte_setRow_unpair rfl fun hrow => ?_
  have hsame := ha.eq_of_inRow hrow ⟨Nat.one_pos, hn⟩ ⟨show 8 + l < 40 by omega, le_rfl⟩
  exact absurd hsame.1 (by decide)

theorem cplx_W_anaSlot {k : Nat} (hk : k < 32) :
    (anaSlot c klim l m).cplx .W c (8 + l) k = anaElement (foldedValue (anaLine c l m) (evenCoef m)) klim k := by
  have hread := (m.setRow .ADL c 0 0 ((List.range 320).map (anaLine c l m))).cplx_setRow_unpair c (8 + l) 0
    (anaElement (foldedValue (anaLine c l m) (evenCoef m)) klim) (show Ram.W.parts = 2 from rfl) hk
  rwa [Nat.zero_add, ← anaSlot_eq_setRow] at hread

end

theorem anaSlots_one (c : Ch) (klim l : Nat) (m : Memory) : anaSlots c klim l 1 m = anaSlot c klim l m := rfl

/-- Settles O39: the rows that a slot stores, by their indices. -/
theorem qmfAnaComputesSlot : Obligations.QmfAnaComputesSlot := by
  intro s c klim l hklim hl
  have hslot : l < 32 := slots_le hl
  refine ⟨_, exec_qmfAna_of_inRange s c hklim hl, anaLine c l s.mem, _, foldedValue (anaLine c l s.mem) (evenCoef s.mem),
    fun n hn => ?_, fun n hn _ => if_neg (by omega), fun n _ => rfl, fun n _ => foldedValue_eq_sum32 _ _ n, fun n hn => ?_, fun k hk => ?_⟩
  · rw [anaLine, if_pos (by omega), show 31 - (31 - n) = n by omega]
  · exact real_ADL_anaSlot c klim l s.mem hslot hn
  · exact cplx_W_anaSlot c klim l s.mem hk

end Sys2Proof.Machine
end

section
/-! PROOFS. The zero case of the filterbanks (43_qmf.md R164): products of a zero with finite words are zeros, a sum of zeros is `+0` if
one of them is, and each row of the twiddle ROMs has an entry that makes one of them so. -/

namespace Sys2Proof.Machine

/-! ### Sums of zeros -/

theorem significand_zeroF (s : Bool) : significand (zeroF s) = 0 := by cases s <;> rfl

theorem isFinite32_zeroF (s : Bool) : IsFinite32 (zeroF s) := by
  rw [IsFinite32]
  cases s <;> decide

theorem bit_sign_zeroF (s : Bool) : bit 31 (zeroF s) = s := by cases s <;> rfl

theorem mul32_zeroF (s : Bool) {w : Word} (hw : IsFinite32 w) : mul32 (zeroF s) w = zeroF (s ^^ bit 31 w) := by
  rw [mul32_of_isFinite32 (isFinite32_zeroF s) hw, significand_zeroF, Nat.zero_mul, rne32_zero, bit_sign_zeroF]

theorem mul32_zero {w : Word} (hw : IsFinite32 w) : mul32 0 w = zeroF (bit 31 w) := by
  rw [show (0 : Word) = zeroF false from rfl, mul32_zeroF false hw, Bool.false_xor]

theorem neg32_zeroF (s : Bool) : neg32 (zeroF s) = zeroF (!s) := by cases s <;> rfl

theorem add32_zeroF (s t : Bool) : add32 (zeroF s) (zeroF t) = zeroF (s && t) := by cases s <;> cases t <;> rfl

theorem foldl_add32_zeroF (s : Bool) (signs : List Bool) :
    (signs.map zeroF).foldl add32 (zeroF s) = zeroF (s && signs.all id) := by
  induction signs generalizing s with
  | nil => simp
  | cons t signs ih => rw [List.map_cons, List.foldl_cons, add32_zeroF, ih, List.all_cons, Bool.and_assoc, id]

/-- A sum of zeros with a `+0` among them is `+0` (00_scope.md R11, R14). -/
theorem sum32_map_zeroF {signs : List Bool} (h : false ∈ signs) : sum32 (signs.map zeroF) = 0 := by
  cases signs with
  | nil => rfl
  | cons s signs =>
    rw [List.map_cons, sum32, foldl_add32_zeroF]
    have hall : (s && signs.all id) = false := by
      rw [← Bool.not_eq_true, ← id_eq (a := s), ← List.all_cons, List.all_eq_true]
      exact fun hpos => Bool.false_ne_true (hpos false h)
    rw [hall]
    rfl

/-- Products of zeros with finite words, one of them of positive sign, sum to `+0`. -/
theorem sum32_mul32_zero {N : Nat} {x y : Nat → Word} (hx : ∀ n < N, x n = 0) (hy : ∀ n < N, IsFinite32 (y n))
    {j : Nat} (hj : j < N) (hpos : bit 31 (y j) = false) :
    sum32 ((List.range N).map fun n => mul32 (x n) (y n)) = 0 := by
  have hterms : ((List.range N).map fun n => mul32 (x n) (y n)) = ((List.range N).map fun n => bit 31 (y n)).map zeroF := by
    rw [List.map_map]
    refine List.map_congr_left fun n hn => ?_
    have hn := List.mem_range.mp hn
    rw [hx n hn, mul32_zero (hy n hn)]
    rfl
  rw [hterms]
  exact sum32_map_zeroF (List.mem_map.mpr ⟨j, List.mem_range.mpr hj, hpos⟩)

/-- A coefficient of a window or a scale as the zero case asks for it. -/
def Nonnegative (w : Word) : Prop := IsFinite32 w ∧ bit 31 w = false

theorem Nonnegative.mul32_zero {w : Word} (h : Nonnegative w) : mul32 0 w = 0 := by
  rw [Machine.mul32_zero h.1, h.2]
  rfl

/-! ### The signs of twiddles -/

/-- A word that is a small real rounded is finite and has its sign. -/
theorem IsRne32.finite_and_sign {x : ℝ} {w : Word} (h : IsRne32 x w) (hx : |x| ≤ 2) :
    IsFinite32 w ∧ (0 < x → bit 31 w = false) ∧ (x < 0 → bit 31 w = true) := by
  obtain ⟨hfin, hpos, hneg, -⟩ := h.2.2 (hx.trans_lt (by norm_num))
  exact ⟨hfin, hpos, hneg⟩

theorem abs_two_mul_le {y : ℝ} (h : |y| ≤ 1) : |2 * y| ≤ 2 := by
  rw [abs_mul, abs_two]
  linarith

theorem abs_le_two {y : ℝ} (h : |y| ≤ 1) : |y| ≤ 2 := h.trans one_le_two

section
variable {k n : Nat} (hk : k < 32) (hn : n < 64)
include hk hn

theorem isFinite32_tac : IsFinite32 (tac k n) :=
  ((twiddlesAreCorrectlyRounded.1 k hk n hn).1.finite_and_sign (abs_two_mul_le (Real.abs_cos_le_one _))).1

theorem isFinite32_tas : IsFinite32 (tas k n) :=
  ((twiddlesAreCorrectlyRounded.1 k hk n hn).2.1.finite_and_sign (abs_two_mul_le (Real.abs_sin_le_one _))).1

end

/-- The angle of `TAc[k][0]` lies within a quarter turn. -/
theorem tac_zero_sign {k : Nat} (hk : k < 32) : bit 31 (tac k 0) = false := by
  obtain ⟨hcos, -⟩ := twiddlesAreCorrectlyRounded.1 k hk 0 (by decide)
  refine (hcos.finite_and_sign (abs_two_mul_le (Real.abs_cos_le_one _))).2.1 (mul_pos two_pos ?_)
  have hkR : (k : ℝ) + 1 ≤ 32 := by exact_mod_cast hk
  have hk0 : (0 : ℝ) ≤ k := Nat.cast_nonneg k
  have hpi := Real.pi_pos
  rw [Nat.cast_zero]
  apply Real.cos_pos_of_mem_Ioo
  constructor <;> nlinarith

/-- The angle of `TAs[k][1]` lies within the first half turn. -/
theorem tas_one_sign {k : Nat} (hk : k < 32) : bit 31 (tas k 1) = false := by
  obtain ⟨-, hsin, -⟩ := twiddlesAreCorrectlyRounded.1 k hk 1 (by decide)
  refine (hsin.finite_and_sign (abs_two_mul_le (Real.abs_sin_le_one _))).2.1 (mul_pos two_pos ?_)
  have hkR : (k : ℝ) + 1 ≤ 32 := by exact_mod_cast hk
  have hk0 : (0 : ℝ) ≤ k := Nat.cast_nonneg k
  have hpi := Real.pi_pos
  rw [Nat.cast_one]
  apply Real.sin_pos_of_pos_of_lt_pi <;> nlinarith

/-- A synthesis bank with finite twiddles, and negative sines for band 0. -/
structure SilentBank (b : Nat) (tc ts : Nat → Nat → Word) : Prop where
  pos : 0 < b
  finiteCos : ∀ k < b, ∀ n < 2 * b, IsFinite32 (tc k n)
  finiteSin : ∀ k < b, ∀ n < 2 * b, IsFinite32 (ts k n)
  negSin : ∀ n < 2 * b, bit 31 (ts 0 n) = true

/-- The angles of `TSs64[0]` lie in the half turn before 0. -/
theorem silentBank_64 : SilentBank 64 tsc64 tss64 where
  pos := by decide
  finiteCos k hk n hn :=
    ((twiddlesAreCorrectlyRounded.2 k hk n hn).1.finite_and_sign (abs_le_two (Real.abs_cos_le_one _))).1
  finiteSin k hk n hn :=
    ((twiddlesAreCorrectlyRounded.2 k hk n hn).2.finite_and_sign (abs_le_two (Real.abs_sin_le_one _))).1
  negSin n hn := by
    obtain ⟨-, hsin⟩ := twiddlesAreCorrectlyRounded.2 0 (by decide) n hn
    refine (hsin.finite_and_sign (abs_le_two (Real.abs_sin_le_one _))).2.2 ?_
    have hnR : (n : ℝ) + 1 ≤ 128 := by exact_mod_cast hn
    have hn0 : (0 : ℝ) ≤ n := Nat.cast_nonneg n
    have hpi := Real.pi_pos
    rw [Nat.cast_zero]
    apply Real.sin_neg_of_neg_of_neg_pi_lt <;> nlinarith

/-- The angles of `TSs32[0]` lie in the half turn before 0. -/
theorem silentBank_32 : SilentBank 32 tsc32 tss32 where
  pos := by decide
  finiteCos k hk n hn :=
    ((twiddlesAreCorrectlyRounded.1 k hk n hn).2.2.1.finite_and_sign (abs_le_two (Real.abs_cos_le_one _))).1
  finiteSin k hk n hn :=
    ((twiddlesAreCorrectlyRounded.1 k hk n hn).2.2.2.finite_and_sign (abs_le_two (Real.abs_sin_le_one _))).1
  negSin n hn := by
    obtain ⟨-, -, -, hsin⟩ := twiddlesAreCorrectlyRounded.1 0 (by decide) n hn
    refine (hsin.finite_and_sign (abs_le_two (Real.abs_sin_le_one _))).2.2 ?_
    have hnR : (n : ℝ) + 1 ≤ 64 := by exact_mod_cast hn
    have hn0 : (0 : ℝ) ≤ n := Nat.cast_nonneg n
    have hpi := Real.pi_pos
    rw [Nat.cast_zero]
    apply Real.sin_neg_of_neg_of_neg_pi_lt <;> nlinarith

/-! ### What a loop leaves alone -/

section
variable {R W : Ram → Ch → Prop} {f : Memory → Memory} (hf : OverwritesRams R W f) (m : Memory)
include hf

theorem OverwritesRams.readByte_of_not_written {r : Ram} {c : Ch} (hW : ¬W r c) {a : Nat} (ha : a ∈ ramBytes r c) :
    (f m).readByte a = m.readByte a := by
  obtain ⟨D, hD, hover⟩ := hf
  refine hover.frame m a fun hin => hW ?_
  obtain ⟨q, d, hWq, hq⟩ := hD hin
  obtain ⟨rfl, rfl⟩ := Ram.eq_of_contains ha hq
  exact hWq

theorem OverwritesRams.real_eq {r : Ram} {c : Ch} {i k : Nat} (hW : ¬W r c) (hr : r.parts = 1) (hfit : r.Fits i k 1) :
    (f m).real r c i k = m.real r c i k :=
  Memory.real_congr hr fun _ ha => hf.readByte_of_not_written m hW (ha.contains hfit)

theorem OverwritesRams.cplx_eq {r : Ram} {c : Ch} {i k : Nat} (hW : ¬W r c) (hr : r.parts = 2) (hfit : r.Fits i k 1) :
    (f m).cplx r c i k = m.cplx r c i k :=
  Memory.cplx_congr hr fun _ ha => hf.readByte_of_not_written m hW (ha.contains hfit)

/-- No loop of a command writes `CRAM`. -/
theorem OverwritesRams.readWord_cram {n : Nat} (hn : n < 640) :
    (f m).readWord (0x01000 + 4 * n) = m.readWord (0x01000 + 4 * n) := by
  obtain ⟨D, hD, hover⟩ := hf
  refine Memory.readWord_congr fun j hj => hover.frame m _ fun hin => ?_
  have hcram : InCram (0x01000 + 4 * n + j) := ⟨by omega, by omega⟩
  exact Set.disjoint_left.mp (disjoint_cramSet_bytesOf W) hcram (hD hin)

end

/-! ### Silence in the analysis -/

theorem foldedValue_zero {x coef : Nat → Word} (hx : ∀ n < 320, x n = 0) (hcoef : ∀ n < 320, Nonnegative (coef n)) {n : Nat}
    (hn : n < 64) : foldedValue x coef n = 0 :=
  sum32_mul32_zero (fun i hi => hx _ (by omega)) (fun i hi => (hcoef _ (by omega)).1) (j := 0) (by decide)
    (hcoef _ (by omega)).2

theorem anaElement_zero {u : Nat → Word} (hu : ∀ n < 64, u n = 0) (klim : Nat) {k : Nat} (hk : k < 32) :
    anaElement u klim k = ⟨0, 0⟩ := by
  unfold anaElement
  split
  · rw [sum32_mul32_zero hu (fun n hn => isFinite32_tac hk hn) (by decide) (tac_zero_sign hk),
      sum32_mul32_zero hu (fun n hn => isFinite32_tas hk hn) (by decide) (tas_one_sign hk)]
  · rfl

/-- The memory is silent for the analysis: the delay line is `+0` and the window is that of the zero case. -/
structure AnaSilent (c : Ch) (m : Memory) : Prop where
  line : ∀ n < 320, m.real .ADL c 0 n = 0
  window : ∀ n < 320, Nonnegative (evenCoef m n)

section
variable {c : Ch} {m : Memory}

/-- A slot of silence keeps the delay line silent, and its column of `W` is `+0`. -/
theorem AnaSilent.anaSlot (h : AnaSilent c m) (klim : Nat) {l : Nat} (hl : l < 32)
    (hIN : ∀ j < 32, m.real .IN c 0 (32 * l + j) = 0) :
    AnaSilent c (anaSlot c klim l m) ∧ ∀ k < 32, (anaSlot c klim l m).cplx .W c (8 + l) k = ⟨0, 0⟩ := by
  have hline : ∀ n < 320, anaLine c l m n = 0 := fun n hn => by
    unfold anaLine
    split
    · exact hIN _ (by omega)
    · exact h.line _ (by omega)
  have hslot : OverwritesRams (MayRead (.qmfAna c klim l 1)) (MayWrite (.qmfAna c klim l 1)) (Machine.anaSlot c klim l) :=
    overwritesRams_qmfAna c klim (by omega)
  refine ⟨⟨fun n hn => ?_, fun n hn => ?_⟩, fun k hk => ?_⟩
  · rw [real_ADL_anaSlot c klim l m hl hn, hline n hn]
  · rw [evenCoef, hslot.readWord_cram m (by omega)]
    exact h.window n hn
  · rw [cplx_W_anaSlot c klim l m hk]
    exact anaElement_zero (fun n hn => foldedValue_zero hline h.window hn) klim hk

theorem anaSlots_succ (c : Ch) (klim l0 nl : Nat) (m : Memory) :
    anaSlots c klim l0 (nl + 1) m = Machine.anaSlot c klim (l0 + nl) (anaSlots c klim l0 nl m) := by
  rw [anaSlots_add, anaSlots_one]

theorem AnaSilent.anaSlots (h : AnaSilent c m) (klim l0 : Nat) {nl : Nat} (hl : l0 + nl ≤ 32)
    (hIN : ∀ n, 32 * l0 ≤ n → n < 32 * (l0 + nl) → m.real .IN c 0 n = 0) :
    AnaSilent c (anaSlots c klim l0 nl m) ∧
      ∀ l, l0 ≤ l → l < l0 + nl → ∀ k < 32, (anaSlots c klim l0 nl m).cplx .W c (8 + l) k = ⟨0, 0⟩ := by
  induction nl with
  | zero => exact ⟨h, fun l hlo hhi => by omega⟩
  | succ nl ih =>
    obtain ⟨hsilent, hcolumns⟩ := ih (by omega) fun n hlo hhi => hIN n hlo (by omega)
    have hbefore : OverwritesRams (MayRead (.qmfAna c klim l0 nl)) (MayWrite (.qmfAna c klim l0 nl))
        (Machine.anaSlots c klim l0 nl) := overwritesRams_qmfAna c klim (by omega)
    have hINslot : ∀ j < 32, (Machine.anaSlots c klim l0 nl m).real .IN c 0 (32 * (l0 + nl) + j) = 0 := fun j hj => by
      rw [hbefore.real_eq m (by simp [MayWrite]) rfl ⟨Nat.one_pos, show 32 * (l0 + nl) + j + 1 ≤ 1024 by omega⟩]
      exact hIN _ (by omega) (by omega)
    obtain ⟨hsilent', hcolumn⟩ := hsilent.anaSlot klim (by omega) hINslot
    rw [anaSlots_succ]
    refine ⟨hsilent', fun l hlo hhi k hk => ?_⟩
    obtain hlt | rfl : l < l0 + nl ∨ l = l0 + nl := by omega
    · rw [← hcolumns l hlo hlt k hk]
      refine Memory.cplx_congr rfl fun a ha => (overwrites_anaSlot c klim (by omega)).frame _ a ?_
      have hfit : Ram.W.Fits (8 + l) k 1 := ⟨show 8 + l < 40 by omega, hk⟩
      rintro (hADL | hW)
      · exact absurd (ha.eq_of_inRow hADL hfit ⟨Nat.one_pos, le_rfl⟩).1 (by decide)
      · have hslot := (ha.eq_of_inRow hW hfit ⟨show 8 + (l0 + nl) < 40 by omega, le_rfl⟩).2.2
        omega
    · exact hcolumn k hk

end

/-- Settles O44: every slot finds a silent memory and leaves one. -/
theorem silenceStaysSilentInAnalysis : Obligations.SilenceStaysSilentInAnalysis := by
  intro s c klim l0 nl hklim hl hIN hADL hcoef
  obtain ⟨hsilent, hcolumns⟩ := AnaSilent.anaSlots ⟨hADL, hcoef⟩ klim l0 (slots_le hl) hIN
  exact ⟨_, exec_qmfAna_of_inRange s c hklim hl, hcolumns, hsilent.line⟩

/-! ### Silence in the synthesis -/

theorem gatherIndex_lt {b n : Nat} (hn : n < 10 * b) : gatherIndex b n < 20 * b := by
  have hb : 0 < 2 * b := by omega
  have hquot : n / (2 * b) ≤ 4 := Nat.le_of_lt_succ ((Nat.div_lt_iff_lt_mul hb).mpr (by omega))
  have hrow := Nat.mul_le_mul_left (4 * b) hquot
  have hrem := Nat.mod_lt n hb
  unfold gatherIndex
  split <;> omega

/-- The terms of a modulation of `+0` are zeros, and the sine term of band 0 is `+0`. -/
theorem modulation_zero {b : Nat} {tc ts : Nat → Nat → Word} (hbank : SilentBank b tc ts) {x : Nat → Cplx}
    (hx : ∀ k < b, x k = ⟨0, 0⟩) {n : Nat} (hn : n < 2 * b) :
    sum32 ((List.range b).flatMap fun k => [mul32 (x k).re (tc k n), neg32 (mul32 (x k).im (ts k n))]) = 0 := by
  have hterms : ((List.range b).flatMap fun k => [mul32 (x k).re (tc k n), neg32 (mul32 (x k).im (ts k n))]) =
      ((List.range b).flatMap fun k => [bit 31 (tc k n), !bit 31 (ts k n)]).map zeroF := by
    rw [List.map_flatMap]
    refine List.flatMap_congr fun k hk => ?_
    have hk := List.mem_range.mp hk
    rw [hx k hk, mul32_zero (hbank.finiteCos k hk n hn), mul32_zero (hbank.finiteSin k hk n hn), neg32_zeroF]
    rfl
  rw [hterms]
  refine sum32_map_zeroF (List.mem_flatMap.mpr ⟨0, List.mem_range.mpr hbank.pos, ?_⟩)
  rw [hbank.negSin n hn]
  exact List.mem_cons_of_mem _ (List.mem_singleton_self _)

theorem synSample_zero {b : Nat} {v coef : Nat → Word} (hv : ∀ n < 20 * b, v n = 0)
    (hcoef : ∀ n < 10 * b, Nonnegative (coef n)) {j : Nat} (hj : j < b) : synSample b v coef j = 0 := by
  have hrow : ∀ i < 10, b * i + j < 10 * b := fun i hi => by
    have := Nat.mul_le_mul_left b (show i ≤ 9 by omega)
    omega
  exact sum32_mul32_zero (fun i hi => hv _ (gatherIndex_lt (hrow i hi))) (fun i hi => (hcoef _ (hrow i hi)).1)
    (j := 0) (by decide) (hcoef _ (hrow 0 (by decide))).2

section
variable {b : Nat} {tc ts : Nat → Nat → Word} (hbank : SilentBank b tc ts) (hb : b ≤ 64) {ssc : Word}
  (hssc : Nonnegative ssc) {coef : Nat → Word} (hcoef : ∀ n < 10 * b, Nonnegative (coef n)) {c : Ch} {l : Nat}
  (hl : l < 32) {m : Memory} (hX : ∀ k < 64, m.cplx .X c l k = ⟨0, 0⟩) (hSDL : ∀ n < 1280, m.real .SDL c 0 n = 0)
include hbank hb hssc hX hSDL

theorem synLine_zero : ∀ n < 20 * b, synLine b tc ts ssc c l m n = 0 := fun n hn => by
  unfold synLine
  split
  next hnew => rw [modulation_zero hbank (fun k hk => hX k (by omega)) hnew, hssc.mul32_zero]
  next => exact hSDL _ (by omega)

include hcoef hl

/-- A slot of silence in a bank: the delay line and the samples are `+0`. -/
theorem synSlot_zero :
    (∀ n < 1280, (synSlot b tc ts ssc ((List.range (10 * b)).map coef) c l m).real .SDL c 0 n = 0) ∧
      ∀ j < b, (synSlot b tc ts ssc ((List.range (10 * b)).map coef) c l m).real .OUT c 0 (b * l + j) = 0 := by
  have hline := synLine_zero hbank hb hssc hX hSDL
  have hout : b * l + b ≤ 2048 := calc
    b * l + b = b * (l + 1) := (Nat.mul_succ _ _).symm
    _ ≤ 64 * 32 := Nat.mul_le_mul hb hl
  refine ⟨fun n hn => ?_, fun j hj => ?_⟩
  · by_cases hlow : n < 20 * b
    · rw [real_SDL_synSlot_of_lt b _ _ _ _ c l m hout (by omega) hlow, hline n hlow]
    · rw [real_SDL_synSlot_of_le b _ _ _ _ c l m hout (by omega) hn, hSDL n hn]
  · rw [real_OUT_synSlot b _ _ _ _ c l m hj]
    exact synSample_zero hline hcoef hj

end

/-- The memory is silent for the synthesis: `SDL` is `+0` and the window is that of the zero case. -/
structure SynSilent (c : Ch) (m : Memory) : Prop where
  line : ∀ n < 1280, m.real .SDL c 0 n = 0
  window : ∀ n < 640, Nonnegative (m.readWord (0x01000 + 4 * n))

theorem synSlots_one (r : Regs) (c : Ch) (l : Nat) (m : Memory) :
    synSlots r c l 1 m = if bit 1 r.cfg then syn32Slot r c l m else syn64Slot r c l m := rfl

/-- A run of elements ends before a later band of its slot. -/
theorem InRow.not_of_band_le {r : Ram} {c : Ch} {i k k' n n' a : Nat} (h : InRow r c i k n a) (hk : k + n ≤ k') :
    ¬InRow r c i k' n' a := by
  obtain ⟨d, rfl⟩ := Nat.exists_eq_add_of_le hk
  rintro ⟨hlo, -⟩
  have hhi := h.2
  rw [Ram.addr_succ, Ram.addr_succ] at hlo
  omega

section
variable {r : Regs} (h64 : Nonnegative r.ssc64) (h32 : Nonnegative r.ssc32) {c : Ch} {m : Memory} (h : SynSilent c m)
include h64 h32 h

/-- A slot of silence keeps the delay line silent, and its samples are `+0`. -/
theorem SynSilent.synSlot {l : Nat} (hl : l < 32) (hX : ∀ k < 64, m.cplx .X c l k = ⟨0, 0⟩) :
    SynSilent c (synSlots r c l 1 m) ∧
      ∀ j < synBands r, (synSlots r c l 1 m).real .OUT c 0 (synBands r * l + j) = 0 := by
  have hwindow : ∀ n < 640, Nonnegative ((synSlots r c l 1 m).readWord (0x01000 + 4 * n)) := fun n hn => by
    rw [(overwritesRams_qmfSyn r c (show l + 1 ≤ 32 by omega)).readWord_cram m hn]
    exact h.window n hn
  rw [synBands_eq]
  rw [synSlots_one] at hwindow ⊢
  cases hds : bit 1 r.cfg with
  | false =>
    rw [hds, if_neg Bool.false_ne_true, syn64Slot_eq] at hwindow
    rw [if_neg Bool.false_ne_true, if_neg Bool.false_ne_true, syn64Slot_eq]
    obtain ⟨hline, hsamples⟩ := synSlot_zero silentBank_64 le_rfl h64 h.window hl hX h.line
    exact ⟨⟨hline, hwindow⟩, hsamples⟩
  | true =>
    rw [hds, if_pos rfl, syn32Slot_eq] at hwindow
    rw [if_pos rfl, if_pos rfl, syn32Slot_eq]
    obtain ⟨hline, hsamples⟩ := synSlot_zero silentBank_32 (by decide) h32 (coef := fun n => m.readWord (0x01000 + 4 * (2 * n)))
      (fun n hn => h.window (2 * n) (by omega)) hl hX h.line
    exact ⟨⟨hline, hwindow⟩, hsamples⟩

theorem SynSilent.synSlots (l0 : Nat) {nl : Nat} (hl : l0 + nl ≤ 32)
    (hX : ∀ l, l0 ≤ l → l < l0 + nl → ∀ k < 64, m.cplx .X c l k = ⟨0, 0⟩) :
    SynSilent c (synSlots r c l0 nl m) ∧
      ∀ j < synBands r * nl, (synSlots r c l0 nl m).real .OUT c 0 (synBands r * l0 + j) = 0 := by
  induction nl with
  | zero => exact ⟨h, fun j hj => absurd hj (Nat.not_lt_zero j)⟩
  | succ nl ih =>
    obtain ⟨hsilent, hsamples⟩ := ih (by omega) fun l hlo hhi => hX l hlo (by omega)
    have hbefore := overwritesRams_qmfSyn r c (show l0 + nl ≤ 32 by omega)
    have hXslot : ∀ k < 64, (Machine.synSlots r c l0 nl m).cplx .X c (l0 + nl) k = ⟨0, 0⟩ := fun k hk => by
      rw [hbefore.cplx_eq m (by simp [MayWrite]) rfl ⟨show l0 + nl < 32 by omega, hk⟩]
      exact hX _ (by omega) (by omega) k hk
    obtain ⟨hsilent', hslot⟩ := SynSilent.synSlot h64 h32 hsilent (by omega) hXslot
    rw [synSlots_add]
    refine ⟨hsilent', fun j hj => ?_⟩
    rw [Nat.mul_succ] at hj
    have hend := (fits_OUT r (show l0 + nl < 32 by omega)).2
    change synBands r * (l0 + nl) + synBands r ≤ 2048 at hend
    rw [Nat.mul_add] at hslot hend
    by_cases hlt : j < synBands r * nl
    · rw [← hsamples j hlt]
      refine Memory.real_congr rfl fun a ha => readByte_synSlots r c (by omega) _ ?_
      have hfit : Ram.OUT.Fits 0 (synBands r * l0 + j) 1 := ⟨Nat.one_pos, show _ + _ + 1 ≤ 2048 by omega⟩
      rintro (hSDL | hOUT)
      · have hb := synBands_le r
        exact absurd (ha.eq_of_inRow hSDL hfit ⟨Nat.one_pos, show 0 + 20 * synBands r ≤ 1280 by omega⟩).1 (by decide)
      · rw [Nat.mul_add] at hOUT
        exact ha.not_of_band_le (by omega) hOUT
    · obtain ⟨d, rfl⟩ := Nat.exists_eq_add_of_le (not_lt.mp hlt)
      rw [← Nat.add_assoc]
      exact hslot d (by omega)

end

/-- Settles O45: every slot finds a silent memory and leaves one, in the bank that `CFG.DS` selects. -/
theorem silenceStaysSilentInSynthesis : Obligations.SilenceStaysSilentInSynthesis := by
  intro s c l0 nl hl hX hSDL hfin64 hpos64 hfin32 hpos32 hcoef
  obtain ⟨hsilent, hsamples⟩ :=
    SynSilent.synSlots ⟨hfin64, hpos64⟩ ⟨hfin32, hpos32⟩ ⟨hSDL, hcoef⟩ l0 (slots_le hl) hX
  refine ⟨_, exec_qmfSyn_of_inRange s c hl, fun j hj => ?_, hsilent.line⟩
  have hbands : ∀ x, (if bit 1 s.regs.cfg then 32 * x else 64 * x) = synBands s.regs * x := fun x => by
    rw [synBands_eq, ite_mul]
  rw [hbands] at hj ⊢
  exact hsamples j hj

end Sys2Proof.Machine
end
